-- ==== Sys2Proof/Word.lean ====
section
/-! DEFINITION. The unit's fixed-size words: a 64-bit limb or transport word, a 128-bit command, a slot index. -/

namespace Sys2Proof

/-- A 64-bit word: one limb of a payload (R28), one word of a command (R59) or of a slot image (R41). -/
abbrev Word := BitVec 64

/-- A command: word 0 is bits 63:0, word 1 is bits 127:64 (R59). -/
abbrev Command := BitVec 128

/-- The index of a value slot `x0` to `x15` (R23, R63). -/
abbrev Slot := Fin 16

end Sys2Proof
end

