-- ==== Sys2Proof/Config.lean ====
section
/-! DEFINITION. The unit's build-time parameters (R7). No free value is needed: the spec leaves no result open. -/

namespace Sys2Proof

/-- The three parameters a model takes as configuration arguments (R7). -/
structure Config where
  /-- `WMAX`: the largest width of any value a slot holds, and of the magnitude of a RangedInt bound. -/
  wmax : Nat
  /-- `CQ_DEPTH`: how many commands the queue holds. -/
  cqDepth : Nat
  /-- `DEBUG_ABORT`: whether an out-of-range RangedInt construction is fatal (R153). -/
  debugAbort : Bool
deriving DecidableEq, Repr

/-- This hardware's values: `WMAX = 4096`, `CQ_DEPTH = 16`, `DEBUG_ABORT = 0` (R7). -/
def Config.natUnit : Config := { wmax := 4096, cqDepth := 16, debugAbort := false }

/-- The range R7 allows a build: `2001 ≤ WMAX ≤ 65535`, and a queue of at least one command (D30). -/
def Config.valid (cfg : Config) : Bool :=
  decide (2001 ≤ cfg.wmax) && decide (cfg.wmax ≤ 65535) && decide (1 ≤ cfg.cqDepth)

/-- `CNTW = 16`: the width of the NAT results that hold a count (R7, D18). -/
abbrev cntw : Nat := 16

end Sys2Proof
end

