-- ==== Sys2Proof/Syntax.lean ====
section
/-! DEFINITION. The 42 commands, one constructor per row of the opcode map (R67), with the operands their format
names (R62). Parameters and immediates are the unsigned integers of R64 and R65; their ranges are checked by
WellFormed. -/

namespace Sys2Proof

/-- A command of the unit, in the order of the opcode map (R67). -/
inductive Instr where
  | nop
  | halt
  | mov (rd rs1 : Slot)
  | clr (rd : Slot)
  | natLi (rd : Slot) (w imm : Nat)
  | natSucc (rd rs1 : Slot)
  | natAdd (rd rs1 rs2 : Slot)
  | natSub (rd rs1 rs2 : Slot)
  | natSubz (rd rs1 : Slot)
  | natCmp (rd rs1 rs2 : Slot)
  | natShl (rd rs1 : Slot) (k : Nat)
  | natShr (rd rs1 : Slot) (k : Nat)
  | natBitsize (rd rs1 : Slot)
  | natConcat (rd rs1 rs2 : Slot)
  | natTobits (rd rs1 : Slot)
  | bitsLi (rd : Slot) (w imm : Nat)
  | bitsConcat (rd rs1 rs2 : Slot)
  | bitsShr (rd rs1 : Slot) (k : Nat)
  | bitsExtract (rd rs1 : Slot) (high low : Nat)
  | bitsTrim (rd rs1 : Slot) (t : Nat)
  | bitsZext (rd rs1 : Slot) (t : Nat)
  | bitsSext (rd rs1 : Slot) (t : Nat)
  | bitsNot (rd rs1 : Slot)
  | bitsSucc (rd rs1 : Slot)
  | bitsCmp (rd rs1 rs2 : Slot)
  | bitsFlip (rd rs1 : Slot) (f : Nat)
  | bitsAdd (rd rs1 rs2 : Slot)
  | bitsSign (rd rs1 : Slot)
  | bitsTonat (rd rs1 : Slot)
  | negNegate (rd rs1 : Slot)
  | negAbs (rd rs1 : Slot)
  | negCmp (rd rs1 rs2 : Slot)
  | negAdd (rd rs1 rs2 : Slot)
  | riNew (rd rs1 rs2 rs3 : Slot)
  | riAdd (rd rs1 rs2 : Slot)
  | riValue (rd rs1 : Slot)
  | riBias (rd rs1 : Slot)
  | riWidth (rd rs1 : Slot)
  | mbNew (rd rs1 rs2 rs3 : Slot)
  | mbExtract (rd rs1 : Slot) (high low : Nat)
  | mbFixed (rd rs1 : Slot)
  | mbEq (rd rs1 rs2 : Slot)
deriving DecidableEq, Repr

end Sys2Proof
end

