-- ==== Sys2Proof/WellFormed.lean ====
section
/-! DEFINITION. Which instruction terms a command can encode, and which slots each names. Slot indices are in
range by type (R63); a parameter is below 2^16 (R64) and an immediate below 2^64 (R65, R71). A parameter's meaning
(a width at most WMAX, an extract inside its source) is no check of form (R76). -/

namespace Sys2Proof

/-- P1 or P2 fits its 16-bit field (R64). -/
def paramOk (p : Nat) : Bool := decide (p < 2 ^ 16)

/-- IMM fits word 1 (R65). -/
def immOk (imm : Nat) : Bool := decide (imm < 2 ^ 64)

/-- The instruction is one that a command encodes (R62 to R65). -/
def Instr.wf : Instr → Bool
  | .natLi _ w imm => paramOk w && immOk imm
  | .bitsLi _ w imm => paramOk w && immOk imm
  | .natShl _ _ k => paramOk k
  | .natShr _ _ k => paramOk k
  | .bitsShr _ _ k => paramOk k
  | .bitsExtract _ _ high low => paramOk high && paramOk low
  | .bitsTrim _ _ t => paramOk t
  | .bitsZext _ _ t => paramOk t
  | .bitsSext _ _ t => paramOk t
  | .bitsFlip _ _ f => paramOk f
  | .mbExtract _ _ high low => paramOk high && paramOk low
  | .nop | .halt | .mov _ _ | .clr _
  | .natSucc _ _ | .natAdd _ _ _ | .natSub _ _ _ | .natSubz _ _ | .natCmp _ _ _ | .natBitsize _ _
  | .natConcat _ _ _ | .natTobits _ _
  | .bitsConcat _ _ _ | .bitsNot _ _ | .bitsSucc _ _ | .bitsCmp _ _ _ | .bitsAdd _ _ _ | .bitsSign _ _
  | .bitsTonat _ _
  | .negNegate _ _ | .negAbs _ _ | .negCmp _ _ _ | .negAdd _ _ _
  | .riNew _ _ _ _ | .riAdd _ _ _ | .riValue _ _ | .riBias _ _ | .riWidth _ _
  | .mbNew _ _ _ _ | .mbFixed _ _ | .mbEq _ _ _ => true

/-- The destination slot the instruction's format names (R62); NOP and HALT have none. -/
def Instr.dest : Instr → Option Slot
  | .nop | .halt => none
  | .mov rd _ | .clr rd => some rd
  | .natLi rd _ _ | .natSucc rd _ | .natAdd rd _ _ | .natSub rd _ _ | .natSubz rd _ | .natCmp rd _ _
  | .natShl rd _ _ | .natShr rd _ _ | .natBitsize rd _ | .natConcat rd _ _ | .natTobits rd _ => some rd
  | .bitsLi rd _ _ | .bitsConcat rd _ _ | .bitsShr rd _ _ | .bitsExtract rd _ _ _ | .bitsTrim rd _ _
  | .bitsZext rd _ _ | .bitsSext rd _ _ | .bitsNot rd _ | .bitsSucc rd _ | .bitsCmp rd _ _
  | .bitsFlip rd _ _ | .bitsAdd rd _ _ | .bitsSign rd _ | .bitsTonat rd _ => some rd
  | .negNegate rd _ | .negAbs rd _ | .negCmp rd _ _ | .negAdd rd _ _ => some rd
  | .riNew rd _ _ _ | .riAdd rd _ _ | .riValue rd _ | .riBias rd _ | .riWidth rd _ => some rd
  | .mbNew rd _ _ _ | .mbExtract rd _ _ _ | .mbFixed rd _ | .mbEq rd _ _ => some rd

/-- The source slots the instruction reads, in the order RS1, RS2, RS3 (R62, R154). -/
def Instr.sources : Instr → List Slot
  | .nop | .halt | .clr _ | .natLi _ _ _ | .bitsLi _ _ _ => []
  | .mov _ a | .natSucc _ a | .natSubz _ a | .natBitsize _ a | .natTobits _ a | .natShl _ a _ | .natShr _ a _
  | .bitsShr _ a _ | .bitsExtract _ a _ _ | .bitsTrim _ a _ | .bitsZext _ a _ | .bitsSext _ a _ | .bitsNot _ a
  | .bitsSucc _ a | .bitsFlip _ a _ | .bitsSign _ a | .bitsTonat _ a
  | .negNegate _ a | .negAbs _ a | .riValue _ a | .riBias _ a | .riWidth _ a
  | .mbExtract _ a _ _ | .mbFixed _ a => [a]
  | .natAdd _ a b | .natSub _ a b | .natCmp _ a b | .natConcat _ a b
  | .bitsConcat _ a b | .bitsCmp _ a b | .bitsAdd _ a b | .negCmp _ a b | .negAdd _ a b
  | .riAdd _ a b | .mbEq _ a b => [a, b]
  | .riNew _ a b c | .mbNew _ a b c => [a, b, c]

end Sys2Proof
end

