-- ==== Sys2Proof/Decode.lean ====
section
/-! DEFINITION. Decoding a 128-bit command (R59 to R70, R74) and, after it, the encoder (R72). Decoding is total
with the three answers of R70. -/

namespace Sys2Proof

/-- The field of `width` bits that begins at bit `lo`: `(v div 2^lo) mod 2^width` (R9). -/
def bitField (lo width v : Nat) : Nat := v / 2 ^ lo % 2 ^ width

/-- A 4-bit slot index (R63). -/
def slotField (lo v : Nat) : Slot := Fin.ofNat 16 (bitField lo 4 v)

/-- The fields of a command (R60, R61). -/
structure Fields where
  opc : Nat
  rd : Slot
  rs1 : Slot
  rs2 : Slot
  rs3 : Slot
  p1 : Nat
  p2 : Nat
  rsv : Nat
  imm : Nat
deriving DecidableEq, Repr

/-- The fields of a command, word 0 in bits 63:0 and word 1 in bits 127:64 (R59 to R61, R74). -/
def fieldsOf (c : Command) : Fields where
  opc := bitField 0 8 c.toNat
  rd := slotField 8 c.toNat
  rs1 := slotField 12 c.toNat
  rs2 := slotField 16 c.toNat
  rs3 := slotField 20 c.toNat
  p1 := bitField 24 16 c.toNat
  p2 := bitField 40 16 c.toNat
  rsv := bitField 56 8 c.toNat
  imm := bitField 64 64 c.toNat

/-- The opcode map (R67): the command an assigned opcode names, with the fields its format uses (R62). Every
other opcode is unassigned (R68). -/
def instrOfFields (f : Fields) : Option Instr :=
  match f.opc with
  | 0x01 => some .nop
  | 0x02 => some .halt
  | 0x03 => some (.mov f.rd f.rs1)
  | 0x04 => some (.clr f.rd)
  | 0x10 => some (.natLi f.rd f.p1 f.imm)
  | 0x11 => some (.natSucc f.rd f.rs1)
  | 0x12 => some (.natAdd f.rd f.rs1 f.rs2)
  | 0x13 => some (.natSub f.rd f.rs1 f.rs2)
  | 0x14 => some (.natSubz f.rd f.rs1)
  | 0x15 => some (.natCmp f.rd f.rs1 f.rs2)
  | 0x16 => some (.natShl f.rd f.rs1 f.p1)
  | 0x17 => some (.natShr f.rd f.rs1 f.p1)
  | 0x18 => some (.natBitsize f.rd f.rs1)
  | 0x19 => some (.natConcat f.rd f.rs1 f.rs2)
  | 0x1A => some (.natTobits f.rd f.rs1)
  | 0x20 => some (.bitsLi f.rd f.p1 f.imm)
  | 0x21 => some (.bitsConcat f.rd f.rs1 f.rs2)
  | 0x22 => some (.bitsShr f.rd f.rs1 f.p1)
  | 0x23 => some (.bitsExtract f.rd f.rs1 f.p1 f.p2)
  | 0x24 => some (.bitsTrim f.rd f.rs1 f.p1)
  | 0x25 => some (.bitsZext f.rd f.rs1 f.p1)
  | 0x26 => some (.bitsSext f.rd f.rs1 f.p1)
  | 0x27 => some (.bitsNot f.rd f.rs1)
  | 0x28 => some (.bitsSucc f.rd f.rs1)
  | 0x29 => some (.bitsCmp f.rd f.rs1 f.rs2)
  | 0x2A => some (.bitsFlip f.rd f.rs1 f.p1)
  | 0x2B => some (.bitsAdd f.rd f.rs1 f.rs2)
  | 0x2C => some (.bitsSign f.rd f.rs1)
  | 0x2D => some (.bitsTonat f.rd f.rs1)
  | 0x30 => some (.negNegate f.rd f.rs1)
  | 0x31 => some (.negAbs f.rd f.rs1)
  | 0x32 => some (.negCmp f.rd f.rs1 f.rs2)
  | 0x33 => some (.negAdd f.rd f.rs1 f.rs2)
  | 0x40 => some (.riNew f.rd f.rs1 f.rs2 f.rs3)
  | 0x41 => some (.riAdd f.rd f.rs1 f.rs2)
  | 0x42 => some (.riValue f.rd f.rs1)
  | 0x43 => some (.riBias f.rd f.rs1)
  | 0x44 => some (.riWidth f.rd f.rs1)
  | 0x50 => some (.mbNew f.rd f.rs1 f.rs2 f.rs3)
  | 0x51 => some (.mbExtract f.rd f.rs1 f.p1 f.p2)
  | 0x52 => some (.mbFixed f.rd f.rs1)
  | 0x53 => some (.mbEq f.rd f.rs1 f.rs2)
  | _ => none

/-- The three answers of decoding (R70). -/
inductive Decoded where
  /-- An assigned opcode with RSV = 0, and its operands. -/
  | instr (i : Instr)
  /-- The opcode is unassigned (R68). -/
  | illegalOpcode
  /-- The opcode is assigned and RSV is not 0 (R66). -/
  | reservedField
deriving DecidableEq, Repr

/-- The answer the fields give: the opcode is checked before the reserved field (R68, R74). -/
def decodeFields (f : Fields) : Decoded :=
  match instrOfFields f with
  | none => .illegalOpcode
  | some i => if f.rsv = 0 then .instr i else .reservedField

/-- Decode a command (R74). -/
def decode (c : Command) : Decoded := decodeFields (fieldsOf c)

/-- The command of `nbits` bits numbered as the opcode table numbers them, every bit above them 0. -/
def commandOfTableWord (nbits w : Nat) : Command := BitVec.ofNat 128 (w % 2 ^ nbits)

/-- What the decoder reads from an opcode-table word (none where it refuses). -/
def decodeTableWord (nbits w : Nat) : Option Instr :=
  match decode (commandOfTableWord nbits w) with
  | .instr i => some i
  | .illegalOpcode => none
  | .reservedField => none

/-- `word0 = OPC | RD<<8 | RS1<<12 | RS2<<16 | RS3<<20 | P1<<24 | P2<<40`, word 1 = IMM, RSV = 0 (R72). -/
def pack (opc : Nat) (rd rs1 rs2 rs3 : Slot) (p1 p2 imm : Nat) : Command :=
  BitVec.ofNat 128 (opc + rd.val * 2 ^ 8 + rs1.val * 2 ^ 12 + rs2.val * 2 ^ 16 + rs3.val * 2 ^ 20
    + p1 * 2 ^ 24 + p2 * 2 ^ 40 + imm * 2 ^ 64)

/-- The command that encodes an instruction: 0 in every unused field and in RSV (R67, R72, R75). -/
def encode : Instr → Command
  | .nop => pack 0x01 0 0 0 0 0 0 0
  | .halt => pack 0x02 0 0 0 0 0 0 0
  | .mov rd rs1 => pack 0x03 rd rs1 0 0 0 0 0
  | .clr rd => pack 0x04 rd 0 0 0 0 0 0
  | .natLi rd w imm => pack 0x10 rd 0 0 0 w 0 imm
  | .natSucc rd rs1 => pack 0x11 rd rs1 0 0 0 0 0
  | .natAdd rd rs1 rs2 => pack 0x12 rd rs1 rs2 0 0 0 0
  | .natSub rd rs1 rs2 => pack 0x13 rd rs1 rs2 0 0 0 0
  | .natSubz rd rs1 => pack 0x14 rd rs1 0 0 0 0 0
  | .natCmp rd rs1 rs2 => pack 0x15 rd rs1 rs2 0 0 0 0
  | .natShl rd rs1 k => pack 0x16 rd rs1 0 0 k 0 0
  | .natShr rd rs1 k => pack 0x17 rd rs1 0 0 k 0 0
  | .natBitsize rd rs1 => pack 0x18 rd rs1 0 0 0 0 0
  | .natConcat rd rs1 rs2 => pack 0x19 rd rs1 rs2 0 0 0 0
  | .natTobits rd rs1 => pack 0x1A rd rs1 0 0 0 0 0
  | .bitsLi rd w imm => pack 0x20 rd 0 0 0 w 0 imm
  | .bitsConcat rd rs1 rs2 => pack 0x21 rd rs1 rs2 0 0 0 0
  | .bitsShr rd rs1 k => pack 0x22 rd rs1 0 0 k 0 0
  | .bitsExtract rd rs1 high low => pack 0x23 rd rs1 0 0 high low 0
  | .bitsTrim rd rs1 t => pack 0x24 rd rs1 0 0 t 0 0
  | .bitsZext rd rs1 t => pack 0x25 rd rs1 0 0 t 0 0
  | .bitsSext rd rs1 t => pack 0x26 rd rs1 0 0 t 0 0
  | .bitsNot rd rs1 => pack 0x27 rd rs1 0 0 0 0 0
  | .bitsSucc rd rs1 => pack 0x28 rd rs1 0 0 0 0 0
  | .bitsCmp rd rs1 rs2 => pack 0x29 rd rs1 rs2 0 0 0 0
  | .bitsFlip rd rs1 f => pack 0x2A rd rs1 0 0 f 0 0
  | .bitsAdd rd rs1 rs2 => pack 0x2B rd rs1 rs2 0 0 0 0
  | .bitsSign rd rs1 => pack 0x2C rd rs1 0 0 0 0 0
  | .bitsTonat rd rs1 => pack 0x2D rd rs1 0 0 0 0 0
  | .negNegate rd rs1 => pack 0x30 rd rs1 0 0 0 0 0
  | .negAbs rd rs1 => pack 0x31 rd rs1 0 0 0 0 0
  | .negCmp rd rs1 rs2 => pack 0x32 rd rs1 rs2 0 0 0 0
  | .negAdd rd rs1 rs2 => pack 0x33 rd rs1 rs2 0 0 0 0
  | .riNew rd rs1 rs2 rs3 => pack 0x40 rd rs1 rs2 rs3 0 0 0
  | .riAdd rd rs1 rs2 => pack 0x41 rd rs1 rs2 0 0 0 0
  | .riValue rd rs1 => pack 0x42 rd rs1 0 0 0 0 0
  | .riBias rd rs1 => pack 0x43 rd rs1 0 0 0 0 0
  | .riWidth rd rs1 => pack 0x44 rd rs1 0 0 0 0 0
  | .mbNew rd rs1 rs2 rs3 => pack 0x50 rd rs1 rs2 rs3 0 0 0
  | .mbExtract rd rs1 high low => pack 0x51 rd rs1 0 0 high low 0
  | .mbFixed rd rs1 => pack 0x52 rd rs1 0 0 0 0 0
  | .mbEq rd rs1 rs2 => pack 0x53 rd rs1 rs2 0 0 0 0

end Sys2Proof
end

