-- ==== Sys2Proof/Machine/State.lean ====
section
/-! DEFINITION. The machine's state, all of it (R23, R32, R48), its reset, and the reasons a step can stop. -/

namespace Sys2Proof.Machine

/-- A tagged value (R24). Payloads and widths are the integers the rules speak of; which of them a slot may hold
is `Value.wf` (Safety.lean). -/
inductive Value where
  /-- `EMPTY`: no value. -/
  | empty
  /-- `NAT(w, v)`: the non-negative integer `v` in `w` bits (R82). -/
  | nat (w v : Nat)
  /-- `NEG(w, m)`: the integer `−m` (R125). -/
  | neg (w m : Nat)
  /-- `BITS(w, v)`: a vector of `w` bits (R105). -/
  | bits (w v : Nat)
  /-- `RANGED(lo, hi, s)`: the value `lo + s` between the bounds `lo` and `hi` (R131). -/
  | ranged (lo hi : Int) (s : Nat)
  /-- `MASKED(w, mask, val, bits)`: runtime bits under a mask of known bits (R140). -/
  | masked (w mask val bits : Nat)
deriving DecidableEq, Repr, Inhabited

/-- The causes an error records (R149). -/
inductive Cause where
  | illegalOpcode
  | reservedField
  | emptySlot
  | kind
  | widthContract
  | widthLimit
  | bounds
  | range
  | succOverflow
  | zeroInvariant
deriving DecidableEq, Repr

/-- The two kinds of event a command raises (R148). -/
inductive Raised where
  /-- `raise Error(c)`: recoverable, the unit goes on (R150). -/
  | error (c : Cause)
  /-- `raise Fatal(c)`: the unit halts (R151). -/
  | fatal (c : Cause)
deriving DecidableEq, Repr

/-- The fields of the 64-bit STATUS register (R33). Its reserved bits are hard-wired 0 (R34) and so have no field;
the register as the host reads it is `statusWord` (Flags.lean). -/
structure Status where
  /-- HALTED, bit 0. -/
  halted : Bool
  /-- ERR, bit 1. -/
  err : Bool
  /-- FATAL, bit 2. -/
  fatal : Bool
  /-- CAUSE, bits 11:4. -/
  cause : BitVec 8
  /-- ERRCNT, bits 31:16. -/
  errCnt : BitVec 16
  /-- ERRSEQ, bits 63:32. -/
  errSeq : BitVec 32
deriving DecidableEq, Repr

/-- The whole state of the unit (R48: "There is no other state"). -/
structure State where
  /-- The value slots `x0` to `x15` (R23). -/
  slots : Vector Value 16
  /-- The STATUS register (R33). -/
  status : Status
  /-- SEQ, the command counter and program counter (R35). -/
  seq : BitVec 32
  /-- The command queue, head first (R36). -/
  queue : List Command
deriving DecidableEq, Repr

/-- Why the unit has no step (R37). Both are raised by `step` alone, never by a command's meaning. -/
inductive Fault where
  /-- The unit has halted at a HALT (R79) and takes no step until reset. Raised by `step` on HALTED = 1, FATAL = 0.
  Safe: the hardware takes no step there either. -/
  | halted
  /-- The unit has halted at a fatal error (R151: such a run "has ended in a fault, not at a HALT"). Raised by
  `step` on HALTED = 1, FATAL = 1. Safe: the hardware takes no step there either. -/
  | fatalHalted
deriving DecidableEq, Repr

/-- Why an instruction is refused. -/
inductive Refusal where
  /-- The instruction has no meaning in the model yet. Raised by `exec`'s refused arms, of which there are none
  now. Safe: nothing is claimed of a refused step. -/
  | notModelled (mnemonic : String)
deriving DecidableEq, Repr

/-- STATUS with every field 0 (R48). -/
def Status.reset : Status :=
  { halted := false, err := false, fatal := false, cause := 0, errCnt := 0, errSeq := 0 }

/-- The machine after reset: every slot EMPTY, STATUS 0, SEQ 0, the queue empty (R48, R163). -/
def State.reset : State :=
  { slots := Vector.replicate 16 .empty, status := Status.reset, seq := 0, queue := [] }

end Sys2Proof.Machine
end

