-- ==== Sys2Proof/Machine/Arith.lean ====
section
/-! DEFINITION. The arithmetic the rules are written in: bit size, slices, concatenation, extension, truncation,
limbs (R8 to R13, R28, R29). All values are integers; a width is a natural number (R8). -/

namespace Sys2Proof.Machine

/-- `L(w) = (w + 63) div 64`, the number of limbs of a `w`-bit value (R8). -/
def limbCount (w : Nat) : Nat := (w + 63) / 64

/-- `bit_size(v)`: the number of bits up to and including the highest set bit, 0 for 0 (R12). -/
def bitSize (v : Nat) : Nat := if v = 0 then 0 else Nat.log2 v + 1

/-- `BW(z) = bit_size(|z|)`, the magnitude width of an integer (R12). -/
def magWidth (z : Int) : Nat := bitSize z.natAbs

/-- `rw(lo, hi) = bit_size(hi − lo + 1)`, the storage width of a RangedInt (R29). -/
def rangedWidth (lo hi : Int) : Nat := bitSize (hi - lo + 1).toNat

/-- `v[hi:lo] = (v div 2^lo) mod 2^(hi−lo+1)` (R9). -/
def slice (hi lo v : Nat) : Nat := v / 2 ^ lo % 2 ^ (hi - lo + 1)

/-- `{a, b}` for `b` of width `wb`: `a * 2^wb + b` (R10). -/
def concatVal (a wb b : Nat) : Nat := a * 2 ^ wb + b

/-- The sign bit of a width-`n` value, 0 at width 0 (R11). -/
def signBit (n v : Nat) : Nat := if 1 ≤ n then v / 2 ^ (n - 1) % 2 else 0

/-- `sext_T(v)` of a width-`n` value (R13). -/
def signExtend (t n v : Nat) : Nat := if signBit n v = 1 then v + (2 ^ t - 2 ^ n) else v

/-- `trunc_T(v)` (R13). -/
def truncate (t v : Nat) : Nat := v % 2 ^ t

/-- Bit `f` inverted (R116). -/
def flipBit (f v : Nat) : Nat := if v / 2 ^ f % 2 = 1 then v - 2 ^ f else v + 2 ^ f

/-- The limb image of a width-`w` payload: limb `i` is `p[64i+63 : 64i]`, least significant first (R28). -/
def limbs (w p : Nat) : List Word :=
  (List.range (limbCount w)).map fun i => BitVec.ofNat 64 (p / 2 ^ (64 * i))

/-- The natural number whose limbs, least significant first, are given (R9, R28). -/
def ofLimbs : List Word → Nat
  | [] => 0
  | x :: rest => x.toNat + 2 ^ 64 * ofLimbs rest

end Sys2Proof.Machine
end

