-- ==== Sys2Proof/Machine/Flags.lean ====
section
/-! DEFINITION. Comparison outcomes and the STATUS register. The unit has no flag or condition code (R45): a
comparison's outcome is a 2-bit Bits value, and what an error leaves behind stands in STATUS. -/

namespace Sys2Proof.Machine

/-- `ord(a, b)` (R15). -/
def ord (a b : Int) : Ordering := if a < b then .lt else if a = b then .eq else .gt

/-- `cmp2`: the outcome's 2-bit code (R15). -/
def compareCode : Ordering → Nat
  | .lt => 0b11
  | .eq => 0b00
  | .gt => 0b01

/-- The 8-bit cause code (R149). -/
def causeCode : Cause → BitVec 8
  | .illegalOpcode => 0x01
  | .reservedField => 0x02
  | .emptySlot => 0x03
  | .kind => 0x04
  | .widthContract => 0x05
  | .widthLimit => 0x06
  | .bounds => 0x07
  | .range => 0x08
  | .succOverflow => 0x09
  | .zeroInvariant => 0x0A

/-- ERRCNT after one more error: it saturates at 0xFFFF (R33, R152). -/
def countError (n : BitVec 16) : BitVec 16 := if n = 0xFFFF then 0xFFFF else n + 1

/-- Recording an error with cause `c` raised by the command numbered `seq` (R152). -/
def recordError (c : Cause) (fatal : Bool) (seq : BitVec 32) (st : Status) : Status where
  halted := st.halted
  err := true
  fatal := st.fatal
  cause := if st.err = false ∨ fatal = true then causeCode c else st.cause
  errCnt := countError st.errCnt
  errSeq := if st.err = false ∨ fatal = true then seq else st.errSeq

/-- STATUS as the 64-bit word the host reads, reserved bits 0 (R33, R34). -/
def statusWord (st : Status) : Word :=
  BitVec.ofNat 64 (st.halted.toNat + st.err.toNat * 2 ^ 1 + st.fatal.toNat * 2 ^ 2 + st.cause.toNat * 2 ^ 4
    + st.errCnt.toNat * 2 ^ 16 + st.errSeq.toNat * 2 ^ 32)

end Sys2Proof.Machine
end

