-- ==== Sys2Proof/Machine/Operands.lean ====
section
/-! DEFINITION. Reading operands: the accessors of a tagged value (R25, R26), reading a slot (R14), and the kind
checks of the instruction rules. -/

namespace Sys2Proof.Machine

/-- The kind code of a value (R25). -/
def kindCode : Value → Nat
  | .empty => 0
  | .nat _ _ => 1
  | .neg _ _ => 2
  | .bits _ _ => 3
  | .ranged _ _ _ => 4
  | .masked _ _ _ _ => 5

/-- `width(t)` (R26); 0 for EMPTY, as the slot image has it (R41). -/
def widthOf : Value → Nat
  | .empty => 0
  | .nat w _ => w
  | .neg w _ => w
  | .bits w _ => w
  | .ranged lo hi _ => rangedWidth lo hi
  | .masked w _ _ _ => w

/-- `val(t)`: the integer a value stands for; MASKED and EMPTY have none (R26). -/
def valOf : Value → Option Int
  | .empty => none
  | .nat _ v => some v
  | .neg _ m => some (-(m : Int))
  | .bits _ v => some v
  | .ranged lo _ s => some (lo + s)
  | .masked _ _ _ _ => none

/-- `require cond else c` (R14). -/
def require (cond : Prop) [Decidable cond] (c : Cause) : Except Raised Unit :=
  if cond then .ok () else .error (.error c)

/-- The content of a slot, EMPTY included. -/
def State.slot (s : State) (r : Slot) : Value := s.slots[r]

/-- `x[i]`: reading a slot; an EMPTY one raises E_EMPTY_SLOT (R14, R24). -/
def readSlot (s : State) (r : Slot) : Except Raised Value :=
  match s.slot r with
  | .empty => .error (.error .emptySlot)
  | v => .ok v

/-- The width and the payload of a NAT or BITS operand. -/
structure Sized where
  width : Nat
  value : Nat
deriving DecidableEq, Repr

/-- The bounds and the storage of a RANGED operand. -/
structure RangedParts where
  lo : Int
  hi : Int
  s : Nat
deriving DecidableEq, Repr

/-- The parts of a MASKED operand. -/
structure MaskedParts where
  w : Nat
  mask : Nat
  val : Nat
  bits : Nat
deriving DecidableEq, Repr

/-- `require kind(t) = NAT else E_KIND` (R82). -/
def asNat : Value → Except Raised Sized
  | .nat w v => .ok ⟨w, v⟩
  | _ => .error (.error .kind)

/-- `require kind(t) = BITS else E_KIND` (R105). -/
def asBits : Value → Except Raised Sized
  | .bits w v => .ok ⟨w, v⟩
  | _ => .error (.error .kind)

/-- `require kind(t) in {NAT, NEG} else E_KIND`, and the operand's integer (R26, R128, R133). -/
def asSigned : Value → Except Raised Int
  | .nat _ v => .ok v
  | .neg _ m => .ok (-(m : Int))
  | _ => .error (.error .kind)

/-- `require kind(t) in {NAT, BITS} else E_KIND`, and the operand's value (R26, R144). -/
def asNatural : Value → Except Raised Nat
  | .nat _ v => .ok v
  | .bits _ v => .ok v
  | _ => .error (.error .kind)

/-- `require kind(t) = RANGED else E_KIND` (R134 to R137). -/
def asRanged : Value → Except Raised RangedParts
  | .ranged lo hi s => .ok ⟨lo, hi, s⟩
  | _ => .error (.error .kind)

/-- `require kind(t) = MASKED else E_KIND` (R142 to R144). -/
def asMasked : Value → Except Raised MaskedParts
  | .masked w mask val bits => .ok ⟨w, mask, val, bits⟩
  | _ => .error (.error .kind)

end Sys2Proof.Machine
end

