-- ==== Sys2Proof/Machine/Ops.lean ====
section
/-! DEFINITION. The shared operations of a step: writing a slot, advancing SEQ, taking an error, and finishing a
command with its one outcome (R38). -/

namespace Sys2Proof.Machine

/-- `x[i] <- v` (R14, R31). -/
def writeSlot (rd : Slot) (v : Value) (s : State) : State := { s with slots := s.slots.set rd v }

/-- `seq <- (seq + 1) mod 2^32` (R35). -/
def advanceSeq (s : State) : State := { s with seq := s.seq + 1 }

/-- Taking an error, the unit's only exception (R148): no slot is written; STATUS records the cause and the number
of the command (R150, R152); a fatal error also sets FATAL and HALTED (R151). SEQ advances when the command is
finished. There is no handler and so no return from one (R157). -/
def takeError (r : Raised) (s : State) : State :=
  match r with
  | .error c => { s with status := recordError c false s.seq s.status }
  | .fatal c => { s with status := { recordError c true s.seq s.status with fatal := true, halted := true } }

/-- The end of a command that computes a value for `rd`: the value is written, or the error it raised is taken;
then SEQ advances (R38). -/
def finish (rd : Slot) (result : Except Raised Value) (s : State) : State :=
  match result with
  | .ok v => advanceSeq (writeSlot rd v s)
  | .error r => advanceSeq (takeError r s)

/-- A command the decoder rejects: the error is taken and SEQ advances (R66, R68, R38). -/
def finishRejected (c : Cause) (s : State) : State := advanceSeq (takeError (.error c) s)

/-- The result of an operation on one source slot. -/
def onOne (s : State) (a : Slot) (op : Value → Except Raised Value) : Except Raised Value := do
  let x ← readSlot s a
  op x

/-- The result of an operation on two source slots; both are read, in order, before any other check (R154). -/
def onTwo (s : State) (a b : Slot) (op : Value → Value → Except Raised Value) : Except Raised Value := do
  let x ← readSlot s a
  let y ← readSlot s b
  op x y

/-- The result of an operation on three source slots, all read in order before any other check (R154). -/
def onThree (s : State) (a b c : Slot) (op : Value → Value → Value → Except Raised Value) :
    Except Raised Value := do
  let x ← readSlot s a
  let y ← readSlot s b
  let z ← readSlot s c
  op x y z

/-- The successor of a `w`-bit value: the width grows by 1 exactly when the top limb is full (width 0 counts as
full), and a successor that does not fit raises E_SUCC_OVERFLOW (R84, R114). -/
def successor (cfg : Config) (a : Sized) : Except Raised Sized := do
  let w := if a.width % 64 = 0 then a.width + 1 else a.width
  require (w ≤ cfg.wmax) .widthLimit
  require (a.value + 1 < 2 ^ w) .succOverflow
  return ⟨w, a.value + 1⟩

/-- The sum of two payloads at width `max(N, M) + 1` (R85, R86, R117). -/
def sum (cfg : Config) (a b : Sized) : Except Raised Sized := do
  let w := max a.width b.width + 1
  require (w ≤ cfg.wmax) .widthLimit
  return ⟨w, a.value + b.value⟩

/-- The concatenation of two payloads, the first most significant (R96, R107). -/
def concat (cfg : Config) (a b : Sized) : Except Raised Sized := do
  let w := a.width + b.width
  require (w ≤ cfg.wmax) .widthLimit
  return ⟨w, concatVal a.value b.width b.value⟩

/-- A shift right by `k`: the width shrinks by `k`, saturating at 0 (R94, R108). -/
def shiftRight (k : Nat) (a : Sized) : Sized := ⟨a.width - k, a.value / 2 ^ k⟩

/-- A construction of width `w` from the 64-bit immediate, masked to the width (R83, R106). -/
def construct (cfg : Config) (w imm : Nat) : Except Raised Sized := do
  require (w ≤ cfg.wmax) .widthLimit
  return ⟨w, imm % 2 ^ w⟩

/-- `u − m` at width `w`: a NAT when `u ≥ m`, else the NEG of `m − u` (R89, R129). -/
def difference (w u m : Nat) : Value := if u ≥ m then .nat w (u - m) else .neg w (m - u)

/-- The 2-bit outcome of comparing two integers (R15). -/
def compareResult (a b : Int) : Value := .bits 2 (compareCode (ord a b))

end Sys2Proof.Machine
end

