-- ==== Sys2Proof/Machine/BitsFamily.lean ====
section
/-! DEFINITION. The Bits family (R105 to R119): each operation as a function of its operand values, and the
meaning of each command over it. -/

namespace Sys2Proof.Machine

/-- BITS.LI (R106). -/
def bitsLi (cfg : Config) (w imm : Nat) : Except Raised Value := do
  let r ← construct cfg w imm
  return .bits r.width r.value

/-- BITS.CONCAT (R107). -/
def bitsConcat (cfg : Config) (x y : Value) : Except Raised Value := do
  let a ← asBits x
  let b ← asBits y
  let r ← concat cfg a b
  return .bits r.width r.value

/-- BITS.SHR (R108). -/
def bitsShr (k : Nat) (x : Value) : Except Raised Value := do
  let a ← asBits x
  return .bits (shiftRight k a).width (shiftRight k a).value

/-- BITS.EXTRACT: legal exactly when `low ≤ high < width` (R109). -/
def bitsExtract (high low : Nat) (x : Value) : Except Raised Value := do
  let a ← asBits x
  require (low ≤ high ∧ high < a.width) .widthContract
  return .bits (high - low + 1) (slice high low a.value)

/-- BITS.TRIM (R110). -/
def bitsTrim (t : Nat) (x : Value) : Except Raised Value := do
  let a ← asBits x
  require (t ≤ a.width) .widthContract
  return .bits t (truncate t a.value)

/-- BITS.ZEXT: the width contract is checked before the width limit (R111). -/
def bitsZext (cfg : Config) (t : Nat) (x : Value) : Except Raised Value := do
  let a ← asBits x
  require (t ≥ a.width) .widthContract
  require (t ≤ cfg.wmax) .widthLimit
  return .bits t a.value

/-- BITS.SEXT (R112). -/
def bitsSext (cfg : Config) (t : Nat) (x : Value) : Except Raised Value := do
  let a ← asBits x
  require (t ≥ a.width) .widthContract
  require (t ≤ cfg.wmax) .widthLimit
  return .bits t (signExtend t a.width a.value)

/-- BITS.NOT: every one of the N bits inverted (R113). -/
def bitsNot (x : Value) : Except Raised Value := do
  let a ← asBits x
  return .bits a.width (2 ^ a.width - 1 - a.value)

/-- BITS.SUCC (R114). -/
def bitsSucc (cfg : Config) (x : Value) : Except Raised Value := do
  let a ← asBits x
  let r ← successor cfg a
  return .bits r.width r.value

/-- BITS.CMP: the unsigned values, across widths (R115). -/
def bitsCmp (x y : Value) : Except Raised Value := do
  let a ← asBits x
  let b ← asBits y
  return compareResult a.value b.value

/-- BITS.FLIP: the width grows to `F + 1` when F is beyond the current width (R116). -/
def bitsFlip (cfg : Config) (f : Nat) (x : Value) : Except Raised Value := do
  let a ← asBits x
  require (max a.width (f + 1) ≤ cfg.wmax) .widthLimit
  return .bits (max a.width (f + 1)) (flipBit f a.value)

/-- BITS.ADD (R117). -/
def bitsAdd (cfg : Config) (x y : Value) : Except Raised Value := do
  let a ← asBits x
  let b ← asBits y
  let r ← sum cfg a b
  return .bits r.width r.value

/-- BITS.SIGN (R118). -/
def bitsSign (x : Value) : Except Raised Value := do
  let a ← asBits x
  return .bits 1 (signBit a.width a.value)

/-- BITS.TONAT: same width, same value (R119). -/
def bitsTonat (x : Value) : Except Raised Value := do
  let a ← asBits x
  return .nat a.width a.value

/-- BITS.LI in the build `cfg` (R106). -/
def execBitsLiIn (cfg : Config) (rd : Slot) (w imm : Nat) (s : State) : Host.Outcome State Fault Refusal :=
  .next (finish rd (bitsLi cfg w imm) s)

/-- BITS.LI (R106). -/
def execBitsLi (rd : Slot) (w imm : Nat) (s : State) : Host.Outcome State Fault Refusal :=
  execBitsLiIn Config.natUnit rd w imm s

/-- BITS.CONCAT in the build `cfg` (R107). -/
def execBitsConcatIn (cfg : Config) (rd rs1 rs2 : Slot) (s : State) : Host.Outcome State Fault Refusal :=
  .next (finish rd (onTwo s rs1 rs2 (bitsConcat cfg)) s)

/-- BITS.CONCAT (R107). -/
def execBitsConcat (rd rs1 rs2 : Slot) (s : State) : Host.Outcome State Fault Refusal :=
  execBitsConcatIn Config.natUnit rd rs1 rs2 s

/-- BITS.SHR (R108). -/
def execBitsShr (rd rs1 : Slot) (k : Nat) (s : State) : Host.Outcome State Fault Refusal :=
  .next (finish rd (onOne s rs1 (bitsShr k)) s)

/-- BITS.EXTRACT (R109). -/
def execBitsExtract (rd rs1 : Slot) (high low : Nat) (s : State) : Host.Outcome State Fault Refusal :=
  .next (finish rd (onOne s rs1 (bitsExtract high low)) s)

/-- BITS.TRIM (R110). -/
def execBitsTrim (rd rs1 : Slot) (t : Nat) (s : State) : Host.Outcome State Fault Refusal :=
  .next (finish rd (onOne s rs1 (bitsTrim t)) s)

/-- BITS.ZEXT in the build `cfg` (R111). -/
def execBitsZextIn (cfg : Config) (rd rs1 : Slot) (t : Nat) (s : State) : Host.Outcome State Fault Refusal :=
  .next (finish rd (onOne s rs1 (bitsZext cfg t)) s)

/-- BITS.ZEXT (R111). -/
def execBitsZext (rd rs1 : Slot) (t : Nat) (s : State) : Host.Outcome State Fault Refusal :=
  execBitsZextIn Config.natUnit rd rs1 t s

/-- BITS.SEXT in the build `cfg` (R112). -/
def execBitsSextIn (cfg : Config) (rd rs1 : Slot) (t : Nat) (s : State) : Host.Outcome State Fault Refusal :=
  .next (finish rd (onOne s rs1 (bitsSext cfg t)) s)

/-- BITS.SEXT (R112). -/
def execBitsSext (rd rs1 : Slot) (t : Nat) (s : State) : Host.Outcome State Fault Refusal :=
  execBitsSextIn Config.natUnit rd rs1 t s

/-- BITS.NOT (R113). -/
def execBitsNot (rd rs1 : Slot) (s : State) : Host.Outcome State Fault Refusal :=
  .next (finish rd (onOne s rs1 bitsNot) s)

/-- BITS.SUCC in the build `cfg` (R114). -/
def execBitsSuccIn (cfg : Config) (rd rs1 : Slot) (s : State) : Host.Outcome State Fault Refusal :=
  .next (finish rd (onOne s rs1 (bitsSucc cfg)) s)

/-- BITS.SUCC (R114). -/
def execBitsSucc (rd rs1 : Slot) (s : State) : Host.Outcome State Fault Refusal :=
  execBitsSuccIn Config.natUnit rd rs1 s

/-- BITS.CMP (R115). -/
def execBitsCmp (rd rs1 rs2 : Slot) (s : State) : Host.Outcome State Fault Refusal :=
  .next (finish rd (onTwo s rs1 rs2 bitsCmp) s)

/-- BITS.FLIP in the build `cfg` (R116). -/
def execBitsFlipIn (cfg : Config) (rd rs1 : Slot) (f : Nat) (s : State) : Host.Outcome State Fault Refusal :=
  .next (finish rd (onOne s rs1 (bitsFlip cfg f)) s)

/-- BITS.FLIP (R116). -/
def execBitsFlip (rd rs1 : Slot) (f : Nat) (s : State) : Host.Outcome State Fault Refusal :=
  execBitsFlipIn Config.natUnit rd rs1 f s

/-- BITS.ADD in the build `cfg` (R117). -/
def execBitsAddIn (cfg : Config) (rd rs1 rs2 : Slot) (s : State) : Host.Outcome State Fault Refusal :=
  .next (finish rd (onTwo s rs1 rs2 (bitsAdd cfg)) s)

/-- BITS.ADD (R117). -/
def execBitsAdd (rd rs1 rs2 : Slot) (s : State) : Host.Outcome State Fault Refusal :=
  execBitsAddIn Config.natUnit rd rs1 rs2 s

/-- BITS.SIGN (R118). -/
def execBitsSign (rd rs1 : Slot) (s : State) : Host.Outcome State Fault Refusal :=
  .next (finish rd (onOne s rs1 bitsSign) s)

/-- BITS.TONAT (R119). -/
def execBitsTonat (rd rs1 : Slot) (s : State) : Host.Outcome State Fault Refusal :=
  .next (finish rd (onOne s rs1 bitsTonat) s)

end Sys2Proof.Machine
end

