-- ==== Sys2Proof/Machine/MaskedFamily.lean ====
section
/-! DEFINITION. The MaskedBits family (R140 to R144): each operation as a function of its operand values, and the
meaning of each command over it. -/

namespace Sys2Proof.Machine

/-- `is_fixed()`: the mask covers the full width with all bits set; the empty mask does (R143). -/
def isFixed (a : MaskedParts) : Bool := decide (a.mask = 2 ^ a.w - 1)

/-- MB.NEW of the runtime bits `x`, the mask `y` and the known value `z`, stored as given (R141). -/
def mbNew (x y z : Value) : Except Raised Value := do
  let b ← asBits x
  let m ← asBits y
  let k ← asBits z
  require (m.width = b.width ∧ k.width = b.width) .widthContract
  return .masked b.width m.value k.value b.value

/-- MB.EXTRACT: the three vectors are sliced alike (R142). -/
def mbExtract (high low : Nat) (x : Value) : Except Raised Value := do
  let a ← asMasked x
  require (low ≤ high ∧ high < a.w) .widthContract
  return .masked (high - low + 1) (slice high low a.mask) (slice high low a.val) (slice high low a.bits)

/-- MB.FIXED (R143). -/
def mbFixed (x : Value) : Except Raised Value := do
  let a ← asMasked x
  return .bits 1 (isFixed a).toNat

/-- MB.EQ: from the known value alone when fixed, from the runtime bits when not (R144). -/
def mbEq (x y : Value) : Except Raised Value := do
  let a ← asMasked x
  let c ← asNatural y
  return .bits 1 (decide ((if isFixed a then a.val else a.bits) = c)).toNat

/-- MB.NEW (R141). -/
def execMbNew (rd rs1 rs2 rs3 : Slot) (s : State) : Host.Outcome State Fault Refusal :=
  .next (finish rd (onThree s rs1 rs2 rs3 mbNew) s)

/-- MB.EXTRACT (R142). -/
def execMbExtract (rd rs1 : Slot) (high low : Nat) (s : State) : Host.Outcome State Fault Refusal :=
  .next (finish rd (onOne s rs1 (mbExtract high low)) s)

/-- MB.FIXED (R143). -/
def execMbFixed (rd rs1 : Slot) (s : State) : Host.Outcome State Fault Refusal :=
  .next (finish rd (onOne s rs1 mbFixed) s)

/-- MB.EQ (R144). -/
def execMbEq (rd rs1 rs2 : Slot) (s : State) : Host.Outcome State Fault Refusal :=
  .next (finish rd (onTwo s rs1 rs2 mbEq) s)

end Sys2Proof.Machine
end

