-- ==== Sys2Proof/Machine/NatFamily.lean ====
section
/-! DEFINITION. The Nat family (R82 to R97): each operation as a function of its operand values, and the meaning
of each command over it. -/

namespace Sys2Proof.Machine

/-- NAT.LI (R83). -/
def natLi (cfg : Config) (w imm : Nat) : Except Raised Value := do
  let r ← construct cfg w imm
  return .nat r.width r.value

/-- NAT.SUCC (R84). -/
def natSucc (cfg : Config) (x : Value) : Except Raised Value := do
  let a ← asNat x
  let r ← successor cfg a
  return .nat r.width r.value

/-- NAT.ADD (R85, R86); no width elision (R88). -/
def natAdd (cfg : Config) (x y : Value) : Except Raised Value := do
  let a ← asNat x
  let b ← asNat y
  let r ← sum cfg a b
  return .nat r.width r.value

/-- NAT.SUB: a NAT when lhs ≥ rhs, else a NEG (R89, R90). -/
def natSub (x y : Value) : Except Raised Value := do
  let a ← asNat x
  let b ← asNat y
  return difference (max a.width b.width) a.value b.value

/-- NAT.SUBZ: the left operand is the caller-asserted zero; a non-zero subtrahend is fatal (R91). -/
def natSubz (x : Value) : Except Raised Value := do
  let b ← asNat x
  if b.value ≠ 0 then .error (.fatal .zeroInvariant) else return .nat b.width 0

/-- NAT.CMP, by value across widths (R92). -/
def natCmp (x y : Value) : Except Raised Value := do
  let a ← asNat x
  let b ← asNat y
  return compareResult a.value b.value

/-- NAT.SHL: the width grows by `k` (R93). -/
def natShl (cfg : Config) (k : Nat) (x : Value) : Except Raised Value := do
  let a ← asNat x
  require (a.width + k ≤ cfg.wmax) .widthLimit
  return .nat (a.width + k) (a.value * 2 ^ k)

/-- NAT.SHR (R94). -/
def natShr (k : Nat) (x : Value) : Except Raised Value := do
  let a ← asNat x
  return .nat (shiftRight k a).width (shiftRight k a).value

/-- NAT.BITSIZE, at width CNTW (R95). -/
def natBitsize (x : Value) : Except Raised Value := do
  let a ← asNat x
  return .nat cntw (bitSize a.value)

/-- NAT.CONCAT (R96). -/
def natConcat (cfg : Config) (x y : Value) : Except Raised Value := do
  let a ← asNat x
  let b ← asNat y
  let r ← concat cfg a b
  return .nat r.width r.value

/-- NAT.TOBITS: same width, same value (R97). -/
def natTobits (x : Value) : Except Raised Value := do
  let a ← asNat x
  return .bits a.width a.value

/-- NAT.LI in the build `cfg` (R83). -/
def execNatLiIn (cfg : Config) (rd : Slot) (w imm : Nat) (s : State) : Host.Outcome State Fault Refusal :=
  .next (finish rd (natLi cfg w imm) s)

/-- NAT.LI (R83). -/
def execNatLi (rd : Slot) (w imm : Nat) (s : State) : Host.Outcome State Fault Refusal :=
  execNatLiIn Config.natUnit rd w imm s

/-- NAT.SUCC in the build `cfg` (R84). -/
def execNatSuccIn (cfg : Config) (rd rs1 : Slot) (s : State) : Host.Outcome State Fault Refusal :=
  .next (finish rd (onOne s rs1 (natSucc cfg)) s)

/-- NAT.SUCC (R84). -/
def execNatSucc (rd rs1 : Slot) (s : State) : Host.Outcome State Fault Refusal :=
  execNatSuccIn Config.natUnit rd rs1 s

/-- NAT.ADD in the build `cfg` (R85). -/
def execNatAddIn (cfg : Config) (rd rs1 rs2 : Slot) (s : State) : Host.Outcome State Fault Refusal :=
  .next (finish rd (onTwo s rs1 rs2 (natAdd cfg)) s)

/-- NAT.ADD (R85). -/
def execNatAdd (rd rs1 rs2 : Slot) (s : State) : Host.Outcome State Fault Refusal :=
  execNatAddIn Config.natUnit rd rs1 rs2 s

/-- NAT.SUB (R89). -/
def execNatSub (rd rs1 rs2 : Slot) (s : State) : Host.Outcome State Fault Refusal :=
  .next (finish rd (onTwo s rs1 rs2 natSub) s)

/-- NAT.SUBZ (R91). -/
def execNatSubz (rd rs1 : Slot) (s : State) : Host.Outcome State Fault Refusal :=
  .next (finish rd (onOne s rs1 natSubz) s)

/-- NAT.CMP (R92). -/
def execNatCmp (rd rs1 rs2 : Slot) (s : State) : Host.Outcome State Fault Refusal :=
  .next (finish rd (onTwo s rs1 rs2 natCmp) s)

/-- NAT.SHL in the build `cfg` (R93). -/
def execNatShlIn (cfg : Config) (rd rs1 : Slot) (k : Nat) (s : State) : Host.Outcome State Fault Refusal :=
  .next (finish rd (onOne s rs1 (natShl cfg k)) s)

/-- NAT.SHL (R93). -/
def execNatShl (rd rs1 : Slot) (k : Nat) (s : State) : Host.Outcome State Fault Refusal :=
  execNatShlIn Config.natUnit rd rs1 k s

/-- NAT.SHR (R94). -/
def execNatShr (rd rs1 : Slot) (k : Nat) (s : State) : Host.Outcome State Fault Refusal :=
  .next (finish rd (onOne s rs1 (natShr k)) s)

/-- NAT.BITSIZE (R95). -/
def execNatBitsize (rd rs1 : Slot) (s : State) : Host.Outcome State Fault Refusal :=
  .next (finish rd (onOne s rs1 natBitsize) s)

/-- NAT.CONCAT in the build `cfg` (R96). -/
def execNatConcatIn (cfg : Config) (rd rs1 rs2 : Slot) (s : State) : Host.Outcome State Fault Refusal :=
  .next (finish rd (onTwo s rs1 rs2 (natConcat cfg)) s)

/-- NAT.CONCAT (R96). -/
def execNatConcat (rd rs1 rs2 : Slot) (s : State) : Host.Outcome State Fault Refusal :=
  execNatConcatIn Config.natUnit rd rs1 rs2 s

/-- NAT.TOBITS (R97). -/
def execNatTobits (rd rs1 : Slot) (s : State) : Host.Outcome State Fault Refusal :=
  .next (finish rd (onOne s rs1 natTobits) s)

end Sys2Proof.Machine
end

