-- ==== Sys2Proof/Machine/NegFamily.lean ====
section
/-! DEFINITION. The Neg family (R125 to R129): each operation as a function of its operand values, and the meaning
of each command over it. -/

namespace Sys2Proof.Machine

/-- NEG.NEGATE: the width is kept (R126). -/
def negNegate (x : Value) : Except Raised Value :=
  match x with
  | .nat w v => .ok (.neg w v)
  | .neg w m => .ok (.nat w m)
  | _ => .error (.error .kind)

/-- NEG.ABS (R127). -/
def negAbs (x : Value) : Except Raised Value :=
  match x with
  | .neg w m => .ok (.nat w m)
  | .nat w v => .ok (.nat w v)
  | _ => .error (.error .kind)

/-- NEG.CMP: signed values, any pair of NAT and NEG (R128). -/
def negCmp (x y : Value) : Except Raised Value := do
  let a ← asSigned x
  let b ← asSigned y
  return compareResult a b

/-- NEG.ADD: one NAT and one NEG in either order, with NAT.SUB's meaning and width (R129). -/
def negAdd (x y : Value) : Except Raised Value :=
  match x, y with
  | .nat n u, .neg m v => .ok (difference (max n m) u v)
  | .neg m v, .nat n u => .ok (difference (max n m) u v)
  | _, _ => .error (.error .kind)

/-- NEG.NEGATE (R126). -/
def execNegNegate (rd rs1 : Slot) (s : State) : Host.Outcome State Fault Refusal :=
  .next (finish rd (onOne s rs1 negNegate) s)

/-- NEG.ABS (R127). -/
def execNegAbs (rd rs1 : Slot) (s : State) : Host.Outcome State Fault Refusal :=
  .next (finish rd (onOne s rs1 negAbs) s)

/-- NEG.CMP (R128). -/
def execNegCmp (rd rs1 rs2 : Slot) (s : State) : Host.Outcome State Fault Refusal :=
  .next (finish rd (onTwo s rs1 rs2 negCmp) s)

/-- NEG.ADD (R129). -/
def execNegAdd (rd rs1 rs2 : Slot) (s : State) : Host.Outcome State Fault Refusal :=
  .next (finish rd (onTwo s rs1 rs2 negAdd) s)

end Sys2Proof.Machine
end

