-- ==== Sys2Proof/Machine/RangedFamily.lean ====
section
/-! DEFINITION. The RangedInt family (R131 to R137): each operation as a function of its operand values, and the
meaning of each command over it. -/

namespace Sys2Proof.Machine

/-- How an out-of-range construction ends: recoverable, fatal under DEBUG_ABORT (R133, R153). -/
def rangeRaised (cfg : Config) : Raised := if cfg.debugAbort then .fatal .range else .error .range

/-- RI.NEW of the value `x` with the bounds `mn` and `mx` (R133). -/
def riNew (cfg : Config) (x mn mx : Value) : Except Raised Value := do
  let v ← asSigned x
  let lo ← asSigned mn
  let hi ← asSigned mx
  require (lo ≤ hi) .bounds
  require (rangedWidth lo hi ≤ cfg.wmax) .widthLimit
  if lo ≤ v ∧ v ≤ hi then return .ranged lo hi (v - lo).toNat else .error (rangeRaised cfg)

/-- RI.ADD: the bounds and the storages are summed, the width follows from the new interval (R134). -/
def riAdd (cfg : Config) (x y : Value) : Except Raised Value := do
  let a ← asRanged x
  let b ← asRanged y
  let lo := a.lo + b.lo
  let hi := a.hi + b.hi
  require (magWidth lo ≤ cfg.wmax ∧ magWidth hi ≤ cfg.wmax ∧ rangedWidth lo hi ≤ cfg.wmax) .widthLimit
  return .ranged lo hi (a.s + b.s)

/-- RI.VALUE: the value as a NAT or a NEG of width `max(BW(lo), BW(hi))` (R135). -/
def riValue (x : Value) : Except Raised Value := do
  let a ← asRanged x
  let v := a.lo + a.s
  let w := max (magWidth a.lo) (magWidth a.hi)
  return if v ≥ 0 then .nat w v.toNat else .neg w (-v).toNat

/-- RI.BIAS: the biased storage (R136). -/
def riBias (x : Value) : Except Raised Value := do
  let a ← asRanged x
  return .nat (rangedWidth a.lo a.hi) a.s

/-- RI.WIDTH: the storage width, at width CNTW (R137). -/
def riWidth (x : Value) : Except Raised Value := do
  let a ← asRanged x
  return .nat cntw (rangedWidth a.lo a.hi)

/-- RI.NEW in the build `cfg` (R133). -/
def execRiNewIn (cfg : Config) (rd rs1 rs2 rs3 : Slot) (s : State) : Host.Outcome State Fault Refusal :=
  .next (finish rd (onThree s rs1 rs2 rs3 (riNew cfg)) s)

/-- RI.NEW (R133). -/
def execRiNew (rd rs1 rs2 rs3 : Slot) (s : State) : Host.Outcome State Fault Refusal :=
  execRiNewIn Config.natUnit rd rs1 rs2 rs3 s

/-- RI.ADD in the build `cfg` (R134). -/
def execRiAddIn (cfg : Config) (rd rs1 rs2 : Slot) (s : State) : Host.Outcome State Fault Refusal :=
  .next (finish rd (onTwo s rs1 rs2 (riAdd cfg)) s)

/-- RI.ADD (R134). -/
def execRiAdd (rd rs1 rs2 : Slot) (s : State) : Host.Outcome State Fault Refusal :=
  execRiAddIn Config.natUnit rd rs1 rs2 s

/-- RI.VALUE (R135). -/
def execRiValue (rd rs1 : Slot) (s : State) : Host.Outcome State Fault Refusal :=
  .next (finish rd (onOne s rs1 riValue) s)

/-- RI.BIAS (R136). -/
def execRiBias (rd rs1 : Slot) (s : State) : Host.Outcome State Fault Refusal :=
  .next (finish rd (onOne s rs1 riBias) s)

/-- RI.WIDTH (R137). -/
def execRiWidth (rd rs1 : Slot) (s : State) : Host.Outcome State Fault Refusal :=
  .next (finish rd (onOne s rs1 riWidth) s)

end Sys2Proof.Machine
end

