-- ==== Sys2Proof/Machine/Sequencer.lean ====
section
/-! DEFINITION. The sequencer commands (R78 to R81). -/

namespace Sys2Proof.Machine

/-- NOP: only SEQ advances (R78). -/
def execNop (s : State) : Host.Outcome State Fault Refusal := .next (advanceSeq s)

/-- HALT: `STATUS.HALTED <- 1`, no other field of STATUS changes (R79). -/
def execHalt (s : State) : Host.Outcome State Fault Refusal :=
  .next (advanceSeq { s with status := { s.status with halted := true } })

/-- MOV: the value is copied whole (R80). -/
def execMov (rd rs1 : Slot) (s : State) : Host.Outcome State Fault Refusal :=
  .next (finish rd (onOne s rs1 fun t => .ok t) s)

/-- CLR: `x[rd] <- EMPTY`; no slot is read (R81). -/
def execClr (rd : Slot) (s : State) : Host.Outcome State Fault Refusal := .next (finish rd (.ok .empty) s)

end Sys2Proof.Machine
end

