-- ==== Sys2Proof/Machine/Build.lean ====
section
/-! DEFINITION. The instructions of any build of the unit: R7's parameters are an argument. The hardware's own `exec`
(Dispatch.lean) is this at `Config.natUnit`, a law in Laws/Step.lean. -/

namespace Sys2Proof.Machine

/-- The outcome of an instruction in the build `cfg` (R7). An instruction whose rule reads neither WMAX nor
DEBUG_ABORT is the same in every build. -/
def execIn (cfg : Config) (i : Instr) (s : State) : Host.Outcome State Fault Refusal :=
  match i with
  | .nop => execNop s
  | .halt => execHalt s
  | .mov rd rs1 => execMov rd rs1 s
  | .clr rd => execClr rd s
  | .natLi rd w imm => execNatLiIn cfg rd w imm s
  | .natSucc rd rs1 => execNatSuccIn cfg rd rs1 s
  | .natAdd rd rs1 rs2 => execNatAddIn cfg rd rs1 rs2 s
  | .natSub rd rs1 rs2 => execNatSub rd rs1 rs2 s
  | .natSubz rd rs1 => execNatSubz rd rs1 s
  | .natCmp rd rs1 rs2 => execNatCmp rd rs1 rs2 s
  | .natShl rd rs1 k => execNatShlIn cfg rd rs1 k s
  | .natShr rd rs1 k => execNatShr rd rs1 k s
  | .natBitsize rd rs1 => execNatBitsize rd rs1 s
  | .natConcat rd rs1 rs2 => execNatConcatIn cfg rd rs1 rs2 s
  | .natTobits rd rs1 => execNatTobits rd rs1 s
  | .bitsLi rd w imm => execBitsLiIn cfg rd w imm s
  | .bitsConcat rd rs1 rs2 => execBitsConcatIn cfg rd rs1 rs2 s
  | .bitsShr rd rs1 k => execBitsShr rd rs1 k s
  | .bitsExtract rd rs1 high low => execBitsExtract rd rs1 high low s
  | .bitsTrim rd rs1 t => execBitsTrim rd rs1 t s
  | .bitsZext rd rs1 t => execBitsZextIn cfg rd rs1 t s
  | .bitsSext rd rs1 t => execBitsSextIn cfg rd rs1 t s
  | .bitsNot rd rs1 => execBitsNot rd rs1 s
  | .bitsSucc rd rs1 => execBitsSuccIn cfg rd rs1 s
  | .bitsCmp rd rs1 rs2 => execBitsCmp rd rs1 rs2 s
  | .bitsFlip rd rs1 f => execBitsFlipIn cfg rd rs1 f s
  | .bitsAdd rd rs1 rs2 => execBitsAddIn cfg rd rs1 rs2 s
  | .bitsSign rd rs1 => execBitsSign rd rs1 s
  | .bitsTonat rd rs1 => execBitsTonat rd rs1 s
  | .negNegate rd rs1 => execNegNegate rd rs1 s
  | .negAbs rd rs1 => execNegAbs rd rs1 s
  | .negCmp rd rs1 rs2 => execNegCmp rd rs1 rs2 s
  | .negAdd rd rs1 rs2 => execNegAdd rd rs1 rs2 s
  | .riNew rd rs1 rs2 rs3 => execRiNewIn cfg rd rs1 rs2 rs3 s
  | .riAdd rd rs1 rs2 => execRiAddIn cfg rd rs1 rs2 s
  | .riValue rd rs1 => execRiValue rd rs1 s
  | .riBias rd rs1 => execRiBias rd rs1 s
  | .riWidth rd rs1 => execRiWidth rd rs1 s
  | .mbNew rd rs1 rs2 rs3 => execMbNew rd rs1 rs2 rs3 s
  | .mbExtract rd rs1 high low => execMbExtract rd rs1 high low s
  | .mbFixed rd rs1 => execMbFixed rd rs1 s
  | .mbEq rd rs1 rs2 => execMbEq rd rs1 rs2 s

end Sys2Proof.Machine
end

