-- ==== Sys2Proof/Machine/Dispatch.lean ====
section
/-! DEFINITION. One arm per instruction: the meaning it calls. -/

namespace Sys2Proof.Machine

def exec (i : Instr) (s : State) : Host.Outcome State Fault Refusal :=
  match i with
  | .nop => Sys2Proof.Machine.execNop s
  | .halt => Sys2Proof.Machine.execHalt s
  | .mov rd rs1 => Sys2Proof.Machine.execMov rd rs1 s
  | .clr rd => Sys2Proof.Machine.execClr rd s
  | .natLi rd w imm => Sys2Proof.Machine.execNatLi rd w imm s
  | .natSucc rd rs1 => Sys2Proof.Machine.execNatSucc rd rs1 s
  | .natAdd rd rs1 rs2 => Sys2Proof.Machine.execNatAdd rd rs1 rs2 s
  | .natSub rd rs1 rs2 => Sys2Proof.Machine.execNatSub rd rs1 rs2 s
  | .natSubz rd rs1 => Sys2Proof.Machine.execNatSubz rd rs1 s
  | .natCmp rd rs1 rs2 => Sys2Proof.Machine.execNatCmp rd rs1 rs2 s
  | .natShl rd rs1 k => Sys2Proof.Machine.execNatShl rd rs1 k s
  | .natShr rd rs1 k => Sys2Proof.Machine.execNatShr rd rs1 k s
  | .natBitsize rd rs1 => Sys2Proof.Machine.execNatBitsize rd rs1 s
  | .natConcat rd rs1 rs2 => Sys2Proof.Machine.execNatConcat rd rs1 rs2 s
  | .natTobits rd rs1 => Sys2Proof.Machine.execNatTobits rd rs1 s
  | .bitsLi rd w imm => Sys2Proof.Machine.execBitsLi rd w imm s
  | .bitsConcat rd rs1 rs2 => Sys2Proof.Machine.execBitsConcat rd rs1 rs2 s
  | .bitsShr rd rs1 k => Sys2Proof.Machine.execBitsShr rd rs1 k s
  | .bitsExtract rd rs1 high low => Sys2Proof.Machine.execBitsExtract rd rs1 high low s
  | .bitsTrim rd rs1 t => Sys2Proof.Machine.execBitsTrim rd rs1 t s
  | .bitsZext rd rs1 t => Sys2Proof.Machine.execBitsZext rd rs1 t s
  | .bitsSext rd rs1 t => Sys2Proof.Machine.execBitsSext rd rs1 t s
  | .bitsNot rd rs1 => Sys2Proof.Machine.execBitsNot rd rs1 s
  | .bitsSucc rd rs1 => Sys2Proof.Machine.execBitsSucc rd rs1 s
  | .bitsCmp rd rs1 rs2 => Sys2Proof.Machine.execBitsCmp rd rs1 rs2 s
  | .bitsFlip rd rs1 f => Sys2Proof.Machine.execBitsFlip rd rs1 f s
  | .bitsAdd rd rs1 rs2 => Sys2Proof.Machine.execBitsAdd rd rs1 rs2 s
  | .bitsSign rd rs1 => Sys2Proof.Machine.execBitsSign rd rs1 s
  | .bitsTonat rd rs1 => Sys2Proof.Machine.execBitsTonat rd rs1 s
  | .negNegate rd rs1 => Sys2Proof.Machine.execNegNegate rd rs1 s
  | .negAbs rd rs1 => Sys2Proof.Machine.execNegAbs rd rs1 s
  | .negCmp rd rs1 rs2 => Sys2Proof.Machine.execNegCmp rd rs1 rs2 s
  | .negAdd rd rs1 rs2 => Sys2Proof.Machine.execNegAdd rd rs1 rs2 s
  | .riNew rd rs1 rs2 rs3 => Sys2Proof.Machine.execRiNew rd rs1 rs2 rs3 s
  | .riAdd rd rs1 rs2 => Sys2Proof.Machine.execRiAdd rd rs1 rs2 s
  | .riValue rd rs1 => Sys2Proof.Machine.execRiValue rd rs1 s
  | .riBias rd rs1 => Sys2Proof.Machine.execRiBias rd rs1 s
  | .riWidth rd rs1 => Sys2Proof.Machine.execRiWidth rd rs1 s
  | .mbNew rd rs1 rs2 rs3 => Sys2Proof.Machine.execMbNew rd rs1 rs2 rs3 s
  | .mbExtract rd rs1 high low => Sys2Proof.Machine.execMbExtract rd rs1 high low s
  | .mbFixed rd rs1 => Sys2Proof.Machine.execMbFixed rd rs1 s
  | .mbEq rd rs1 rs2 => Sys2Proof.Machine.execMbEq rd rs1 rs2 s

end Sys2Proof.Machine
end

