-- ==== Sys2Proof/Machine/Unit.lean ====
section
/-! DEFINITION. One step of the unit (R37, R38), for this hardware and for any build of it (R7), and placing a command
where the next step takes it. -/

namespace Sys2Proof.Machine

/-- The head command, already removed from the queue, is executed: decode checks first (R66, R68, R74), then the
command, as `run` says (R38). -/
def takeCommandWith (run : Instr → State → Host.Outcome State Fault Refusal) (c : Command) (s : State) :
    Host.Outcome State Fault Refusal :=
  match decode c with
  | .illegalOpcode => .next (finishRejected .illegalOpcode s)
  | .reservedField => .next (finishRejected .reservedField s)
  | .instr i => run i s

/-- One step, with instructions executed as `run` says. A halted unit has none (R37; DEDUCED, log entry 2). An idle
unit waits: its state stays as it is, since "idling is not the end of a run" (R37; DEDUCED, log entry 1). Otherwise
the head of the queue is removed and executed (R38). -/
def unitStepWith (run : Instr → State → Host.Outcome State Fault Refusal) (s : State) :
    Host.Outcome State Fault Refusal :=
  if s.status.halted then
    .fault (if s.status.fatal then .fatalHalted else .halted)
  else
    match s.queue with
    | [] => .next s
    | c :: rest => takeCommandWith run c { s with queue := rest }

/-- Taking a command on this hardware. -/
def takeCommand (c : Command) (s : State) : Host.Outcome State Fault Refusal := takeCommandWith exec c s

/-- One step of this hardware. -/
def unitStep (s : State) : Host.Outcome State Fault Refusal := unitStepWith exec s

/-- One step of the build `cfg` (R7): any WMAX, and DEBUG_ABORT 0 or 1. -/
def unitStepIn (cfg : Config) (s : State) : Host.Outcome State Fault Refusal := unitStepWith (execIn cfg) s

/-- The state with `c` as the command the next step takes: it replaces the head of the queue, and HALTED is 0 so that
the unit has a step. It stands for the host's push (R39; DESIGN CHOICE, log entry 4). -/
def placeCommand (c : Command) (s : State) : State :=
  { s with status := { s.status with halted := false }, queue := c :: s.queue.tail }

end Sys2Proof.Machine
end

