-- ==== Sys2Proof/Machine/Step.lean ====
section
/-! DEFINITION. The host's step and fetch word, over Unit.lean. -/

namespace Sys2Proof.Machine

/-- One step of the unit (R37, R38). -/
def step (s : State) : Host.Outcome State Fault Refusal := unitStep s

/-- The state with an opcode-table word as the command the next step takes (log entry 4). -/
def State.withFetchWord (s : State) (nbits w : Nat) : State := placeCommand (commandOfTableWord nbits w) s

end Sys2Proof.Machine
end

