-- ==== Sys2Proof/Machine/Assembler.lean ====
section
/-! DEFINITION. The assembler: one line of text to an instruction (R71), the pseudo-instructions (R73), and lines to
commands (R72). What R71 leaves open of the text (white space, upper or lower hexadecimal digits) is log entry 10. -/

namespace Sys2Proof.Machine

/-- The pseudo-instructions (R73). -/
inductive Pseudo where
  | natZero (rd : Slot)
  | natOne (rd : Slot)
  | bitsEmpty (rd : Slot)
  | bitsBit (rd rs1 : Slot) (i : Nat)
deriving DecidableEq, Repr

/-- The expansion of a pseudo-instruction (R73). -/
def expandPseudo : Pseudo → Instr
  | .natZero rd => .natLi rd 0 0
  | .natOne rd => .natLi rd 1 1
  | .bitsEmpty rd => .bitsLi rd 0 0
  | .bitsBit rd rs1 i => .bitsExtract rd rs1 i i

/-- An operand of a line: a slot `x0` to `x15`, or an unsigned number (R71). -/
inductive AsmOperand where
  | slot (r : Slot)
  | num (n : Nat)
deriving DecidableEq, Repr

/-- What a line holds. -/
inductive AsmLine where
  /-- Nothing but white space or a comment. -/
  | blank
  /-- An instruction (a pseudo-instruction expanded). -/
  | instr (i : Instr)
  /-- Not a line of R71's syntax. -/
  | bad
deriving DecidableEq, Repr

/-- A space or a tab. -/
def isBlankChar (c : Char) : Bool := c = ' ' || c = '\t'

/-- The text without leading and trailing white space. -/
def trimBlank (l : List Char) : List Char := ((l.dropWhile isBlankChar).reverse.dropWhile isBlankChar).reverse

/-- The parts of a text between separators. -/
def splitChar (sep : Char) : List Char → List (List Char)
  | [] => [[]]
  | c :: rest =>
    if c = sep then [] :: splitChar sep rest
    else
      match splitChar sep rest with
      | [] => [[c]]
      | part :: parts => (c :: part) :: parts

/-- The value of a digit in a base up to 16. -/
def digitValue (base : Nat) (c : Char) : Option Nat :=
  let d :=
    if '0' ≤ c ∧ c ≤ '9' then c.toNat - '0'.toNat
    else if 'a' ≤ c ∧ c ≤ 'f' then c.toNat - 'a'.toNat + 10
    else if 'A' ≤ c ∧ c ≤ 'F' then c.toNat - 'A'.toNat + 10
    else base
  if d < base then some d else none

/-- The value of a run of digits after the value `acc` of those before it. -/
def digitsValue (base : Nat) : Nat → List Char → Option Nat
  | acc, [] => some acc
  | acc, c :: rest =>
    match digitValue base c with
    | some d => digitsValue base (acc * base + d) rest
    | none => none

/-- A decimal or `0x` hexadecimal unsigned integer (R71). -/
def parseNumber : List Char → Option Nat
  | [] => none
  | '0' :: 'x' :: [] => none
  | '0' :: 'x' :: ds => digitsValue 16 0 ds
  | ds => digitsValue 10 0 ds

/-- One operand (R71). -/
def parseOperand (l : List Char) : Option AsmOperand :=
  match l with
  | 'x' :: d :: ds =>
    match digitsValue 10 0 (d :: ds) with
    | some n => if h : n < 16 then some (.slot ⟨n, h⟩) else none
    | none => none
  | l => (parseNumber l).map .num

/-- All the operands of a line, none if one is malformed. -/
def parseOperands : List (List Char) → Option (List AsmOperand)
  | [] => some []
  | l :: rest =>
    match parseOperand (trimBlank l), parseOperands rest with
    | some o, some os => some (o :: os)
    | _, _ => none

/-- The instruction a mnemonic and its operands name (R62, R67, R71, R73). -/
def instrOfAsm (mnemonic : String) (ops : List AsmOperand) : Option Instr :=
  match mnemonic, ops with
  | "NOP", [] => some .nop
  | "HALT", [] => some .halt
  | "MOV", [.slot d, .slot a] => some (.mov d a)
  | "CLR", [.slot d] => some (.clr d)
  | "NAT.LI", [.slot d, .num w, .num imm] => some (.natLi d w imm)
  | "NAT.SUCC", [.slot d, .slot a] => some (.natSucc d a)
  | "NAT.ADD", [.slot d, .slot a, .slot b] => some (.natAdd d a b)
  | "NAT.SUB", [.slot d, .slot a, .slot b] => some (.natSub d a b)
  | "NAT.SUBZ", [.slot d, .slot a] => some (.natSubz d a)
  | "NAT.CMP", [.slot d, .slot a, .slot b] => some (.natCmp d a b)
  | "NAT.SHL", [.slot d, .slot a, .num k] => some (.natShl d a k)
  | "NAT.SHR", [.slot d, .slot a, .num k] => some (.natShr d a k)
  | "NAT.BITSIZE", [.slot d, .slot a] => some (.natBitsize d a)
  | "NAT.CONCAT", [.slot d, .slot a, .slot b] => some (.natConcat d a b)
  | "NAT.TOBITS", [.slot d, .slot a] => some (.natTobits d a)
  | "BITS.LI", [.slot d, .num w, .num imm] => some (.bitsLi d w imm)
  | "BITS.CONCAT", [.slot d, .slot a, .slot b] => some (.bitsConcat d a b)
  | "BITS.SHR", [.slot d, .slot a, .num k] => some (.bitsShr d a k)
  | "BITS.EXTRACT", [.slot d, .slot a, .num high, .num low] => some (.bitsExtract d a high low)
  | "BITS.TRIM", [.slot d, .slot a, .num t] => some (.bitsTrim d a t)
  | "BITS.ZEXT", [.slot d, .slot a, .num t] => some (.bitsZext d a t)
  | "BITS.SEXT", [.slot d, .slot a, .num t] => some (.bitsSext d a t)
  | "BITS.NOT", [.slot d, .slot a] => some (.bitsNot d a)
  | "BITS.SUCC", [.slot d, .slot a] => some (.bitsSucc d a)
  | "BITS.CMP", [.slot d, .slot a, .slot b] => some (.bitsCmp d a b)
  | "BITS.FLIP", [.slot d, .slot a, .num f] => some (.bitsFlip d a f)
  | "BITS.ADD", [.slot d, .slot a, .slot b] => some (.bitsAdd d a b)
  | "BITS.SIGN", [.slot d, .slot a] => some (.bitsSign d a)
  | "BITS.TONAT", [.slot d, .slot a] => some (.bitsTonat d a)
  | "NEG.NEGATE", [.slot d, .slot a] => some (.negNegate d a)
  | "NEG.ABS", [.slot d, .slot a] => some (.negAbs d a)
  | "NEG.CMP", [.slot d, .slot a, .slot b] => some (.negCmp d a b)
  | "NEG.ADD", [.slot d, .slot a, .slot b] => some (.negAdd d a b)
  | "RI.NEW", [.slot d, .slot a, .slot b, .slot c] => some (.riNew d a b c)
  | "RI.ADD", [.slot d, .slot a, .slot b] => some (.riAdd d a b)
  | "RI.VALUE", [.slot d, .slot a] => some (.riValue d a)
  | "RI.BIAS", [.slot d, .slot a] => some (.riBias d a)
  | "RI.WIDTH", [.slot d, .slot a] => some (.riWidth d a)
  | "MB.NEW", [.slot d, .slot a, .slot b, .slot c] => some (.mbNew d a b c)
  | "MB.EXTRACT", [.slot d, .slot a, .num high, .num low] => some (.mbExtract d a high low)
  | "MB.FIXED", [.slot d, .slot a] => some (.mbFixed d a)
  | "MB.EQ", [.slot d, .slot a, .slot b] => some (.mbEq d a b)
  | "NAT.ZERO", [.slot d] => some (expandPseudo (.natZero d))
  | "NAT.ONE", [.slot d] => some (expandPseudo (.natOne d))
  | "BITS.EMPTY", [.slot d] => some (expandPseudo (.bitsEmpty d))
  | "BITS.BIT", [.slot d, .slot a, .num i] => some (expandPseudo (.bitsBit d a i))
  | _, _ => none

/-- One line of assembler text (R71). Its parameters must fit their fields. -/
def assembleLine (line : String) : AsmLine :=
  let text := trimBlank (line.toList.takeWhile fun c => c ≠ ';')
  let mnemonic := text.takeWhile fun c => !isBlankChar c
  let rest := trimBlank (text.dropWhile fun c => !isBlankChar c)
  if text.isEmpty then .blank
  else
    match parseOperands (if rest.isEmpty then [] else splitChar ',' rest) with
    | none => .bad
    | some ops =>
      match instrOfAsm (String.ofList mnemonic) ops with
      | none => .bad
      | some i => if i.wf then .instr i else .bad

/-- The commands of a text, one line each (R71, R72); none if a line is malformed. -/
def assemble : List String → Option (List Command)
  | [] => some []
  | line :: rest =>
    match assembleLine line, assemble rest with
    | .blank, some cs => some cs
    | .instr i, some cs => some (encode i :: cs)
    | _, _ => none

end Sys2Proof.Machine
end

