-- ==== Sys2Proof/Machine/Datapath.lean ====
section
/-! DEFINITION. The limb datapaths: how the source computes each value with 64-bit limbs (R100 to R104, R121 to
R124, R139). The value rules are normative (R19) and are what the meanings use; that a datapath gives the limb image
of the value its rule names is a statement for the provers. A limb that is absent reads as 0. -/

namespace Sys2Proof.Machine

/-- Limb `i` of a limb sequence as a number, 0 if absent. -/
def limbAt (a : List Word) (i : Nat) : Nat := (a.getD i 0).toNat

/-- The first `n` limbs given by a function of the index. -/
def buildLimbs (n : Nat) (f : Nat → Nat) : List Word := (List.range n).map fun i => BitVec.ofNat 64 (f i)

/-- A limb sequence cut to width `w`: `L(w)` limbs, the top limb's bits at and above `w mod 64` cleared (R28, R103,
R123). -/
def cutLimbs (w : Nat) (a : List Word) : List Word :=
  buildLimbs (limbCount w) fun i => limbAt a i % 2 ^ min 64 (w - 64 * i)

/-- The carry-propagate adder from limb `i` on, over `count` limbs, with carry-in `c`: the limbs and the carry out
(R100). -/
def addFrom (a b : List Word) : (count i c : Nat) → List Word × Nat
  | 0, _, c => ([], c)
  | count + 1, i, c =>
    let t := limbAt a i + limbAt b i + c
    let rest := addFrom a b count (i + 1) (if t ≥ 2 ^ 64 then 1 else 0)
    (BitVec.ofNat 64 (t % 2 ^ 64) :: rest.1, rest.2)

/-- The carry-propagate adder for operands of widths `n` and `m`: `L(max(n, m) + 1)` limbs and the final carry
(R100). -/
def addLimbs (n m : Nat) (a b : List Word) : List Word × Nat := addFrom a b (limbCount (max n m + 1)) 0 0

/-- One limb of the adder in the two-step form of R100: the wrapped sum and the carry out. -/
def addLimbTwoStep (x y : Word) (c : Bool) : Word × Bool :=
  let s1 := x + y
  let s2 := s1 + (if c then 1 else 0)
  (s2, decide (s1.toNat < x.toNat) || decide (s2.toNat < s1.toNat))

/-- The source's parenthetical overflow test on a wrapped sum with carry-in, which R100 and C3 say is not exact. -/
def naiveCarry (x y : Word) (c : Bool) : Bool :=
  let s := x + y + (if c then 1 else 0)
  decide (s.toNat < x.toNat) || decide (s.toNat < y.toNat)

/-- The borrow subtractor from limb `i` on, over `count` limbs, with borrow-in `br`: the limbs and the borrow out
(R101). -/
def subFrom (p q : List Word) : (count i br : Nat) → List Word × Nat
  | 0, _, br => ([], br)
  | count + 1, i, br =>
    let t : Int := (limbAt p i : Int) - limbAt q i - br
    let rest := subFrom p q count (i + 1) (if t < 0 then 1 else 0)
    (BitVec.ofInt 64 t :: rest.1, rest.2)

/-- The borrow subtractor at width `w` (R101). -/
def subLimbs (w : Nat) (p q : List Word) : List Word × Nat := subFrom p q (limbCount w) 0 0

/-- The magnitude comparator over the lowest `count` limbs, from the most significant down (R102). -/
def compareFrom (a b : List Word) : (count : Nat) → Ordering
  | 0 => .eq
  | i + 1 =>
    if limbAt a i < limbAt b i then .lt
    else if limbAt a i > limbAt b i then .gt
    else compareFrom a b i

/-- The magnitude comparator of two limb sequences (R102). -/
def compareLimbs (a b : List Word) : Ordering := compareFrom a b (max a.length b.length)

/-- Limb `i` of the whole-limb left move by `q` (R103). -/
def movedLeft (a : List Word) (q i : Nat) : Nat := if i < q then 0 else limbAt a (i - q)

/-- Limb `i` of the left shift by `k`: `q = k div 64` whole limbs, then the stitch by `k mod 64` (R103). -/
def shiftLeftLimb (a : List Word) (k i : Nat) : Nat :=
  if k % 64 = 0 then movedLeft a (k / 64) i
  else
    movedLeft a (k / 64) i * 2 ^ (k % 64) % 2 ^ 64
      + (if i = 0 then 0 else movedLeft a (k / 64) (i - 1) / 2 ^ (64 - k % 64))

/-- The left-shift pipeline with result width `w` (R103). -/
def shiftLeftLimbs (w k : Nat) (a : List Word) : List Word :=
  cutLimbs w (buildLimbs (limbCount w) (shiftLeftLimb a k))

/-- Limb `i` of the right shift by `k` (R103). -/
def shiftRightLimb (a : List Word) (k i : Nat) : Nat :=
  if k % 64 = 0 then limbAt a (i + k / 64)
  else limbAt a (i + k / 64) / 2 ^ (k % 64) + limbAt a (i + 1 + k / 64) * 2 ^ (64 - k % 64) % 2 ^ 64

/-- The right-shift pipeline with result width `w` (R103). -/
def shiftRightLimbs (w k : Nat) (a : List Word) : List Word :=
  cutLimbs w (buildLimbs (limbCount w) (shiftRightLimb a k))

/-- The zero bits above the highest set bit among the lowest `count` bits. -/
def leadingZeros (x : Word) : (count : Nat) → Nat
  | 0 => 0
  | i + 1 => if x.getLsbD i then 0 else leadingZeros x i + 1

/-- `clz64(x)` (R104). -/
def clz64 (x : Word) : Nat := leadingZeros x 64

/-- bit_size over the lowest `count` limbs, from the highest non-zero one (R104). -/
def bitSizeFrom (a : List Word) : (count : Nat) → Nat
  | 0 => 0
  | i + 1 => if limbAt a i ≠ 0 then 64 * i + (64 - clz64 (a.getD i 0)) else bitSizeFrom a i

/-- bit_size by the leading-zero count (R104). -/
def bitSizeLimbs (a : List Word) : Nat := bitSizeFrom a a.length

/-- Adding 1 with the carry cascading through limbs that wrap: the limbs and the carry out of the top (R104). -/
def incrementLimbs : List Word → List Word × Bool
  | [] => ([], true)
  | x :: rest =>
    if x.toNat = 2 ^ 64 - 1 then
      let r := incrementLimbs rest
      (0 :: r.1, r.2)
    else ((x + 1) :: rest, false)

/-- The successor of a width-`n` limb sequence: when `n` is a multiple of 64 there is a limb `L(n)`, 1 when the
carry leaves the top (R84, R104). -/
def successorLimbs (n : Nat) (a : List Word) : List Word :=
  if n % 64 = 0 then (incrementLimbs a).1 ++ [if (incrementLimbs a).2 then 1 else 0] else (incrementLimbs a).1

/-- Skipping whole limbs while `low ≥ 64`: what is left of the sequence and of `low` (R121). -/
def skipLimbs : List Word → Nat → List Word × Nat
  | [], low => ([], low)
  | x :: rest, low => if 64 ≤ low then skipLimbs rest (low - 64) else (x :: rest, low)

/-- The extract pipeline (R121). -/
def extractLimbs (high low : Nat) (a : List Word) : List Word :=
  shiftRightLimbs (high - low + 1) (skipLimbs a low).2 (skipLimbs a low).1

/-- The concat pipeline: `(a * 2^B) OR b` at width `wa + wb` (R122). -/
def concatLimbs (wa wb : Nat) (a b : List Word) : List Word :=
  (List.range (limbCount (wa + wb))).map fun i => (shiftLeftLimbs (wa + wb) wb a).getD i 0 ||| b.getD i 0

/-- Zero extension from width `n` to `t`: `L(t) − L(n)` zero limbs are appended (R123). -/
def zeroExtendLimbs (n t : Nat) (a : List Word) : List Word :=
  a ++ List.replicate (limbCount t - limbCount n) 0

/-- The bits of limb `i` from bit `n` up to bit `t − 1` of the vector (R123). -/
def fillLimb (n t i : Nat) : Word :=
  BitVec.ofNat 64 (2 ^ min 64 (t - 64 * i) - 2 ^ min 64 (n - 64 * i))

/-- Sign extension from width `n` to `t` (R123). -/
def signExtendLimbs (n t : Nat) (a : List Word) : List Word :=
  if 1 ≤ n ∧ (a.getD ((n - 1) / 64) 0).getLsbD ((n - 1) % 64) = true then
    (List.range (limbCount t)).map fun i => (zeroExtendLimbs n t a).getD i 0 ||| fillLimb n t i
  else zeroExtendLimbs n t a

/-- Trim to width `t`: limbs `L(t)` and up are dropped, the top limb is cut (R123). -/
def trimLimbs (t : Nat) (a : List Word) : List Word := cutLimbs t a

/-- Flip of bit `f` of a width-`n` vector: zero limbs are appended up to limb `f div 64`, then the bit is inverted
there (R124). -/
def flipLimbs (n f : Nat) (a : List Word) : List Word :=
  let padded := a ++ List.replicate (f / 64 + 1 - limbCount n) 0
  padded.set (f / 64) (padded.getD (f / 64) 0 ^^^ BitVec.ofNat 64 (2 ^ (f % 64)))

/-- RI.ADD's storage: the adder on the two storages, cut to the new width `w` (R139). -/
def rangedAddLimbs (wa wb w : Nat) (a b : List Word) : List Word := cutLimbs w (addLimbs wa wb a b).1

end Sys2Proof.Machine
end

