-- ==== Sys2Proof/Machine/HostPort.lean ====
section
/-! DEFINITION. The host interface: everything the host may do, always between two steps (R39 to R44). -/

namespace Sys2Proof.Machine

/-- Push one command at the tail; the host has no push while the queue is full (R39, R171). A push does not look at
HALTED. -/
def hostPush (cfg : Config) (c : Command) (s : State) : Option State :=
  if s.queue.length < cfg.cqDepth then some { s with queue := s.queue ++ [c] } else none

/-- The command that two transported words make: word 0, sent first, is bits 63:0, and word 1 is bits 127:64 (R51,
R59). -/
def commandOfWords (word0 word1 : Word) : Command := word1 ++ word0

/-- The two 64-bit words a command is transported as, word 0 first (R51, R59). -/
def commandWords (c : Command) : List Word := [c.extractLsb' 0 64, c.extractLsb' 64 64]

/-- A push as the host transports it: exactly the two words of one command, word 0 first (R51, R54). -/
def hostPushWords (cfg : Config) (ws : List Word) (s : State) : Option State :=
  match ws with
  | [word0, word1] => hostPush cfg (commandOfWords word0 word1) s
  | _ => none

/-- Reset, and power-on: every piece of state takes its reset value and queued commands are discarded (R43, R163,
R167). -/
def hostReset (_ : State) : State := State.reset

/-- The header word of a slot image (R41). -/
def imageHeader (v : Value) : Word :=
  match v with
  | .ranged lo hi _ =>
    BitVec.ofNat 64 (kindCode v + widthOf v * 2 ^ 8 + (decide (lo < 0)).toNat * 2 ^ 24
      + (decide (hi < 0)).toNat * 2 ^ 25 + magWidth lo * 2 ^ 32 + magWidth hi * 2 ^ 48)
  | .empty | .nat _ _ | .neg _ _ | .bits _ _ | .masked _ _ _ _ => BitVec.ofNat 64 (kindCode v + widthOf v * 2 ^ 8)

/-- The payload limbs of a slot image (R28, R41). -/
def imagePayload (v : Value) : List Word :=
  match v with
  | .empty => []
  | .nat w p => limbs w p
  | .neg w m => limbs w m
  | .bits w p => limbs w p
  | .ranged lo hi s =>
    limbs (magWidth lo) lo.natAbs ++ limbs (magWidth hi) hi.natAbs ++ limbs (rangedWidth lo hi) s
  | .masked w mask val bits => limbs w mask ++ limbs w val ++ limbs w bits

/-- The slot image of a value (R41). -/
def slotImage (v : Value) : List Word := imageHeader v :: imagePayload v

/-- Read slot (R40): the words of a slot's image. -/
def hostReadSlot (s : State) (r : Slot) : List Word := slotImage (s.slot r)

/-- Read STATUS (R42). -/
def hostReadStatus (s : State) : Word := statusWord s.status

/-- Read SEQ (R42), as a whole 64-bit word (R51) whose bits above SEQ's 32 are 0 (DEDUCED, log entry 12). -/
def hostReadSeq (s : State) : Word := s.seq.setWidth 64

/-- Read the number of commands in the queue (R42), as a whole 64-bit word (R51; DEDUCED, log entry 12). -/
def hostReadQueueCount (s : State) : Word := BitVec.ofNat 64 s.queue.length

/-- The unit has a step (R37). -/
def hasStep (s : State) : Bool := !s.status.halted && !s.queue.isEmpty

/-- The unit is idle: not halted, its queue empty (R37). -/
def isIdle (s : State) : Bool := !s.status.halted && s.queue.isEmpty

/-- What the host may do (R44: "exactly rules R39 to R43"). -/
inductive HostMove where
  /-- Push a command (R39). -/
  | push (c : Command)
  /-- Assert reset (R43). -/
  | reset
  /-- Read a slot image (R40). -/
  | readSlot (r : Slot)
  /-- Read STATUS, SEQ and the queue count (R42). -/
  | readStatus
deriving DecidableEq, Repr

/-- The state after a host move; none where the host has no such move (a push on a full queue). Reads change
nothing (R40, R42). -/
def hostMove (cfg : Config) (m : HostMove) (s : State) : Option State :=
  match m with
  | .push c => hostPush cfg c s
  | .reset => some (hostReset s)
  | .readSlot _ => some s
  | .readStatus => some s

end Sys2Proof.Machine
end

