-- ==== Sys2Proof/Safety.lean ====
section
/-! DEFINITION. What the claims speak of: which values, STATUS contents and states are legal, how a command's one
outcome (R38) shows in the state, and which states the unit and its host reach together. -/

namespace Sys2Proof.Machine

/-- The invariant of a tagged value (R24, R29, R30, R132). -/
def Value.wf (cfg : Config) : Value → Bool
  | .empty => true
  | .nat w v => decide (w ≤ cfg.wmax) && decide (v < 2 ^ w)
  | .neg w m => decide (w ≤ cfg.wmax) && decide (m < 2 ^ w)
  | .bits w v => decide (w ≤ cfg.wmax) && decide (v < 2 ^ w)
  | .ranged lo hi s =>
    decide (lo ≤ hi) && decide (magWidth lo ≤ cfg.wmax) && decide (magWidth hi ≤ cfg.wmax)
      && decide ((s : Int) ≤ hi - lo) && decide (rangedWidth lo hi ≤ cfg.wmax)
  | .masked w mask val rt =>
    decide (w ≤ cfg.wmax) && decide (mask < 2 ^ w) && decide (val < 2 ^ w) && decide (rt < 2 ^ w)

/-- What STATUS always satisfies: CAUSE, ERRCNT and ERRSEQ are 0 while ERR = 0 (R33); an error leaves a cause of
R149 and a count of at least 1; FATAL comes with ERR and HALTED (R151, R152); and in a production build FATAL stands
exactly with the cause F_ZERO_INVARIANT (R149, R150). -/
def Status.wf (cfg : Config) (st : Status) : Bool :=
  (if st.err then decide (1 ≤ st.cause.toNat) && decide (st.cause.toNat ≤ 0x0A) && decide (1 ≤ st.errCnt.toNat)
    else decide (st.cause = 0) && decide (st.errCnt = 0) && decide (st.errSeq = 0) && !st.fatal)
  && (!st.fatal || st.halted)
  && (cfg.debugAbort || st.fatal == decide (st.cause = 0x0A))

/-- A legal state: every slot holds a legal value, STATUS is legal, the queue is within its depth (R36). -/
def State.wf (cfg : Config) (s : State) : Bool :=
  s.slots.toList.all (Value.wf cfg) && s.status.wf cfg && decide (s.queue.length ≤ cfg.cqDepth)

/-- `t` is `s` after a command that wrote `v` to slot `rd` and changed nothing else but SEQ (R38 (a), R35). -/
def Wrote (rd : Slot) (v : Value) (s t : State) : Prop :=
  t.slot rd = v ∧ (∀ r, r ≠ rd → t.slot r = s.slot r) ∧ t.status = s.status ∧ t.seq = s.seq + 1
    ∧ t.queue = s.queue

/-- STATUS after one more error, field by field (R152): ERR is 1; ERRCNT counts, saturating at 0xFFFF; CAUSE and
ERRSEQ name this error if it is the first or fatal, and are kept otherwise. -/
def Recorded (c : Cause) (fatal : Bool) (seq : BitVec 32) (before after : Status) : Prop :=
  after.err = true
    ∧ after.errCnt.toNat = min (before.errCnt.toNat + 1) 0xFFFF
    ∧ (before.err = false ∨ fatal = true → after.cause = causeCode c ∧ after.errSeq = seq)
    ∧ (before.err = true → fatal = false → after.cause = before.cause ∧ after.errSeq = before.errSeq)

/-- `t` is `s` after a command that raised the recoverable error `c`: no slot and nothing else changed but STATUS
and SEQ (R150, R152, R155). -/
def Erred (c : Cause) (s t : State) : Prop :=
  t.slots = s.slots ∧ Recorded c false s.seq s.status t.status ∧ t.status.halted = s.status.halted
    ∧ t.status.fatal = s.status.fatal ∧ t.seq = s.seq + 1 ∧ t.queue = s.queue

/-- `t` is `s` after a command that raised the fatal error `c` (R151, R152, R155). -/
def ErredFatally (c : Cause) (s t : State) : Prop :=
  t.slots = s.slots ∧ Recorded c true s.seq s.status t.status ∧ t.status.halted = true
    ∧ t.status.fatal = true ∧ t.seq = s.seq + 1 ∧ t.queue = s.queue

/-- `exec` of `i` at `s` answers a next state in which `v` was written to `rd`, and nothing else changed but SEQ. -/
def Writes (i : Instr) (s : State) (rd : Slot) (v : Value) : Prop := ∃ t, exec i s = .next t ∧ Wrote rd v s t

/-- `exec` of `i` at `s` answers a next state in which the recoverable error `c` was taken. -/
def Raises (i : Instr) (s : State) (c : Cause) : Prop := ∃ t, exec i s = .next t ∧ Erred c s t

/-- `exec` of `i` at `s` answers a next state in which the fatal error `c` was taken. -/
def RaisesFatal (i : Instr) (s : State) (c : Cause) : Prop := ∃ t, exec i s = .next t ∧ ErredFatally c s t

/-- A safe run in the spec's sense never ends at a fatal error. -/
def NotFatal (s : State) : Bool := !s.status.fatal

/-- The states that the unit's steps and the host's moves lead to from reset (R38 to R44), on this hardware. -/
inductive Reachable : State → Prop where
  | reset : Reachable State.reset
  | unitStep (s t : State) : Reachable s → step s = .next t → Reachable t
  | hostStep (m : HostMove) (s t : State) : Reachable s → hostMove Config.natUnit m s = some t → Reachable t

end Sys2Proof.Machine
end

