-- ==== Sys2Proof/Certificates/Slice0/Obligations.lean ====
section
/-! DEFINITION. The statements for the provers. Words used throughout, all from Safety.lean: `Writes i s rd v` says
that `exec i s` answers a next state in which slot `rd` holds `v` and nothing else changed but SEQ, which advanced by
one; `Raises i s c` says that it answers a next state in which only STATUS and SEQ changed, as R150 and R152 say for
the cause `c`; `RaisesFatal` the same with FATAL and HALTED set (R151). So each statement of an instruction's result
is its completion statement and its frame at once. `WMAX` is written as this hardware's 4096. -/

open Sys2Proof Sys2Proof.Machine

namespace Sys2Proof.Claim

/-- WMAX of this hardware (R7), where a statement speaks of `2 ^ WMAX` (irreducible, so that no proof evaluates the
power by accident). -/
@[irreducible] def wmax : Nat := 4096

/-- The unsigned number in `width` bits of a command from bit `lo` on. -/
def part (lo width : Nat) (c : Command) : Nat := (c.extractLsb' lo width).toNat

/-- The slot a 4-bit field of a command names. -/
def slotPart (lo : Nat) (c : Command) : Slot := (c.extractLsb' lo 4).toFin

/-- OPC, word 0 bits 7:0 (R60). -/
def opc (c : Command) : Nat := part 0 8 c
/-- RD, word 0 bits 11:8 (R60). -/
def rd (c : Command) : Slot := slotPart 8 c
/-- RS1, word 0 bits 15:12 (R60). -/
def rs1 (c : Command) : Slot := slotPart 12 c
/-- RS2, word 0 bits 19:16 (R60). -/
def rs2 (c : Command) : Slot := slotPart 16 c
/-- RS3, word 0 bits 23:20 (R60). -/
def rs3 (c : Command) : Slot := slotPart 20 c
/-- P1, word 0 bits 39:24 (R60, R64). -/
def p1 (c : Command) : Nat := part 24 16 c
/-- P2, word 0 bits 55:40 (R60, R64). -/
def p2 (c : Command) : Nat := part 40 16 c
/-- RSV, word 0 bits 63:56 (R60). -/
def rsv (c : Command) : Nat := part 56 8 c
/-- IMM, word 1 (R61, R65). -/
def imm (c : Command) : Nat := part 64 64 c

/-- Every command with this opcode and RSV = 0 decodes to the instruction its fields give, whatever stands in the
fields its format does not use. -/
def DecodesTo (opcode : Nat) (f : Command → Instr) : Prop :=
  ∀ c : Command, opc c = opcode → rsv c = 0 → decode c = .instr (f c)

/-- The assigned opcodes (R67). -/
def Assigned (op : Nat) : Prop :=
  (0x01 ≤ op ∧ op ≤ 0x04) ∨ (0x10 ≤ op ∧ op ≤ 0x1A) ∨ (0x20 ≤ op ∧ op ≤ 0x2D) ∨ (0x30 ≤ op ∧ op ≤ 0x33)
    ∨ (0x40 ≤ op ∧ op ≤ 0x44) ∨ (0x50 ≤ op ∧ op ≤ 0x53)

/-- The illegal opcodes, as R68 lists them. -/
def Illegal (op : Nat) : Prop :=
  op = 0x00 ∨ (0x05 ≤ op ∧ op ≤ 0x0F) ∨ (0x1B ≤ op ∧ op ≤ 0x1F) ∨ (0x2E ≤ op ∧ op ≤ 0x2F)
    ∨ (0x34 ≤ op ∧ op ≤ 0x3F) ∨ (0x45 ≤ op ∧ op ≤ 0x4F) ∨ (0x54 ≤ op ∧ op ≤ 0xFF)

/-- What the format of an instruction uses of a command: OPC, RSV and the fields R62 names. -/
def usedFields (i : Instr) (c : Command) : List Nat :=
  opc c :: rsv c ::
  match i with
  | .nop | .halt => []
  | .clr _ => [(rd c).val]
  | .natLi _ _ _ | .bitsLi _ _ _ => [(rd c).val, p1 c, imm c]
  | .natShl _ _ _ | .natShr _ _ _ | .bitsShr _ _ _ | .bitsTrim _ _ _ | .bitsZext _ _ _ | .bitsSext _ _ _
  | .bitsFlip _ _ _ => [(rd c).val, (rs1 c).val, p1 c]
  | .bitsExtract _ _ _ _ | .mbExtract _ _ _ _ => [(rd c).val, (rs1 c).val, p1 c, p2 c]
  | .mov _ _ | .natSucc _ _ | .natSubz _ _ | .natBitsize _ _ | .natTobits _ _ | .bitsNot _ _ | .bitsSucc _ _
  | .bitsSign _ _ | .bitsTonat _ _ | .negNegate _ _ | .negAbs _ _ | .riValue _ _ | .riBias _ _ | .riWidth _ _
  | .mbFixed _ _ => [(rd c).val, (rs1 c).val]
  | .natAdd _ _ _ | .natSub _ _ _ | .natCmp _ _ _ | .natConcat _ _ _ | .bitsConcat _ _ _ | .bitsCmp _ _ _
  | .bitsAdd _ _ _ | .negCmp _ _ _ | .negAdd _ _ _ | .riAdd _ _ _ | .mbEq _ _ _ =>
    [(rd c).val, (rs1 c).val, (rs2 c).val]
  | .riNew _ _ _ _ | .mbNew _ _ _ _ => [(rd c).val, (rs1 c).val, (rs2 c).val, (rs3 c).val]

/-- The 2-bit comparison outcome as R15 gives it. -/
def outcome (a b : Int) : Value := .bits 2 (if a < b then 0b11 else if a = b then 0b00 else 0b01)

/-- `k` is `bit_size(v)` by R12's own words. -/
def IsBitSize (v k : Nat) : Prop := (v = 0 ∧ k = 0) ∨ (1 ≤ v ∧ 1 ≤ k ∧ 2 ^ (k - 1) ≤ v ∧ v < 2 ^ k)

/-- The width a successor is given (R84, R114): one more when the top limb is full. -/
def succWidth (n : Nat) : Nat := if n % 64 = 0 then n + 1 else n

/-- The integer of a signed integer operand (R26); none for another kind. -/
def signedVal : Value → Option Int
  | .nat _ v => some v
  | .neg _ m => some (-(m : Int))
  | _ => none

/-- `l` is the limb image of the width-`w` payload `p` (R28). -/
def IsLimbImage (l : List Word) (w p : Nat) : Prop :=
  l.length = (w + 63) / 64 ∧ ∀ i, i < l.length → (l.getD i 0).toNat = p / 2 ^ (64 * i) % 2 ^ 64

/-- Some source slot of the instruction is EMPTY. -/
def SomeSourceEmpty (i : Instr) (s : State) : Prop := ∃ r ∈ i.sources, s.slot r = .empty

/-- The value is a NAT. -/
def IsNat (v : Value) : Prop := ∃ w p, v = .nat w p
/-- The value is a BITS. -/
def IsBits (v : Value) : Prop := ∃ w p, v = .bits w p
/-- The value is a NEG. -/
def IsNeg (v : Value) : Prop := ∃ w p, v = .neg w p
/-- The value is a NAT or a NEG. -/
def IsSigned (v : Value) : Prop := IsNat v ∨ IsNeg v
/-- The value is a RANGED. -/
def IsRanged (v : Value) : Prop := ∃ lo hi p, v = .ranged lo hi p
/-- The value is a MASKED. -/
def IsMasked (v : Value) : Prop := ∃ w m k b, v = .masked w m k b

/-- The instruction's source operands are of the kinds its rule takes. -/
def KindsTaken (i : Instr) (s : State) : Prop :=
  match i with
  | .nop | .halt | .clr _ | .natLi _ _ _ | .bitsLi _ _ _ | .mov _ _ => True
  | .natSucc _ a | .natSubz _ a | .natBitsize _ a | .natTobits _ a | .natShl _ a _ | .natShr _ a _ => IsNat (s.slot a)
  | .natAdd _ a b | .natSub _ a b | .natCmp _ a b | .natConcat _ a b => IsNat (s.slot a) ∧ IsNat (s.slot b)
  | .bitsShr _ a _ | .bitsExtract _ a _ _ | .bitsTrim _ a _ | .bitsZext _ a _ | .bitsSext _ a _ | .bitsNot _ a
  | .bitsSucc _ a | .bitsFlip _ a _ | .bitsSign _ a | .bitsTonat _ a => IsBits (s.slot a)
  | .bitsConcat _ a b | .bitsCmp _ a b | .bitsAdd _ a b => IsBits (s.slot a) ∧ IsBits (s.slot b)
  | .negNegate _ a | .negAbs _ a => IsSigned (s.slot a)
  | .negCmp _ a b => IsSigned (s.slot a) ∧ IsSigned (s.slot b)
  | .negAdd _ a b => (IsNat (s.slot a) ∧ IsNeg (s.slot b)) ∨ (IsNeg (s.slot a) ∧ IsNat (s.slot b))
  | .riNew _ a b c => IsSigned (s.slot a) ∧ IsSigned (s.slot b) ∧ IsSigned (s.slot c)
  | .riAdd _ a b => IsRanged (s.slot a) ∧ IsRanged (s.slot b)
  | .riValue _ a | .riBias _ a | .riWidth _ a => IsRanged (s.slot a)
  | .mbNew _ a b c => IsBits (s.slot a) ∧ IsBits (s.slot b) ∧ IsBits (s.slot c)
  | .mbExtract _ a _ _ | .mbFixed _ a => IsMasked (s.slot a)
  | .mbEq _ a b => IsMasked (s.slot a) ∧ (IsNat (s.slot b) ∨ IsBits (s.slot b))

/-- The causes R149 lets an instruction raise (its column "raised by"), for this hardware's DEBUG_ABORT = 0. -/
def MayRaise (i : Instr) (c : Cause) : Prop :=
  match c with
  | .illegalOpcode | .reservedField => False
  | .emptySlot => i.sources ≠ []
  | .kind => i.sources ≠ [] ∧ ∀ d a, i ≠ .mov d a
  | .widthContract =>
    match i with
    | .bitsExtract _ _ _ _ | .bitsTrim _ _ _ | .bitsZext _ _ _ | .bitsSext _ _ _ | .mbNew _ _ _ _
    | .mbExtract _ _ _ _ => True
    | _ => False
  | .widthLimit =>
    match i with
    | .natLi _ _ _ | .natSucc _ _ | .natAdd _ _ _ | .natShl _ _ _ | .natConcat _ _ _ | .bitsLi _ _ _
    | .bitsConcat _ _ _ | .bitsZext _ _ _ | .bitsSext _ _ _ | .bitsSucc _ _ | .bitsFlip _ _ _ | .bitsAdd _ _ _
    | .riNew _ _ _ _ | .riAdd _ _ _ => True
    | _ => False
  | .bounds | .range =>
    match i with
    | .riNew _ _ _ _ => True
    | _ => False
  | .succOverflow =>
    match i with
    | .natSucc _ _ | .bitsSucc _ _ => True
    | _ => False
  | .zeroInvariant =>
    match i with
    | .natSubz _ _ => True
    | _ => False

/-- The instruction belongs to the RangedInt family. -/
def IsRangedFamily : Instr → Prop
  | .riNew _ _ _ _ | .riAdd _ _ _ | .riValue _ _ | .riBias _ _ | .riWidth _ _ => True
  | _ => False

/-- The instruction is NAT.SUB or NEG.ADD, whose result kind depends on the values (R22). -/
def KindByValue : Instr → Prop
  | .natSub _ _ _ | .negAdd _ _ _ => True
  | _ => False

/-- HALT's own effect: HALTED is 1 and no other field of STATUS, and no slot, changed (R79). -/
def HaltedBy (s t : State) : Prop :=
  t = { s with status := { s.status with halted := true }, seq := s.seq + 1 }

/-- NOP's own effect: only SEQ advanced (R78). -/
def NothingBut (s t : State) : Prop := t = { s with seq := s.seq + 1 }

end Sys2Proof.Claim

open Sys2Proof.Claim

/-! ## Encoding and decoding -/

/-- Decode and encode agree: for every well-formed instruction, with every operand at every value its encoding
admits, decoding its encoding gives it back (R72, R74). -/
def Obligations.DecodeOfEncodeIsTheInstruction : Prop := ∀ i : Instr, i.wf = true → decode (encode i) = .instr i

/-- R70: decoding is total with exactly three answers, chosen by OPC and RSV alone; an instruction it gives is well
formed. -/
def Obligations.DecodeAnswersByOpcodeAndReservedField : Prop :=
  ∀ c : Command,
    (¬Assigned (opc c) ∧ decode c = .illegalOpcode)
      ∨ (Assigned (opc c) ∧ rsv c ≠ 0 ∧ decode c = .reservedField)
      ∨ (Assigned (opc c) ∧ rsv c = 0 ∧ ∃ i : Instr, i.wf = true ∧ decode c = .instr i)

/-- R66 and R68: an unassigned opcode raises E_ILLEGAL_OPCODE and does nothing else, whatever the other fields (the
opcode is checked before RSV; the all-zero command is one); an assigned opcode with RSV ≠ 0 raises E_RESERVED_FIELD
and does nothing else; and a field the format does not use is ignored. -/
def Obligations.IllegalAndReservedCommandsRaiseDecodeErrors : Prop :=
  (∀ (s : State) (c : Command) (rest : List Command), s.status.halted = false → s.queue = c :: rest →
    (Illegal (opc c) → ∃ t, step s = .next t ∧ Erred .illegalOpcode { s with queue := rest } t)
    ∧ (Assigned (opc c) → rsv c ≠ 0 → ∃ t, step s = .next t ∧ Erred .reservedField { s with queue := rest } t))
  ∧ (∀ (c d : Command) (i : Instr), decode c = .instr i → usedFields i d = usedFields i c → decode d = .instr i)
  ∧ Illegal (opc 0)

/-- Commands of spec/95_test_vectors.md, one of each family, decode to the instruction they stand for. -/
def Obligations.WordsOfTheTestVectorsDecode : Prop :=
  decode 0x0000000000001203 = .instr (.mov 2 1)
    ∧ decode 0x0000000000021312 = .instr (.natAdd 3 1 2)
    ∧ decode 0xFFFFFFFFFFFFFFFF0000000064000110 = .instr (.natLi 1 100 0xFFFFFFFFFFFFFFFF)
    ∧ decode 0x00003E0041001223 = .instr (.bitsExtract 2 1 65 62)
    ∧ decode 0x0000000000051733 = .instr (.negAdd 7 1 5)
    ∧ decode 0x0000000000879A40 = .instr (.riNew 10 9 7 8)
    ∧ decode 0x00001F0020001251 = .instr (.mbExtract 2 1 32 31)
    ∧ decode 0xDEADBEEF001234BEEFF11212 = .instr (.natAdd 2 1 1)

/-- The model's choice (log entry 6, DESIGN CHOICE): R38's one atomic step is split into two functions, `step`, which
removes the head of the queue and decodes it, and `exec`, the instruction itself. So, when the unit is not halted and
the head of its queue decodes to `i`, the step is `exec` of `i` at the state without that head. -/
def Obligations.StepRunsTheDecodedInstruction : Prop :=
  ∀ (s : State) (c : Command) (rest : List Command) (i : Instr),
    s.status.halted = false → s.queue = c :: rest → decode c = .instr i → step s = exec i { s with queue := rest }

/-! ## The step, STATUS, SEQ, the queue and the host -/

/-- R35: SEQ is 0 after reset, every command taken, whatever its outcome, advances it by 1 modulo 2^32, and no
other unit step moves it. -/
def Obligations.EveryCommandAdvancesSeqByOne : Prop :=
  State.reset.seq = 0
  ∧ (∀ (s : State), s.status.halted = false → s.queue ≠ [] →
      ∃ t, step s = .next t ∧ t.seq.toNat = (s.seq.toNat + 1) % 2 ^ 32 ∧ t.queue = s.queue.tail)
  ∧ (∀ (s t : State), step s = .next t → s.queue = [] → t.seq = s.seq)

/-- R37 as the model renders it (log entries 1 and 2, the model's choice): the unit has a step exactly when it is
not halted and its queue is not empty; an idle unit's step leaves everything as it is, and a halted unit's step is a
named fault that tells a HALT from a fatal error. -/
def Obligations.IdleWaitsAndHaltedStops : Prop :=
  ∀ s : State,
    (s.status.halted = false → s.queue = [] → step s = .next s)
    ∧ (s.status.halted = true → s.status.fatal = false → step s = .fault .halted)
    ∧ (s.status.halted = true → s.status.fatal = true → step s = .fault .fatalHalted)
    ∧ ((∃ t, step s = .next t ∧ t.seq ≠ s.seq) ↔ (s.status.halted = false ∧ s.queue ≠ []))

/-- R159: every instruction completes, and changes nothing but its destination slot, STATUS and SEQ. -/
def Obligations.CommandsChangeOnlyDestinationAndStatus : Prop :=
  ∀ (i : Instr) (s : State), ∃ t, exec i s = .next t ∧ (∀ r, i.dest ≠ some r → t.slot r = s.slot r)
    ∧ t.queue = s.queue ∧ t.seq = s.seq + 1

/-- R38: a step removes the head command and executes it, decode checks first, with exactly one of the outcomes
(a) to (d), each with its whole effect and no other; then SEQ has advanced. -/
def Obligations.EveryCommandHasOneOutcome : Prop :=
  ∀ (s : State) (c : Command) (rest : List Command), s.status.halted = false → s.queue = c :: rest →
    ∃ t, step s = .next t ∧ t.queue = rest ∧ t.seq = s.seq + 1 ∧
      match decode c with
      | .illegalOpcode => Erred .illegalOpcode { s with queue := rest } t
      | .reservedField => Erred .reservedField { s with queue := rest } t
      | .instr i =>
        (∃ d v, i.dest = some d ∧ Wrote d v { s with queue := rest } t)
          ∨ (∃ e, Erred e { s with queue := rest } t) ∨ (∃ e, ErredFatally e { s with queue := rest } t)
          ∨ (i = .halt ∧ HaltedBy { s with queue := rest } t) ∨ (i = .nop ∧ NothingBut { s with queue := rest } t)

/-- R149: the codes of the causes, and which cause an instruction may record as the first error since reset; only
F_ZERO_INVARIANT is fatal on this hardware (DEBUG_ABORT = 0). -/
def Obligations.InstructionsRaiseOnlyTheirListedCauses : Prop :=
  (causeCode .illegalOpcode = 0x01 ∧ causeCode .reservedField = 0x02 ∧ causeCode .emptySlot = 0x03
    ∧ causeCode .kind = 0x04 ∧ causeCode .widthContract = 0x05 ∧ causeCode .widthLimit = 0x06
    ∧ causeCode .bounds = 0x07 ∧ causeCode .range = 0x08 ∧ causeCode .succOverflow = 0x09
    ∧ causeCode .zeroInvariant = 0x0A)
  ∧ ∀ (i : Instr) (s t : State), s.status.err = false → s.status.fatal = false → exec i s = .next t →
      t.status.err = true →
      ∃ c, MayRaise i c ∧ t.status.cause = causeCode c ∧ (t.status.fatal = true ↔ c = .zeroInvariant)

/-- R154, steps (3) and (4), for every instruction: an EMPTY source raises E_EMPTY_SLOT whatever the other operands
are; with no source EMPTY, a source of a kind the rule does not take raises E_KIND whatever the parameters are. -/
def Obligations.SourcesAreCheckedFirst : Prop :=
  ∀ (i : Instr) (s : State),
    (SomeSourceEmpty i s → Raises i s .emptySlot)
    ∧ (¬SomeSourceEmpty i s → ¬KindsTaken i s → Raises i s .kind)

/-- R33 and R34: where each field of STATUS stands in the 64-bit word the host reads, reserved bits 0. -/
def Obligations.StatusWordHasItsFieldsInPlace : Prop :=
  ∀ s : State,
    (hostReadStatus s).getLsbD 0 = s.status.halted
    ∧ (hostReadStatus s).getLsbD 1 = s.status.err
    ∧ (hostReadStatus s).getLsbD 2 = s.status.fatal
    ∧ (hostReadStatus s).getLsbD 3 = false
    ∧ (hostReadStatus s).extractLsb' 4 8 = s.status.cause
    ∧ (hostReadStatus s).extractLsb' 12 4 = 0
    ∧ (hostReadStatus s).extractLsb' 16 16 = s.status.errCnt
    ∧ (hostReadStatus s).extractLsb' 32 32 = s.status.errSeq

/-- R152: taking an error records it as the rule's pseudocode says; over every step ERR and FATAL are sticky, CAUSE
and ERRSEQ keep naming the first error unless a fatal error takes them over, and after a fatal error there is no
further step; and of the host's moves only reset changes STATUS. -/
def Obligations.ErrorsAreRecordedAndSticky : Prop :=
  (∀ (c : Cause) (s : State),
    Recorded c false s.seq s.status (takeError (.error c) s).status
    ∧ Recorded c true s.seq s.status (takeError (.fatal c) s).status)
  ∧ (∀ s t : State, step s = .next t →
    (s.status.err = true → t.status.err = true)
    ∧ (s.status.fatal = true → t.status.fatal = true)
    ∧ (s.status.err = true → t.status.fatal = false →
        t.status.cause = s.status.cause ∧ t.status.errSeq = s.status.errSeq)
    ∧ s.status.errCnt.toNat ≤ t.status.errCnt.toNat
    ∧ (s.status.fatal = false → t.status.fatal = true → ∀ u, step t ≠ .next u))
  ∧ (∀ (m : HostMove) (s t : State), hostMove Config.natUnit m s = some t → m ≠ .reset → t.status = s.status)

/-- The invariant every unit step and every host move keeps, from every legal state and not only along runs: each
slot holds a legal value (R24, R30, R132), STATUS is legal (R33, R149, R151) and the queue is within CQ_DEPTH (R36).
The same in every build that R7 allows, with its own WMAX, CQ_DEPTH and DEBUG_ABORT. -/
def Obligations.StepsAndHostMovesKeepLegalStates : Prop :=
  (∀ s t : State, s.wf Config.natUnit = true → step s = .next t → t.wf Config.natUnit = true)
  ∧ (∀ (m : HostMove) (s t : State), s.wf Config.natUnit = true → hostMove Config.natUnit m s = some t →
      t.wf Config.natUnit = true)
  ∧ ∀ (cfg : Config) (s : State), cfg.valid = true → s.wf cfg = true →
      (∀ t, unitStepIn cfg s = .next t → t.wf cfg = true) ∧ (∀ m t, hostMove cfg m s = some t → t.wf cfg = true)

/-- The state after reset is legal. -/
def Obligations.ResetStateIsLegal : Prop := State.reset.wf Config.natUnit = true

/-- Every state that any pushes, reads, resets and unit steps lead to is legal: no slot ever breaks R24's invariant. -/
def Obligations.ReachableStatesAreLegal : Prop := ∀ s : State, Reachable s → s.wf Config.natUnit = true

/-- R48 and R163: what reset leaves, whatever the state was. -/
def Obligations.ResetGivesEveryResetValue : Prop :=
  ∀ s : State, (∀ r, (hostReset s).slot r = .empty) ∧ hostReadStatus (hostReset s) = 0
    ∧ (hostReset s).seq = 0 ∧ (hostReset s).queue = [] ∧ hostReset s = State.reset

/-- R39: a push appends at the tail while fewer than CQ_DEPTH commands are queued, halted or not, and is not there
when the queue is full; a halted unit has no step after it either. The host transports the command as two words, word 0
first (R51). -/
def Obligations.PushAppendsWhileThereIsRoom : Prop :=
  ∀ (c : Command) (s : State),
    (s.queue.length < 16 → ∃ t, hostPush Config.natUnit c s = some t ∧ t.queue = s.queue ++ [c] ∧ t.slots = s.slots
      ∧ t.status = s.status ∧ t.seq = s.seq ∧ (s.status.halted = true → ∀ u, step t ≠ .next u))
    ∧ (16 ≤ s.queue.length → hostPush Config.natUnit c s = none)
    ∧ hostPushWords Config.natUnit [c.extractLsb' 0 64, c.extractLsb' 64 64] s = hostPush Config.natUnit c s

/-- R36: when the host pushes never changes what a step computes: a push and the step of an earlier command can be
exchanged. -/
def Obligations.PushingLaterGivesTheSameState : Prop :=
  ∀ (c : Command) (s s' t : State), s.queue ≠ [] → hostPush Config.natUnit c s = some s' → step s = .next t →
    ∃ t', step s' = .next t' ∧ hostPush Config.natUnit c t = some t'

/-- R20: an instruction reads nothing but its source slots: at two states that agree on those it has the same
outcome, writing the same value or raising the same cause. -/
def Obligations.OutcomeDependsOnlyOnSources : Prop :=
  ∀ (i : Instr) (s₁ s₂ : State), (∀ r ∈ i.sources, s₁.slot r = s₂.slot r) →
    ∃ t₁ t₂, exec i s₁ = .next t₁ ∧ exec i s₂ = .next t₂ ∧
      ((∃ d v, i.dest = some d ∧ Wrote d v s₁ t₁ ∧ Wrote d v s₂ t₂)
        ∨ (∃ c, Erred c s₁ t₁ ∧ Erred c s₂ t₂)
        ∨ (∃ c, ErredFatally c s₁ t₁ ∧ ErredFatally c s₂ t₂)
        ∨ (i = .halt ∧ HaltedBy s₁ t₁ ∧ HaltedBy s₂ t₂)
        ∨ (i = .nop ∧ NothingBut s₁ t₁ ∧ NothingBut s₂ t₂))

/-- R21 and R22: outside the RangedInt family, where an instruction raises nothing, the width of its result is a
function of the operand widths and of its own fields, never of the operand values; and its kind is a function of the
operand kinds, but for NAT.SUB and NEG.ADD. -/
def Obligations.ResultWidthsAreStatic : Prop :=
  ∀ (i : Instr) (d : Slot) (s₁ s₂ t₁ t₂ : State), ¬IsRangedFamily i → i.dest = some d →
    (∀ r ∈ i.sources, widthOf (s₁.slot r) = widthOf (s₂.slot r)) →
    s₁.status.err = false → s₂.status.err = false → exec i s₁ = .next t₁ → exec i s₂ = .next t₂ →
    t₁.status.err = false → t₂.status.err = false →
    widthOf (t₁.slot d) = widthOf (t₂.slot d)
      ∧ (¬KindByValue i → (∀ r ∈ i.sources, kindCode (s₁.slot r) = kindCode (s₂.slot r)) →
          kindCode (t₁.slot d) = kindCode (t₂.slot d))

/-- R41 and R28: the header's fields and the payload limbs of the slot image of every legal value. -/
def Obligations.SlotImageHasItsLayout : Prop :=
  ∀ (s : State) (r : Slot), (s.slot r).wf Config.natUnit = true →
    ∃ (h : Word) (payload : List Word), hostReadSlot s r = h :: payload
      ∧ h.extractLsb' 26 6 = 0
      ∧ match s.slot r with
        | .empty => h = 0 ∧ payload = []
        | .nat w v => h = BitVec.ofNat 64 (1 + w * 2 ^ 8) ∧ (h.extractLsb' 8 16).toNat = w ∧ IsLimbImage payload w v
        | .neg w m => h = BitVec.ofNat 64 (2 + w * 2 ^ 8) ∧ (h.extractLsb' 8 16).toNat = w ∧ IsLimbImage payload w m
        | .bits w v => h = BitVec.ofNat 64 (3 + w * 2 ^ 8) ∧ (h.extractLsb' 8 16).toNat = w ∧ IsLimbImage payload w v
        | .ranged lo hi p =>
          h.extractLsb' 0 8 = 4
            ∧ IsBitSize (hi - lo + 1).toNat (h.extractLsb' 8 16).toNat
            ∧ (h.getLsbD 24 = true ↔ lo < 0) ∧ (h.getLsbD 25 = true ↔ hi < 0)
            ∧ IsBitSize lo.natAbs (h.extractLsb' 32 16).toNat ∧ IsBitSize hi.natAbs (h.extractLsb' 48 16).toNat
            ∧ ∃ a b c, payload = a ++ b ++ c ∧ IsLimbImage a (h.extractLsb' 32 16).toNat lo.natAbs
              ∧ IsLimbImage b (h.extractLsb' 48 16).toNat hi.natAbs ∧ IsLimbImage c (h.extractLsb' 8 16).toNat p
        | .masked w mask val rt =>
          h = BitVec.ofNat 64 (5 + w * 2 ^ 8) ∧ (h.extractLsb' 8 16).toNat = w
            ∧ ∃ a b c, payload = a ++ b ++ c ∧ IsLimbImage a w mask ∧ IsLimbImage b w val ∧ IsLimbImage c w rt

/-- The slot image is lossless (D38): two legal values with the same image are the same value. -/
def Obligations.SlotImageLosesNothing : Prop :=
  ∀ a b : Value, a.wf Config.natUnit = true → b.wf Config.natUnit = true → slotImage a = slotImage b → a = b

/-! ## The instructions -/

/-- R78 to R81: NOP, HALT (after which the unit has no step), MOV and CLR. -/
def Obligations.SequencerCommandsFollowTheirRules : Prop :=
  DecodesTo 0x01 (fun _ => .nop) ∧ DecodesTo 0x02 (fun _ => .halt) ∧ DecodesTo 0x03 (fun c => .mov (rd c) (rs1 c))
  ∧ DecodesTo 0x04 (fun c => .clr (rd c))
  ∧ ∀ (d a : Slot) (s : State),
    (∃ t, exec .nop s = .next t ∧ NothingBut s t)
    ∧ (∃ t, exec .halt s = .next t ∧ HaltedBy s t ∧ ∀ u, step t ≠ .next u)
    ∧ (if s.slot a = .empty then Raises (.mov d a) s .emptySlot else Writes (.mov d a) s d (s.slot a))
    ∧ Writes (.clr d) s d .empty

/-- R83 and R106: a construction masks the immediate to its width; a width above WMAX raises E_WIDTH_LIMIT. -/
def Obligations.ConstructionsMaskTheImmediate : Prop :=
  DecodesTo 0x10 (fun c => .natLi (rd c) (p1 c) (imm c)) ∧ DecodesTo 0x20 (fun c => .bitsLi (rd c) (p1 c) (imm c))
  ∧ ∀ (d : Slot) (w n : Nat) (s : State),
    (if w ≤ 4096 then Writes (.natLi d w n) s d (.nat w (n % 2 ^ w)) else Raises (.natLi d w n) s .widthLimit)
    ∧ (if w ≤ 4096 then Writes (.bitsLi d w n) s d (.bits w (n % 2 ^ w)) else Raises (.bitsLi d w n) s .widthLimit)

/-- R84 and R114: the successor, its width, and E_SUCC_OVERFLOW instead of a wrap. -/
def Obligations.SuccessorsWidenOnlyWhenTheTopLimbIsFull : Prop :=
  DecodesTo 0x11 (fun c => .natSucc (rd c) (rs1 c)) ∧ DecodesTo 0x28 (fun c => .bitsSucc (rd c) (rs1 c))
  ∧ ∀ (d a : Slot) (s : State),
    (match s.slot a with
      | .empty => Raises (.natSucc d a) s .emptySlot
      | .nat n v =>
        if 4096 < succWidth n then Raises (.natSucc d a) s .widthLimit
        else if 2 ^ succWidth n ≤ v + 1 then Raises (.natSucc d a) s .succOverflow
        else Writes (.natSucc d a) s d (.nat (succWidth n) (v + 1))
      | _ => Raises (.natSucc d a) s .kind)
    ∧ (match s.slot a with
      | .empty => Raises (.bitsSucc d a) s .emptySlot
      | .bits n v =>
        if 4096 < succWidth n then Raises (.bitsSucc d a) s .widthLimit
        else if 2 ^ succWidth n ≤ v + 1 then Raises (.bitsSucc d a) s .succOverflow
        else Writes (.bitsSucc d a) s d (.bits (succWidth n) (v + 1))
      | _ => Raises (.bitsSucc d a) s .kind)

/-- R85, R86 and R117: the sum at width `max(N, M) + 1`, always. -/
def Obligations.SumsAreOneBitWiderThanTheWiderOperand : Prop :=
  DecodesTo 0x12 (fun c => .natAdd (rd c) (rs1 c) (rs2 c)) ∧ DecodesTo 0x2B (fun c => .bitsAdd (rd c) (rs1 c) (rs2 c))
  ∧ ∀ (d a b : Slot) (s : State),
    (match s.slot a, s.slot b with
      | .empty, _ => Raises (.natAdd d a b) s .emptySlot
      | _, .empty => Raises (.natAdd d a b) s .emptySlot
      | .nat n u, .nat m v =>
        if max n m + 1 ≤ 4096 then Writes (.natAdd d a b) s d (.nat (max n m + 1) (u + v))
        else Raises (.natAdd d a b) s .widthLimit
      | _, _ => Raises (.natAdd d a b) s .kind)
    ∧ (match s.slot a, s.slot b with
      | .empty, _ => Raises (.bitsAdd d a b) s .emptySlot
      | _, .empty => Raises (.bitsAdd d a b) s .emptySlot
      | .bits n u, .bits m v =>
        if max n m + 1 ≤ 4096 then Writes (.bitsAdd d a b) s d (.bits (max n m + 1) (u + v))
        else Raises (.bitsAdd d a b) s .widthLimit
      | _, _ => Raises (.bitsAdd d a b) s .kind)

/-- R89, R90 and R129: NAT.SUB and NEG.ADD give the exact difference at width `max(N, M)`, a NAT when it is not
negative and a NEG of its magnitude when it is. -/
def Obligations.DifferencesBecomeNegWhenNegative : Prop :=
  DecodesTo 0x13 (fun c => .natSub (rd c) (rs1 c) (rs2 c)) ∧ DecodesTo 0x33 (fun c => .negAdd (rd c) (rs1 c) (rs2 c))
  ∧ ∀ (d a b : Slot) (s : State),
    (match s.slot a, s.slot b with
      | .empty, _ => Raises (.natSub d a b) s .emptySlot
      | _, .empty => Raises (.natSub d a b) s .emptySlot
      | .nat n u, .nat m v =>
        ∃ x, Writes (.natSub d a b) s d x ∧ widthOf x = max n m ∧ valOf x = some ((u : Int) - v)
          ∧ (if v ≤ u then x = .nat (max n m) (u - v) else x = .neg (max n m) (v - u))
      | _, _ => Raises (.natSub d a b) s .kind)
    ∧ (match s.slot a, s.slot b with
      | .empty, _ => Raises (.negAdd d a b) s .emptySlot
      | _, .empty => Raises (.negAdd d a b) s .emptySlot
      | .nat n u, .neg m v =>
        Writes (.negAdd d a b) s d (if v ≤ u then .nat (max n m) (u - v) else .neg (max n m) (v - u))
      | .neg m v, .nat n u =>
        Writes (.negAdd d a b) s d (if v ≤ u then .nat (max n m) (u - v) else .neg (max n m) (v - u))
      | _, _ => Raises (.negAdd d a b) s .kind)

/-- R91: NAT.SUBZ of a zero gives the zero of its width; of anything else it is fatal. -/
def Obligations.SubtractingFromAssertedZeroIsFatalUnlessZero : Prop :=
  DecodesTo 0x14 (fun c => .natSubz (rd c) (rs1 c))
  ∧ ∀ (d a : Slot) (s : State),
    match s.slot a with
    | .empty => Raises (.natSubz d a) s .emptySlot
    | .nat m 0 => Writes (.natSubz d a) s d (.nat m 0)
    | .nat _ (_ + 1) => RaisesFatal (.natSubz d a) s .zeroInvariant
    | _ => Raises (.natSubz d a) s .kind

/-- R92, R115 and R128: the three compares, by value across widths, with the outcome code of R15. -/
def Obligations.ComparesOrderByValue : Prop :=
  DecodesTo 0x15 (fun c => .natCmp (rd c) (rs1 c) (rs2 c)) ∧ DecodesTo 0x29 (fun c => .bitsCmp (rd c) (rs1 c) (rs2 c))
  ∧ DecodesTo 0x32 (fun c => .negCmp (rd c) (rs1 c) (rs2 c))
  ∧ ∀ (d a b : Slot) (s : State),
    (match s.slot a, s.slot b with
      | .empty, _ => Raises (.natCmp d a b) s .emptySlot
      | _, .empty => Raises (.natCmp d a b) s .emptySlot
      | .nat _ u, .nat _ v => Writes (.natCmp d a b) s d (outcome u v)
      | _, _ => Raises (.natCmp d a b) s .kind)
    ∧ (match s.slot a, s.slot b with
      | .empty, _ => Raises (.bitsCmp d a b) s .emptySlot
      | _, .empty => Raises (.bitsCmp d a b) s .emptySlot
      | .bits _ u, .bits _ v => Writes (.bitsCmp d a b) s d (outcome u v)
      | _, _ => Raises (.bitsCmp d a b) s .kind)
    ∧ (if s.slot a = .empty ∨ s.slot b = .empty then Raises (.negCmp d a b) s .emptySlot
      else match signedVal (s.slot a), signedVal (s.slot b) with
        | some x, some y => Writes (.negCmp d a b) s d (outcome x y)
        | _, _ => Raises (.negCmp d a b) s .kind)

/-- R93, R94 and R108: a left shift widens by `k`, a right shift narrows by `k` and saturates at width 0. -/
def Obligations.ShiftsMoveTheWidthWithTheValue : Prop :=
  DecodesTo 0x16 (fun c => .natShl (rd c) (rs1 c) (p1 c)) ∧ DecodesTo 0x17 (fun c => .natShr (rd c) (rs1 c) (p1 c))
  ∧ DecodesTo 0x22 (fun c => .bitsShr (rd c) (rs1 c) (p1 c))
  ∧ ∀ (d a : Slot) (k : Nat) (s : State),
    (match s.slot a with
      | .empty => Raises (.natShl d a k) s .emptySlot
      | .nat n v =>
        if n + k ≤ 4096 then Writes (.natShl d a k) s d (.nat (n + k) (v <<< k)) else Raises (.natShl d a k) s .widthLimit
      | _ => Raises (.natShl d a k) s .kind)
    ∧ (match s.slot a with
      | .empty => Raises (.natShr d a k) s .emptySlot
      | .nat n v => Writes (.natShr d a k) s d (.nat (max ((n : Int) - k) 0).toNat (v >>> k))
      | _ => Raises (.natShr d a k) s .kind)
    ∧ (match s.slot a with
      | .empty => Raises (.bitsShr d a k) s .emptySlot
      | .bits n v => Writes (.bitsShr d a k) s d (.bits (max ((n : Int) - k) 0).toNat (v >>> k))
      | _ => Raises (.bitsShr d a k) s .kind)

/-- R95 and R12: NAT.BITSIZE gives the bit size as a 16-bit NAT. -/
def Obligations.BitsizeCountsToTheHighestSetBit : Prop :=
  DecodesTo 0x18 (fun c => .natBitsize (rd c) (rs1 c))
  ∧ ∀ (d a : Slot) (s : State),
    match s.slot a with
    | .empty => Raises (.natBitsize d a) s .emptySlot
    | .nat _ v => ∃ k, IsBitSize v k ∧ Writes (.natBitsize d a) s d (.nat 16 k)
    | _ => Raises (.natBitsize d a) s .kind

/-- R96 and R107: concatenation puts its first operand in the most significant position. -/
def Obligations.ConcatenationPutsTheFirstOperandHigh : Prop :=
  DecodesTo 0x19 (fun c => .natConcat (rd c) (rs1 c) (rs2 c))
  ∧ DecodesTo 0x21 (fun c => .bitsConcat (rd c) (rs1 c) (rs2 c))
  ∧ ∀ (d a b : Slot) (s : State),
    (match s.slot a, s.slot b with
      | .empty, _ => Raises (.natConcat d a b) s .emptySlot
      | _, .empty => Raises (.natConcat d a b) s .emptySlot
      | .nat n u, .nat m v =>
        if n + m ≤ 4096 then Writes (.natConcat d a b) s d (.nat (n + m) (u * 2 ^ m + v))
        else Raises (.natConcat d a b) s .widthLimit
      | _, _ => Raises (.natConcat d a b) s .kind)
    ∧ (match s.slot a, s.slot b with
      | .empty, _ => Raises (.bitsConcat d a b) s .emptySlot
      | _, .empty => Raises (.bitsConcat d a b) s .emptySlot
      | .bits n u, .bits m v =>
        if n + m ≤ 4096 then Writes (.bitsConcat d a b) s d (.bits (n + m) (u * 2 ^ m + v))
        else Raises (.bitsConcat d a b) s .widthLimit
      | _, _ => Raises (.bitsConcat d a b) s .kind)

/-- R97 and R119: the conversions between NAT and BITS keep width and value. -/
def Obligations.ConversionsKeepWidthAndValue : Prop :=
  DecodesTo 0x1A (fun c => .natTobits (rd c) (rs1 c)) ∧ DecodesTo 0x2D (fun c => .bitsTonat (rd c) (rs1 c))
  ∧ ∀ (d a : Slot) (s : State),
    (match s.slot a with
      | .empty => Raises (.natTobits d a) s .emptySlot
      | .nat w v => Writes (.natTobits d a) s d (.bits w v)
      | _ => Raises (.natTobits d a) s .kind)
    ∧ (match s.slot a with
      | .empty => Raises (.bitsTonat d a) s .emptySlot
      | .bits w v => Writes (.bitsTonat d a) s d (.nat w v)
      | _ => Raises (.bitsTonat d a) s .kind)

/-- R109: BITS.EXTRACT gives the field `[high:low]`, and refuses one that is not inside its source. -/
def Obligations.ExtractGivesTheFieldInsideItsSource : Prop :=
  DecodesTo 0x23 (fun c => .bitsExtract (rd c) (rs1 c) (p1 c) (p2 c))
  ∧ ∀ (d a : Slot) (high low : Nat) (s : State),
    match s.slot a with
    | .empty => Raises (.bitsExtract d a high low) s .emptySlot
    | .bits n v =>
      if low ≤ high ∧ high < n then
        Writes (.bitsExtract d a high low) s d (.bits (high - low + 1) (v / 2 ^ low % 2 ^ (high - low + 1)))
      else Raises (.bitsExtract d a high low) s .widthContract
    | _ => Raises (.bitsExtract d a high low) s .kind

/-- R110, R111 and R112: BITS.TRIM, BITS.ZEXT and BITS.SEXT, the width contract before the width limit. -/
def Obligations.TrimAndExtensionsKeepTheirWidthContracts : Prop :=
  DecodesTo 0x24 (fun c => .bitsTrim (rd c) (rs1 c) (p1 c)) ∧ DecodesTo 0x25 (fun c => .bitsZext (rd c) (rs1 c) (p1 c))
  ∧ DecodesTo 0x26 (fun c => .bitsSext (rd c) (rs1 c) (p1 c))
  ∧ ∀ (d a : Slot) (w : Nat) (s : State),
    (match s.slot a with
      | .empty => Raises (.bitsTrim d a w) s .emptySlot
      | .bits n v =>
        if w ≤ n then Writes (.bitsTrim d a w) s d (.bits w (v % 2 ^ w)) else Raises (.bitsTrim d a w) s .widthContract
      | _ => Raises (.bitsTrim d a w) s .kind)
    ∧ (match s.slot a with
      | .empty => Raises (.bitsZext d a w) s .emptySlot
      | .bits n v =>
        if w < n then Raises (.bitsZext d a w) s .widthContract
        else if 4096 < w then Raises (.bitsZext d a w) s .widthLimit
        else Writes (.bitsZext d a w) s d (.bits w v)
      | _ => Raises (.bitsZext d a w) s .kind)
    ∧ (match s.slot a with
      | .empty => Raises (.bitsSext d a w) s .emptySlot
      | .bits n v =>
        if w < n then Raises (.bitsSext d a w) s .widthContract
        else if 4096 < w then Raises (.bitsSext d a w) s .widthLimit
        else Writes (.bitsSext d a w) s d
          (.bits w (if 1 ≤ n ∧ v.testBit (n - 1) = true then v + (2 ^ w - 2 ^ n) else v))
      | _ => Raises (.bitsSext d a w) s .kind)

/-- R113, R118 and R11: BITS.NOT inverts every bit at the same width; BITS.SIGN reads the sign bit, 0 at width 0. -/
def Obligations.ComplementAndSignReadEveryWidth : Prop :=
  DecodesTo 0x27 (fun c => .bitsNot (rd c) (rs1 c)) ∧ DecodesTo 0x2C (fun c => .bitsSign (rd c) (rs1 c))
  ∧ ∀ (d a : Slot) (s : State),
    (match s.slot a with
      | .empty => Raises (.bitsNot d a) s .emptySlot
      | .bits n v => Writes (.bitsNot d a) s d (.bits n (2 ^ n - 1 - v))
      | _ => Raises (.bitsNot d a) s .kind)
    ∧ (match s.slot a with
      | .empty => Raises (.bitsSign d a) s .emptySlot
      | .bits n v => Writes (.bitsSign d a) s d (.bits 1 (if 1 ≤ n ∧ v.testBit (n - 1) = true then 1 else 0))
      | _ => Raises (.bitsSign d a) s .kind)

/-- R116: BITS.FLIP inverts bit F and no other, and grows the width to F + 1 when F is beyond it. -/
def Obligations.FlipInvertsOneBitAndGrowsToIt : Prop :=
  DecodesTo 0x2A (fun c => .bitsFlip (rd c) (rs1 c) (p1 c))
  ∧ ∀ (d a : Slot) (f : Nat) (s : State),
    match s.slot a with
    | .empty => Raises (.bitsFlip d a f) s .emptySlot
    | .bits n v =>
      if max n (f + 1) ≤ 4096 then Writes (.bitsFlip d a f) s d (.bits (max n (f + 1)) (v ^^^ 2 ^ f))
      else Raises (.bitsFlip d a f) s .widthLimit
    | _ => Raises (.bitsFlip d a f) s .kind

/-- R126 and R127: NEG.NEGATE exchanges NAT and NEG of the same width and magnitude; NEG.ABS gives the NAT. -/
def Obligations.NegateAndAbsKeepTheMagnitude : Prop :=
  DecodesTo 0x30 (fun c => .negNegate (rd c) (rs1 c)) ∧ DecodesTo 0x31 (fun c => .negAbs (rd c) (rs1 c))
  ∧ ∀ (d a : Slot) (s : State),
    match s.slot a with
    | .empty => Raises (.negNegate d a) s .emptySlot ∧ Raises (.negAbs d a) s .emptySlot
    | .nat w v => Writes (.negNegate d a) s d (.neg w v) ∧ Writes (.negAbs d a) s d (.nat w v)
    | .neg w m => Writes (.negNegate d a) s d (.nat w m) ∧ Writes (.negAbs d a) s d (.nat w m)
    | _ => Raises (.negNegate d a) s .kind ∧ Raises (.negAbs d a) s .kind

/-- R133 (at this hardware's DEBUG_ABORT = 0): RI.NEW, its checks in order, and the value it builds. -/
def Obligations.RangedConstructionChecksAndBiases : Prop :=
  DecodesTo 0x40 (fun c => .riNew (rd c) (rs1 c) (rs2 c) (rs3 c))
  ∧ ∀ (d a b c : Slot) (s : State),
    if s.slot a = .empty ∨ s.slot b = .empty ∨ s.slot c = .empty then Raises (.riNew d a b c) s .emptySlot
    else match signedVal (s.slot a), signedVal (s.slot b), signedVal (s.slot c) with
      | some v, some lo, some hi =>
        if hi < lo then Raises (.riNew d a b c) s .bounds
        else if 2 ^ wmax ≤ hi - lo + 1 then Raises (.riNew d a b c) s .widthLimit
        else if v < lo ∨ hi < v then Raises (.riNew d a b c) s .range
        else Writes (.riNew d a b c) s d (.ranged lo hi (v - lo).toNat)
      | _, _, _ => Raises (.riNew d a b c) s .kind

/-- R134 and R138: RI.ADD sums the bounds and the storages, and so the values; a bound or an interval too wide
raises E_WIDTH_LIMIT. -/
def Obligations.RangedAdditionSumsBoundsAndStorages : Prop :=
  DecodesTo 0x41 (fun c => .riAdd (rd c) (rs1 c) (rs2 c))
  ∧ ∀ (d a b : Slot) (s : State),
    match s.slot a, s.slot b with
    | .empty, _ => Raises (.riAdd d a b) s .emptySlot
    | _, .empty => Raises (.riAdd d a b) s .emptySlot
    | .ranged lo hi x, .ranged lo' hi' y =>
      if (lo + lo').natAbs < 2 ^ wmax ∧ (hi + hi').natAbs < 2 ^ wmax ∧ hi + hi' - (lo + lo') + 1 < 2 ^ wmax then
        Writes (.riAdd d a b) s d (.ranged (lo + lo') (hi + hi') (x + y))
          ∧ valOf (.ranged (lo + lo') (hi + hi') (x + y)) = some ((lo + x) + (lo' + y))
      else Raises (.riAdd d a b) s .widthLimit
    | _, _ => Raises (.riAdd d a b) s .kind

/-- R135, R136 and R137: RI.VALUE, RI.BIAS and RI.WIDTH of a legal RANGED value, and their errors. -/
def Obligations.RangedReadsGiveValueBiasAndWidth : Prop :=
  DecodesTo 0x42 (fun c => .riValue (rd c) (rs1 c)) ∧ DecodesTo 0x43 (fun c => .riBias (rd c) (rs1 c))
  ∧ DecodesTo 0x44 (fun c => .riWidth (rd c) (rs1 c))
  ∧ ∀ (d a : Slot) (s : State),
    match s.slot a with
    | .empty => Raises (.riValue d a) s .emptySlot ∧ Raises (.riBias d a) s .emptySlot ∧ Raises (.riWidth d a) s .emptySlot
    | .ranged lo hi x =>
      (∃ p q k, IsBitSize lo.natAbs p ∧ IsBitSize hi.natAbs q ∧ IsBitSize (hi - lo + 1).toNat k
        ∧ Writes (.riValue d a) s d
            (if 0 ≤ lo + x then .nat (max p q) (lo + x).natAbs else .neg (max p q) (lo + x).natAbs)
        ∧ Writes (.riBias d a) s d (.nat k x)
        ∧ Writes (.riWidth d a) s d (.nat 16 k))
    | _ => Raises (.riValue d a) s .kind ∧ Raises (.riBias d a) s .kind ∧ Raises (.riWidth d a) s .kind

/-- R141 and R142: MB.NEW stores its three parts as given; MB.EXTRACT slices them alike. -/
def Obligations.MaskedConstructionAndExtractKeepThePartsTogether : Prop :=
  DecodesTo 0x50 (fun c => .mbNew (rd c) (rs1 c) (rs2 c) (rs3 c))
  ∧ DecodesTo 0x51 (fun c => .mbExtract (rd c) (rs1 c) (p1 c) (p2 c))
  ∧ (∀ (d a b c : Slot) (s : State),
    match s.slot a, s.slot b, s.slot c with
    | .empty, _, _ => Raises (.mbNew d a b c) s .emptySlot
    | _, .empty, _ => Raises (.mbNew d a b c) s .emptySlot
    | _, _, .empty => Raises (.mbNew d a b c) s .emptySlot
    | .bits n x, .bits m y, .bits k z =>
      if m = n ∧ k = n then Writes (.mbNew d a b c) s d (.masked n y z x) else Raises (.mbNew d a b c) s .widthContract
    | _, _, _ => Raises (.mbNew d a b c) s .kind)
  ∧ (∀ (d a : Slot) (high low : Nat) (s : State),
    match s.slot a with
    | .empty => Raises (.mbExtract d a high low) s .emptySlot
    | .masked w mask val rt =>
      if low ≤ high ∧ high < w then
        Writes (.mbExtract d a high low) s d
          (.masked (high - low + 1) (mask / 2 ^ low % 2 ^ (high - low + 1)) (val / 2 ^ low % 2 ^ (high - low + 1))
            (rt / 2 ^ low % 2 ^ (high - low + 1)))
      else Raises (.mbExtract d a high low) s .widthContract
    | _ => Raises (.mbExtract d a high low) s .kind)

/-- R143 and R144: MB.FIXED, and MB.EQ answered from the known value alone when fixed and from the runtime bits when
not, against a NAT or BITS of any width. -/
def Obligations.MaskedEqualityTakesOneOfTwoPaths : Prop :=
  DecodesTo 0x52 (fun c => .mbFixed (rd c) (rs1 c)) ∧ DecodesTo 0x53 (fun c => .mbEq (rd c) (rs1 c) (rs2 c))
  ∧ (∀ (d a : Slot) (s : State),
    match s.slot a with
    | .empty => Raises (.mbFixed d a) s .emptySlot
    | .masked w mask _ _ => Writes (.mbFixed d a) s d (.bits 1 (if mask = 2 ^ w - 1 then 1 else 0))
    | _ => Raises (.mbFixed d a) s .kind)
  ∧ (∀ (d a b : Slot) (s : State),
    match s.slot a, s.slot b with
    | .empty, _ => Raises (.mbEq d a b) s .emptySlot
    | _, .empty => Raises (.mbEq d a b) s .emptySlot
    | .masked w mask val rt, .nat _ c =>
      Writes (.mbEq d a b) s d (.bits 1 (if (if mask = 2 ^ w - 1 then val = c else rt = c) then 1 else 0))
    | .masked w mask val rt, .bits _ c =>
      Writes (.mbEq d a b) s d (.bits 1 (if (if mask = 2 ^ w - 1 then val = c else rt = c) then 1 else 0))
    | _, _ => Raises (.mbEq d a b) s .kind)

/-! ## Laws across instructions -/

/-- R98 and R87: for a legal Nat `a` in slot `a` and `one = NAT(1,1)` in another. Where the successor exists,
`successor(a) − one` and `a` are equal by value and `a − successor(a)` is the NEG of magnitude 1; E_SUCC_OVERFLOW is
raised exactly on the all-ones values whose top limb is not full. `a − a` is zero, `negate(negate(a))` is `a`,
`a + negate(a)` is zero; and a zero-width Nat is the identity of concatenation and, one bit wider, of addition. -/
def Obligations.NatLawsHold : Prop :=
  ∀ (n v : Nat) (s : State) (a one d e : Slot),
    s.slot a = .nat n v → v < 2 ^ n → n ≤ 4096 → s.slot one = .nat 1 1 → d ≠ a → d ≠ one →
    (n < 4096 → v + 1 < 2 ^ succWidth n →
      (∃ t u x, exec (.natSucc d a) s = .next t ∧ exec (.natSub e d one) t = .next u ∧ Wrote e x t u
        ∧ valOf x = some (v : Int))
      ∧ (∃ t u w, exec (.natSucc d a) s = .next t ∧ exec (.natSub e a d) t = .next u ∧ Wrote e (.neg w 1) t u))
    ∧ (2 ^ succWidth n ≤ v + 1 ↔ (v + 1 = 2 ^ n ∧ n % 64 ≠ 0))
    ∧ (2 ^ succWidth n ≤ v + 1 → Raises (.natSucc d a) s .succOverflow)
    ∧ Writes (.natSub d a a) s d (.nat n 0)
    ∧ (∃ t u, exec (.negNegate d a) s = .next t ∧ exec (.negNegate e d) t = .next u ∧ Wrote e (.nat n v) t u)
    ∧ (∃ t u, exec (.negNegate d a) s = .next t ∧ exec (.negAdd e a d) t = .next u ∧ Wrote e (.nat n 0) t u)
    ∧ (s.slot e = .nat 0 0 → Writes (.natConcat d a e) s d (.nat n v) ∧ Writes (.natConcat d e a) s d (.nat n v)
      ∧ (n < 4096 → Writes (.natAdd d a e) s d (.nat (n + 1) v) ∧ Writes (.natAdd d e a) s d (.nat (n + 1) v)))

/-- R130: for every Nat `a`, negating twice gives it back and `a + negate(a)` is zero by value; for every Neg and
Nat, NEG.CMP of the Neg against the Nat is LT unless both are zero, when it is EQ. -/
def Obligations.NegLawsHold : Prop :=
  (∀ (n v : Nat) (s : State) (a d e : Slot), s.slot a = .nat n v → d ≠ a →
    (∃ t u, exec (.negNegate d a) s = .next t ∧ exec (.negNegate e d) t = .next u ∧ Wrote e (.nat n v) t u)
    ∧ (∃ t u x, exec (.negNegate d a) s = .next t ∧ exec (.negAdd e a d) t = .next u ∧ Wrote e x t u
      ∧ valOf x = some 0))
  ∧ (∀ (w m n v : Nat) (s : State) (a b d : Slot), s.slot a = .neg w m → s.slot b = .nat n v →
    Writes (.negCmp d a b) s d (.bits 2 (if m = 0 ∧ v = 0 then 0b00 else 0b11)))

/-- R120: the laws of the Bits family, through the commands themselves: the width of a concatenation; its halves
extracted and concatenated again give it back; the width of an extract; zero extension then trim is the identity;
sign extension preserves the sign reading. -/
def Obligations.BitsLawsHold : Prop :=
  (∀ (m n u v : Nat) (s : State) (a b c : Slot), s.slot a = .bits m u → s.slot b = .bits n v → m + n ≤ 4096 →
    ∃ t, exec (.bitsConcat c a b) s = .next t ∧ widthOf (t.slot c) = m + n ∧ t.status = s.status)
  ∧ (∀ (n v high low : Nat) (s : State) (a c : Slot), s.slot a = .bits n v → low ≤ high → high < n →
    ∃ t, exec (.bitsExtract c a high low) s = .next t ∧ widthOf (t.slot c) = high - low + 1 ∧ t.status = s.status)
  ∧ (∀ (m n u v : Nat) (s : State) (a b c x y z : Slot), s.slot a = .bits m u → s.slot b = .bits n v →
    u < 2 ^ m → v < 2 ^ n → m + n ≤ 4096 → 1 ≤ m → 1 ≤ n → x ≠ c → y ≠ x →
    ∃ s₁ s₂ s₃ s₄, exec (.bitsConcat c a b) s = .next s₁ ∧ exec (.bitsExtract x c (m + n - 1) n) s₁ = .next s₂
      ∧ exec (.bitsExtract y c (n - 1) 0) s₂ = .next s₃ ∧ exec (.bitsConcat z x y) s₃ = .next s₄
      ∧ widthOf (s₁.slot c) = m + n ∧ s₄.slot z = s₁.slot c ∧ s₂.slot x = .bits m u ∧ s₃.slot y = .bits n v
      ∧ s₄.status = s.status)
  ∧ (∀ (n v w : Nat) (s : State) (a x y : Slot), s.slot a = .bits n v → v < 2 ^ n → n ≤ w → w ≤ 4096 →
    ∃ s₁ s₂, exec (.bitsZext x a w) s = .next s₁ ∧ exec (.bitsTrim y x n) s₁ = .next s₂
      ∧ s₂.slot y = .bits n v ∧ s₂.status = s.status)
  ∧ (∀ (n v w : Nat) (s : State) (a x y z : Slot), s.slot a = .bits n v → v < 2 ^ n → 1 ≤ n → n ≤ w → w ≤ 4096 →
    x ≠ a → y ≠ x →
    ∃ s₁ s₂ s₃, exec (.bitsSext x a w) s = .next s₁ ∧ exec (.bitsSign y a) s₁ = .next s₂
      ∧ exec (.bitsSign z x) s₂ = .next s₃ ∧ s₃.slot z = s₂.slot y ∧ s₃.status = s.status)

/-- R147: extracting bit [31,31] of a 32-bit MaskedBits with mask and value 0x80000000 equals 1 whatever the runtime
bits are, bit 31 among them. And, of R146, what the commands that take a MASKED operand apart do: of two legal MASKED
values that differ only in known-value bits outside the mask, MB.FIXED and MB.EQ answer the same, and MB.EXTRACT
gives values that again differ only there. -/
def Obligations.MaskedResultsIgnoreWhatIsNotKnown : Prop :=
  (∀ (w mask val val' rt high low : Nat) (c : Value),
    mask < 2 ^ w → val < 2 ^ w → val' < 2 ^ w → val &&& mask = val' &&& mask →
    mbFixed (.masked w mask val rt) = mbFixed (.masked w mask val' rt)
    ∧ mbEq (.masked w mask val rt) c = mbEq (.masked w mask val' rt) c
    ∧ (low ≤ high → high < w → ∃ n m k k' b, mbExtract high low (.masked w mask val rt) = .ok (.masked n m k b)
        ∧ mbExtract high low (.masked w mask val' rt) = .ok (.masked n m k' b) ∧ k &&& m = k' &&& m))
  ∧ (∀ (r : Nat) (s : State) (x1 x2 x3 x4 x5 x6 : Slot),
    s.slot x1 = .bits 32 r → s.slot x2 = .bits 32 0x80000000 → s.slot x5 = .nat 1 1 → x3 ≠ x5 → x4 ≠ x5 →
    ∃ s₁ s₂ s₃, exec (.mbNew x3 x1 x2 x2) s = .next s₁ ∧ exec (.mbExtract x4 x3 31 31) s₁ = .next s₂
      ∧ exec (.mbEq x6 x4 x5) s₂ = .next s₃ ∧ Wrote x6 (.bits 1 1) s₂ s₃)

/-- R153: with DEBUG_ABORT = 1 an out-of-range construction inside legal bounds is fatal, with 0 recoverable, and
every other result of RI.NEW, and every result of the other operations that read a parameter, is the same in both
builds; and so it is with the instructions: every one but RI.NEW has the same outcome in both builds, and RI.NEW of an
integer outside legal bounds takes the fatal E_RANGE in one and the recoverable in the other. This hardware's value
is 0. -/
def Obligations.DebugAbortMakesOnlyRangeFatal : Prop :=
  Config.natUnit.debugAbort = false
  ∧ ∀ (wmax depth k imm : Nat) (x y mn mx : Value) (debug : Bool),
    (natLi ⟨wmax, depth, debug⟩ k imm = natLi ⟨wmax, depth, false⟩ k imm
      ∧ natSucc ⟨wmax, depth, debug⟩ x = natSucc ⟨wmax, depth, false⟩ x
      ∧ natAdd ⟨wmax, depth, debug⟩ x y = natAdd ⟨wmax, depth, false⟩ x y
      ∧ natShl ⟨wmax, depth, debug⟩ k x = natShl ⟨wmax, depth, false⟩ k x
      ∧ natConcat ⟨wmax, depth, debug⟩ x y = natConcat ⟨wmax, depth, false⟩ x y
      ∧ bitsLi ⟨wmax, depth, debug⟩ k imm = bitsLi ⟨wmax, depth, false⟩ k imm
      ∧ bitsConcat ⟨wmax, depth, debug⟩ x y = bitsConcat ⟨wmax, depth, false⟩ x y
      ∧ bitsZext ⟨wmax, depth, debug⟩ k x = bitsZext ⟨wmax, depth, false⟩ k x
      ∧ bitsSext ⟨wmax, depth, debug⟩ k x = bitsSext ⟨wmax, depth, false⟩ k x
      ∧ bitsSucc ⟨wmax, depth, debug⟩ x = bitsSucc ⟨wmax, depth, false⟩ x
      ∧ bitsFlip ⟨wmax, depth, debug⟩ k x = bitsFlip ⟨wmax, depth, false⟩ k x
      ∧ bitsAdd ⟨wmax, depth, debug⟩ x y = bitsAdd ⟨wmax, depth, false⟩ x y
      ∧ riAdd ⟨wmax, depth, debug⟩ x y = riAdd ⟨wmax, depth, false⟩ x y)
    ∧ (riNew ⟨wmax, depth, false⟩ x mn mx = .error (.error .range)
      ↔ riNew ⟨wmax, depth, true⟩ x mn mx = .error (.fatal .range))
    ∧ (riNew ⟨wmax, depth, false⟩ x mn mx ≠ .error (.error .range) →
        riNew ⟨wmax, depth, true⟩ x mn mx = riNew ⟨wmax, depth, false⟩ x mn mx)
    ∧ (∀ (i : Instr) (s : State), (∀ d a b c, i ≠ .riNew d a b c) →
        execIn ⟨wmax, depth, debug⟩ i s = execIn ⟨wmax, depth, false⟩ i s)
    ∧ (∀ (d a b c : Slot) (s : State) (v lo hi : Int), signedVal (s.slot a) = some v → signedVal (s.slot b) = some lo →
        signedVal (s.slot c) = some hi → lo ≤ hi → hi - lo + 1 < 2 ^ wmax → v < lo ∨ hi < v →
        (∃ t, execIn ⟨wmax, depth, true⟩ (.riNew d a b c) s = .next t ∧ ErredFatally .range s t)
          ∧ (∃ t, execIn ⟨wmax, depth, false⟩ (.riNew d a b c) s = .next t ∧ Erred .range s t))

/-! ## The limb datapaths give the values -/

/-- R100: the carry-propagate adder on the limb images of two payloads gives the limb image of their sum at width
`max(N, M) + 1`, and its final carry is 0. -/
def Obligations.AdderGivesTheSum : Prop :=
  ∀ n m u v : Nat, u < 2 ^ n → v < 2 ^ m →
    addLimbs n m (limbs n u) (limbs m v) = (limbs (max n m + 1) (u + v), 0)

/-- R100 and C3: the two-step form of one limb's addition gives the exact wrapped sum and carry; the source's
parenthetical test is exact without a carry-in, and with one it misses the carry at all-ones operands. -/
def Obligations.TwoStepCarryIsExact : Prop :=
  (∀ (x y : Word) (c : Bool),
    (addLimbTwoStep x y c).1.toNat = (x.toNat + y.toNat + c.toNat) % 2 ^ 64
    ∧ ((addLimbTwoStep x y c).2 = true ↔ 2 ^ 64 ≤ x.toNat + y.toNat + c.toNat))
  ∧ (∀ x y : Word, naiveCarry x y false = true ↔ 2 ^ 64 ≤ x.toNat + y.toNat)
  ∧ (∀ x y : Word, (naiveCarry x y true = true ↔ 2 ^ 64 ≤ x.toNat + y.toNat + 1)
      ↔ ¬(x.toNat = 2 ^ 64 - 1 ∧ y.toNat = 2 ^ 64 - 1))

/-- R101: the borrow subtractor on the larger and the smaller payload gives the limb image of their difference, and
its final borrow is 0. -/
def Obligations.SubtractorGivesTheDifference : Prop :=
  ∀ n m p q : Nat, p < 2 ^ n → q < 2 ^ m → q ≤ p →
    subLimbs (max n m) (limbs n p) (limbs m q) = (limbs (max n m) (p - q), 0)

/-- R102: the magnitude comparator orders two limb images as their payloads are ordered, whatever their widths. -/
def Obligations.ComparatorOrdersTheValues : Prop :=
  ∀ n m u v : Nat, u < 2 ^ n → v < 2 ^ m →
    (compareLimbs (limbs n u) (limbs m v) = .lt ↔ u < v)
    ∧ (compareLimbs (limbs n u) (limbs m v) = .eq ↔ u = v)
    ∧ (compareLimbs (limbs n u) (limbs m v) = .gt ↔ u > v)

/-- R103: the shift pipelines give the limb images of `v * 2^k` at width `N + k` and of `v div 2^k` at width
`max(N − k, 0)`. -/
def Obligations.ShiftPipelinesGiveTheShiftedValues : Prop :=
  ∀ n k v : Nat, v < 2 ^ n →
    shiftLeftLimbs (n + k) k (limbs n v) = limbs (n + k) (v * 2 ^ k)
    ∧ shiftRightLimbs (n - k) k (limbs n v) = limbs (n - k) (v / 2 ^ k)

/-- R104: the leading-zero count gives bit_size, and the cascading increment gives the successor at the width of
R84 wherever it fits. -/
def Obligations.LeadingZeroCountAndIncrementAreExact : Prop :=
  ∀ n v : Nat, v < 2 ^ n →
    IsBitSize v (bitSizeLimbs (limbs n v))
    ∧ (v + 1 < 2 ^ succWidth n → successorLimbs n (limbs n v) = limbs (succWidth n) (v + 1))

/-- R121: the extract pipeline gives the limb image of the field `[high:low]`. -/
def Obligations.ExtractPipelineGivesTheField : Prop :=
  ∀ n v high low : Nat, v < 2 ^ n → low ≤ high → high < n →
    extractLimbs high low (limbs n v) = limbs (high - low + 1) (v / 2 ^ low % 2 ^ (high - low + 1))

/-- R122: the concat pipeline gives the limb image of `{a, b}`. -/
def Obligations.ConcatPipelineGivesTheConcatenation : Prop :=
  ∀ m n u v : Nat, u < 2 ^ m → v < 2 ^ n →
    concatLimbs m n (limbs m u) (limbs n v) = limbs (m + n) (u * 2 ^ n + v)

/-- R123: the extension and trim datapaths give the limb images of the extended and the truncated values. -/
def Obligations.ExtensionAndTrimDatapathsAreExact : Prop :=
  ∀ n t v : Nat, v < 2 ^ n →
    (n ≤ t → zeroExtendLimbs n t (limbs n v) = limbs t v)
    ∧ (n ≤ t → signExtendLimbs n t (limbs n v)
        = limbs t (if 1 ≤ n ∧ v.testBit (n - 1) = true then v + (2 ^ t - 2 ^ n) else v))
    ∧ (t ≤ n → trimLimbs t (limbs n v) = limbs t (v % 2 ^ t))

/-- R124: the flip datapath gives the limb image of the value with bit F inverted, at width `max(N, F + 1)`. -/
def Obligations.FlipDatapathInvertsTheBit : Prop :=
  ∀ n f v : Nat, v < 2 ^ n → flipLimbs n f (limbs n v) = limbs (max n (f + 1)) (v ^^^ 2 ^ f)

/-- R139: RI.ADD's storage datapath gives the limb image of the summed storage at the new width, which is the wider
operand's width or one more. -/
def Obligations.RangedAdditionDatapathIsExact : Prop :=
  ∀ (lo hi lo' hi' : Int) (x y : Nat), lo ≤ hi → lo' ≤ hi' → (x : Int) ≤ hi - lo → (y : Int) ≤ hi' - lo' →
    rangedAddLimbs (rangedWidth lo hi) (rangedWidth lo' hi') (rangedWidth (lo + lo') (hi + hi'))
        (limbs (rangedWidth lo hi) x) (limbs (rangedWidth lo' hi') y)
      = limbs (rangedWidth (lo + lo') (hi + hi')) (x + y)
    ∧ (rangedWidth (lo + lo') (hi + hi') = max (rangedWidth lo hi) (rangedWidth lo' hi')
      ∨ rangedWidth (lo + lo') (hi + hi') = max (rangedWidth lo hi) (rangedWidth lo' hi') + 1)
end

