-- ==== Sys2Proof/Laws/Arith.lean ====
section
/-! SUPPORT. What the arithmetic of the rules does: bit size, limbs, comparison. -/

namespace Sys2Proof.Machine

/-- A value fits `n` bits exactly when its bit size is at most `n` (R12). -/
theorem bitSize_le_iff (v n : Nat) : bitSize v ≤ n ↔ v < 2 ^ n := by
  unfold bitSize
  split
  · next h => subst h; simp
  · next h => rw [Nat.add_one_le_iff, Nat.log2_lt h]

/-- Every value fits its own bit size (R12). -/
theorem lt_two_pow_bitSize (v : Nat) : v < 2 ^ bitSize v := (bitSize_le_iff v _).mp le_rfl

/-- The highest set bit of a non-zero value is below its bit size (R12). -/
theorem two_pow_le_of_pos (v : Nat) (h : 1 ≤ v) : 1 ≤ bitSize v ∧ 2 ^ (bitSize v - 1) ≤ v := by
  have h0 : v ≠ 0 := by omega
  constructor
  · simp [bitSize, h0]
  · simp [bitSize, h0, Nat.log2_self_le h0]

theorem bitSize_mono (u v : Nat) (h : u ≤ v) : bitSize u ≤ bitSize v :=
  (bitSize_le_iff u _).mpr (lt_of_le_of_lt h (lt_two_pow_bitSize v))

/-- A magnitude fits `n` bits exactly when its magnitude width is at most `n` (R12). -/
theorem magWidth_le_iff (z : Int) (n : Nat) : magWidth z ≤ n ↔ z.natAbs < 2 ^ n := bitSize_le_iff _ _

/-- A RangedInt's storage fits its storage width (R29, R132). -/
theorem storage_lt (lo hi : Int) (s : Nat) (h : (s : Int) ≤ hi - lo) : s < 2 ^ rangedWidth lo hi := by
  have := lt_two_pow_bitSize (hi - lo + 1).toNat
  unfold rangedWidth
  omega

/-- The storage width is at least 1 (R29). -/
theorem one_le_rangedWidth (lo hi : Int) (h : lo ≤ hi) : 1 ≤ rangedWidth lo hi :=
  (two_pow_le_of_pos _ (by omega)).1

/-- How many limbs a limb image has (R28). -/
@[simp] theorem limbs_length (w p : Nat) : (limbs w p).length = limbCount w := by simp [limbs]

/-- What limb `i` of a limb image is (R28). -/
theorem limbAt_limbs (w p i : Nat) :
    limbAt (limbs w p) i = if i < limbCount w then p / 2 ^ (64 * i) % 2 ^ 64 else 0 := by
  unfold limbAt limbs
  by_cases h : i < limbCount w
  · simp [h]
  · simp [h]

/-- `L(w)` limbs hold `w` bits. -/
theorem le_limbCount (w : Nat) : w ≤ 64 * limbCount w := by
  unfold limbCount
  omega

/-- Every limb index of a `w`-bit value begins below bit `w`. -/
theorem limbCount_lt (w i : Nat) (h : i < limbCount w) : 64 * i < w := by
  unfold limbCount at h
  omega

/-- The outcome of a comparison says which of the three orders holds (R15). -/
theorem ord_cases (a b : Int) :
    (ord a b = .lt ∧ a < b) ∨ (ord a b = .eq ∧ a = b) ∨ (ord a b = .gt ∧ a > b) := by
  unfold ord
  by_cases h : a < b
  · simp [h]
  · by_cases h2 : a = b
    · simp [h2]
    · refine .inr (.inr ⟨by simp [h, h2], by omega⟩)

/-- ERRCNT counts errors and saturates at 0xFFFF (R152). -/
theorem countError_toNat (n : BitVec 16) : (countError n).toNat = min (n.toNat + 1) 0xFFFF := by
  unfold countError
  by_cases h : n = 0xFFFF
  · subst h
    rfl
  · have hn : n.toNat ≠ 0xFFFF := fun e => h (BitVec.eq_of_toNat_eq (by simpa using e))
    have := n.isLt
    simp only [h, if_false, BitVec.toNat_add]
    simp
    omega

/-- Every cause has a code from 1 to 10 (R149). -/
theorem causeCode_range (c : Cause) : 1 ≤ (causeCode c).toNat ∧ (causeCode c).toNat ≤ 0x0A := by
  cases c <;> decide

/-- Only F_ZERO_INVARIANT has the code 0x0A (R149). -/
theorem causeCode_eq_ten (c : Cause) : causeCode c = 0x0A ↔ c = .zeroInvariant := by cases c <;> decide

end Sys2Proof.Machine
end

