-- ==== Sys2Proof/Laws/Decode.lean ====
section
/-! SUPPORT. The fields of a packed command, and the fields as bit ranges of the command. -/

namespace Sys2Proof

/-- A field is the bit range of the command it names (R9). -/
theorem bitField_eq_extract (c : Command) (lo width : Nat) :
    bitField lo width c.toNat = (c.extractLsb' lo width).toNat := by
  simp [bitField, BitVec.extractLsb'_toNat, Nat.shiftRight_eq_div_pow]

/-- A slot field is the 4-bit range of the command it names (R63). -/
theorem slotField_eq_extract (c : Command) (lo : Nat) : slotField lo c.toNat = (c.extractLsb' lo 4).toFin := by
  apply Fin.ext
  have h := (c.extractLsb' lo 4).isLt
  simp only [slotField, bitField_eq_extract, Fin.ofNat]
  exact Nat.mod_eq_of_lt h

/-- A slot field of a command is the 4-bit field's value (R63). -/
theorem slotField_val (lo v : Nat) : (slotField lo v).val = v / 2 ^ lo % 16 := by
  simp [slotField, bitField, Fin.ofNat]

/-- The fields of a packed command are the ones packed (R60, R72). -/
theorem fieldsOf_pack (opc : Nat) (rd rs1 rs2 rs3 : Slot) (p1 p2 imm : Nat) (h0 : opc < 2 ^ 8)
    (h1 : p1 < 2 ^ 16) (h2 : p2 < 2 ^ 16) (h3 : imm < 2 ^ 64) :
    fieldsOf (pack opc rd rs1 rs2 rs3 p1 p2 imm)
      = { opc := opc, rd := rd, rs1 := rs1, rs2 := rs2, rs3 := rs3, p1 := p1, p2 := p2, rsv := 0, imm := imm } := by
  have e : (pack opc rd rs1 rs2 rs3 p1 p2 imm).toNat
      = opc + rd.val * 2 ^ 8 + rs1.val * 2 ^ 12 + rs2.val * 2 ^ 16 + rs3.val * 2 ^ 20
        + p1 * 2 ^ 24 + p2 * 2 ^ 40 + imm * 2 ^ 64 := by
    simp only [pack, BitVec.toNat_ofNat]
    apply Nat.mod_eq_of_lt
    omega
  simp only [fieldsOf, Fields.mk.injEq, e, bitField]
  refine ⟨?_, Fin.ext ?_, Fin.ext ?_, Fin.ext ?_, Fin.ext ?_, ?_, ?_, ?_, ?_⟩ <;>
    first | (rw [slotField_val]; omega) | omega

/-- The fields of a packed command with an ill-formed parameter keep at least the opcode: it is the lowest field. -/
theorem opc_pack (opc : Nat) (rd rs1 rs2 rs3 : Slot) (p1 p2 imm : Nat) (h0 : opc < 2 ^ 8) :
    (fieldsOf (pack opc rd rs1 rs2 rs3 p1 p2 imm)).opc = opc := by
  simp only [fieldsOf, bitField, pack, BitVec.toNat_ofNat]
  omega

end Sys2Proof
end

