-- ==== Sys2Proof/Laws/HostPort.lean ====
section
/-! SUPPORT. Commands and their two transported words. -/

namespace Sys2Proof.Machine

/-- A command's number is word 0 plus 2^64 times word 1 (R51, R59). -/
theorem commandOfWords_toNat (word0 word1 : Word) :
    (commandOfWords word0 word1).toNat = word0.toNat + 2 ^ 64 * word1.toNat := by
  show (word1 ++ word0 : BitVec (64 + 64)).toNat = _
  rw [BitVec.toNat_append, ← Nat.shiftLeft_add_eq_or_of_lt word0.isLt, Nat.shiftLeft_eq]
  omega

/-- Word 0 of a command made of two words (R51). -/
@[simp] theorem commandOfWords_word0 (word0 word1 : Word) :
    (commandOfWords word0 word1).extractLsb' 0 64 = word0 := by
  apply BitVec.eq_of_toNat_eq
  rw [BitVec.extractLsb'_toNat, commandOfWords_toNat]
  have := word0.isLt
  omega

/-- Word 1 of a command made of two words (R51). -/
@[simp] theorem commandOfWords_word1 (word0 word1 : Word) :
    (commandOfWords word0 word1).extractLsb' 64 64 = word1 := by
  apply BitVec.eq_of_toNat_eq
  rw [BitVec.extractLsb'_toNat, commandOfWords_toNat, Nat.shiftRight_eq_div_pow]
  have := word0.isLt
  have := word1.isLt
  omega

/-- The words of a command made of two words are those, word 0 first (R51). -/
@[simp] theorem commandWords_commandOfWords (word0 word1 : Word) :
    commandWords (commandOfWords word0 word1) = [word0, word1] := by simp [commandWords]

/-- Joining the two words of a command gives it back (R51). -/
theorem commandOfWords_of_words (c : Command) : commandOfWords (c.extractLsb' 0 64) (c.extractLsb' 64 64) = c := by
  apply BitVec.eq_of_toNat_eq
  rw [commandOfWords_toNat, BitVec.extractLsb'_toNat, BitVec.extractLsb'_toNat, Nat.shiftRight_eq_div_pow,
    Nat.shiftRight_eq_div_pow]
  have := c.isLt
  omega

/-- Pushing the two words of a command is pushing the command (R39, R51). -/
@[simp] theorem hostPushWords_commandWords (cfg : Config) (c : Command) (s : State) :
    hostPushWords cfg (commandWords c) s = hostPush cfg c s := by
  simp only [hostPushWords, commandWords, commandOfWords_of_words]

end Sys2Proof.Machine
end

