-- ==== Sys2Proof/Laws/State.lean ====
section
/-! SUPPORT. What each update of the state does to each field, and what a slot reads as after a write. -/

namespace Sys2Proof.Machine

@[simp] theorem writeSlot_status (rd : Slot) (v : Value) (s : State) : (writeSlot rd v s).status = s.status := rfl
@[simp] theorem writeSlot_seq (rd : Slot) (v : Value) (s : State) : (writeSlot rd v s).seq = s.seq := rfl
@[simp] theorem writeSlot_queue (rd : Slot) (v : Value) (s : State) : (writeSlot rd v s).queue = s.queue := rfl

@[simp] theorem writeSlot_slot_self (rd : Slot) (v : Value) (s : State) : (writeSlot rd v s).slot rd = v := by
  simp [State.slot, writeSlot]

theorem writeSlot_slot_other (rd r : Slot) (v : Value) (s : State) (h : r ≠ rd) :
    (writeSlot rd v s).slot r = s.slot r := by
  have hv : (rd : Nat) ≠ (r : Nat) := fun e => h (Fin.ext e.symm)
  simp [State.slot, writeSlot, Vector.getElem_set_ne _ _ hv]

theorem writeSlot_slot (rd r : Slot) (v : Value) (s : State) :
    (writeSlot rd v s).slot r = if r = rd then v else s.slot r := by
  by_cases h : r = rd
  · subst h
    simp
  · simp [h, writeSlot_slot_other]

@[simp] theorem advanceSeq_slots (s : State) : (advanceSeq s).slots = s.slots := rfl
@[simp] theorem advanceSeq_slot (s : State) (r : Slot) : (advanceSeq s).slot r = s.slot r := rfl
@[simp] theorem advanceSeq_status (s : State) : (advanceSeq s).status = s.status := rfl
@[simp] theorem advanceSeq_seq (s : State) : (advanceSeq s).seq = s.seq + 1 := rfl
@[simp] theorem advanceSeq_queue (s : State) : (advanceSeq s).queue = s.queue := rfl

@[simp] theorem takeError_slots (r : Raised) (s : State) : (takeError r s).slots = s.slots := by cases r <;> rfl
@[simp] theorem takeError_slot (r : Raised) (s : State) (i : Slot) : (takeError r s).slot i = s.slot i := by
  cases r <;> rfl
@[simp] theorem takeError_seq (r : Raised) (s : State) : (takeError r s).seq = s.seq := by cases r <;> rfl
@[simp] theorem takeError_queue (r : Raised) (s : State) : (takeError r s).queue = s.queue := by cases r <;> rfl
@[simp] theorem takeError_error_status (c : Cause) (s : State) :
    (takeError (.error c) s).status = recordError c false s.seq s.status := rfl
@[simp] theorem takeError_fatal_status (c : Cause) (s : State) :
    (takeError (.fatal c) s).status
      = { recordError c true s.seq s.status with fatal := true, halted := true } := rfl

/-- Replacing the queue leaves the slots as they were. -/
@[simp] theorem withQueue_slot (s : State) (q : List Command) (r : Slot) :
    ({ s with queue := q } : State).slot r = s.slot r := rfl

@[simp] theorem reset_slot (r : Slot) : State.reset.slot r = .empty := by
  simp [State.slot, State.reset]

/-- A state is well formed exactly when each slot, STATUS and the queue are. -/
theorem state_wf_iff (cfg : Config) (s : State) :
    s.wf cfg = true ↔
      (∀ r, (s.slot r).wf cfg = true) ∧ s.status.wf cfg = true ∧ s.queue.length ≤ cfg.cqDepth := by
  have hall : s.slots.toList.all (Value.wf cfg) = true ↔ ∀ r, (s.slot r).wf cfg = true := by
    rw [List.all_eq_true]
    constructor
    · intro h r
      exact h _ (by simp [State.slot])
    · intro h x hx
      obtain ⟨i, hi, rfl⟩ := List.getElem_of_mem hx
      have hi' : i < 16 := by simpa using hi
      simpa [State.slot] using h ⟨i, hi'⟩
  simp only [State.wf, Bool.and_eq_true, hall, decide_eq_true_eq, and_assoc]

/-- The invariant of a state whose slots, STATUS and queue length are those of a well-formed one. -/
theorem state_wf_congr (cfg : Config) (s t : State) (hs : t.slots = s.slots) (hst : t.status = s.status)
    (hq : t.queue.length ≤ s.queue.length) (h : s.wf cfg = true) : t.wf cfg = true := by
  rw [state_wf_iff] at h ⊢
  obtain ⟨h1, h2, h3⟩ := h
  refine ⟨fun r => ?_, hst ▸ h2, le_trans hq h3⟩
  simpa [State.slot, hs] using h1 r

end Sys2Proof.Machine
end

