-- ==== Sys2Proof/Laws/Ops.lean ====
section
/-! SUPPORT. One lemma per shared operation that says once everything it can do. -/

namespace Sys2Proof.Machine

/-- Reading a slot answers its value, or E_EMPTY_SLOT (R14). -/
theorem readSlot_eq (s : State) (r : Slot) :
    readSlot s r = if s.slot r = .empty then .error (.error .emptySlot) else .ok (s.slot r) := by
  unfold readSlot
  cases h : s.slot r <;> simp

/-- An operation on one source: E_EMPTY_SLOT if the source is EMPTY, else the operation's own result (R154). -/
theorem onOne_eq (s : State) (a : Slot) (op : Value → Except Raised Value) :
    onOne s a op = if s.slot a = .empty then .error (.error .emptySlot) else op (s.slot a) := by
  unfold onOne
  rw [readSlot_eq]
  split <;> rfl

/-- An operation on two sources: E_EMPTY_SLOT if one is EMPTY, else the operation's own result (R154). -/
theorem onTwo_eq (s : State) (a b : Slot) (op : Value → Value → Except Raised Value) :
    onTwo s a b op =
      if s.slot a = .empty ∨ s.slot b = .empty then .error (.error .emptySlot) else op (s.slot a) (s.slot b) := by
  unfold onTwo
  rw [readSlot_eq, readSlot_eq]
  by_cases ha : s.slot a = .empty
  · simp only [ha, if_true, true_or]
    rfl
  · by_cases hb : s.slot b = .empty
    · simp only [ha, hb, if_true, if_false, or_true]
      rfl
    · simp only [ha, hb, if_false, or_self]
      rfl

/-- An operation on three sources: E_EMPTY_SLOT if one is EMPTY, else the operation's own result (R154). -/
theorem onThree_eq (s : State) (a b c : Slot) (op : Value → Value → Value → Except Raised Value) :
    onThree s a b c op =
      if s.slot a = .empty ∨ s.slot b = .empty ∨ s.slot c = .empty then .error (.error .emptySlot)
      else op (s.slot a) (s.slot b) (s.slot c) := by
  unfold onThree
  rw [readSlot_eq, readSlot_eq, readSlot_eq]
  by_cases ha : s.slot a = .empty
  · simp only [ha, if_true, true_or]
    rfl
  · by_cases hb : s.slot b = .empty
    · simp only [ha, hb, if_true, if_false, true_or, or_true]
      rfl
    · by_cases hc : s.slot c = .empty
      · simp only [ha, hb, hc, if_true, if_false, or_true]
        rfl
      · simp only [ha, hb, hc, if_false, or_self]
        rfl

/-- A check that holds changes nothing (R14). -/
theorem require_ok (p : Prop) [Decidable p] (c : Cause) (h : p) : require p c = .ok () := by simp [require, h]

/-- A check that fails raises its cause (R14). -/
theorem require_error (p : Prop) [Decidable p] (c : Cause) (h : ¬p) : require p c = .error (.error c) := by
  simp [require, h]

/-- A check in a sequence: the rest runs, or the cause is raised (R14). -/
theorem require_bind {β : Type} (p : Prop) [Decidable p] (c : Cause) (f : Unit → Except Raised β) :
    (require p c >>= f) = if p then f () else .error (.error c) := by
  unfold require
  split <;> rfl

/-- A value in a sequence goes to the rest. -/
theorem ok_bind {α β : Type} (a : α) (f : α → Except Raised β) : ((.ok a : Except Raised α) >>= f) = f a := rfl

/-- An error in a sequence ends it. -/
theorem error_bind {α β : Type} (e : Raised) (f : α → Except Raised β) :
    ((.error e : Except Raised α) >>= f) = .error e := rfl

/-- Recording an error does what R152 says. -/
theorem recordError_recorded (c : Cause) (fatal : Bool) (seq : BitVec 32) (st : Status) :
    Recorded c fatal seq st (recordError c fatal seq st) := by
  refine ⟨rfl, countError_toNat _, fun h => ?_, fun h1 h2 => ?_⟩
  · simp [recordError, h]
  · simp [recordError, h1, h2]

/-- Finishing with a value writes it and changes nothing else but SEQ (R38). -/
theorem finish_ok_wrote (rd : Slot) (v : Value) (s : State) : Wrote rd v s (finish rd (.ok v) s) := by
  refine ⟨by simp [finish], fun r h => ?_, rfl, rfl, rfl⟩
  simp [finish, writeSlot_slot_other rd r v s h]

/-- Finishing with a recoverable error takes it (R150). -/
theorem finish_error_erred (rd : Slot) (c : Cause) (s : State) :
    Erred c s (finish rd (.error (.error c)) s) :=
  ⟨rfl, recordError_recorded c false s.seq s.status, rfl, rfl, rfl, rfl⟩

/-- Finishing with a fatal error takes it (R151). -/
theorem finish_fatal_erred (rd : Slot) (c : Cause) (s : State) :
    ErredFatally c s (finish rd (.error (.fatal c)) s) :=
  ⟨rfl, recordError_recorded c true s.seq s.status, rfl, rfl, rfl, rfl⟩

/-- A command that finishes with a value writes it. -/
theorem writes_of_finish {i : Instr} {s : State} {d : Slot} {v : Value} {r : Except Raised Value}
    (h : exec i s = .next (finish d r s)) (hr : r = .ok v) : Writes i s d v :=
  ⟨_, h, hr ▸ finish_ok_wrote d v s⟩

/-- A command that finishes with a recoverable error raises it. -/
theorem raises_of_finish {i : Instr} {s : State} {d : Slot} {c : Cause} {r : Except Raised Value}
    (h : exec i s = .next (finish d r s)) (hr : r = .error (.error c)) : Raises i s c :=
  ⟨_, h, hr ▸ finish_error_erred d c s⟩

/-- A command that finishes with a fatal error raises it. -/
theorem raisesFatal_of_finish {i : Instr} {s : State} {d : Slot} {c : Cause} {r : Except Raised Value}
    (h : exec i s = .next (finish d r s)) (hr : r = .error (.fatal c)) : RaisesFatal i s c :=
  ⟨_, h, hr ▸ finish_fatal_erred d c s⟩

/-- A rejected command takes its decode error (R66, R68). -/
theorem finishRejected_erred (c : Cause) (s : State) : Erred c s (finishRejected c s) :=
  ⟨rfl, recordError_recorded c false s.seq s.status, rfl, rfl, rfl, rfl⟩

/-- Whatever the result, finishing touches no slot but `rd`, keeps the queue and advances SEQ (R38, R159). -/
theorem finish_frame (rd : Slot) (x : Except Raised Value) (s : State) :
    (∀ r, r ≠ rd → (finish rd x s).slot r = s.slot r) ∧ (finish rd x s).queue = s.queue
      ∧ (finish rd x s).seq = s.seq + 1 := by
  cases x with
  | ok v => exact ⟨(finish_ok_wrote rd v s).2.1, rfl, rfl⟩
  | error e => exact ⟨fun r _ => by simp [finish], by simp [finish], by simp [finish]⟩

/-- What a successor can be (R84, R114). -/
theorem successor_eq (cfg : Config) (a : Sized) :
    successor cfg a =
      if (if a.width % 64 = 0 then a.width + 1 else a.width) ≤ cfg.wmax then
        if a.value + 1 < 2 ^ (if a.width % 64 = 0 then a.width + 1 else a.width) then
          .ok ⟨if a.width % 64 = 0 then a.width + 1 else a.width, a.value + 1⟩
        else .error (.error .succOverflow)
      else .error (.error .widthLimit) := by
  simp only [successor, require_bind]
  rfl

/-- What a sum can be (R85, R117). -/
theorem sum_eq (cfg : Config) (a b : Sized) :
    sum cfg a b =
      if max a.width b.width + 1 ≤ cfg.wmax then .ok ⟨max a.width b.width + 1, a.value + b.value⟩
      else .error (.error .widthLimit) := by
  simp only [sum, require_bind]
  rfl

/-- What a concatenation can be (R96, R107). -/
theorem concat_eq (cfg : Config) (a b : Sized) :
    concat cfg a b =
      if a.width + b.width ≤ cfg.wmax then .ok ⟨a.width + b.width, a.value * 2 ^ b.width + b.value⟩
      else .error (.error .widthLimit) := by
  simp only [concat, require_bind, concatVal]
  rfl

/-- What a construction can be (R83, R106). -/
theorem construct_eq (cfg : Config) (w imm : Nat) :
    construct cfg w imm = if w ≤ cfg.wmax then .ok ⟨w, imm % 2 ^ w⟩ else .error (.error .widthLimit) := by
  simp only [construct, require_bind]
  rfl

/-- A difference stands for `u − m` (R90, R129). -/
theorem valOf_difference (w u m : Nat) : valOf (difference w u m) = some ((u : Int) - m) := by
  unfold difference
  split <;> simp [valOf] <;> omega

/-- A difference of payloads below `2^w` is a well-formed value of width `w` (R89). -/
theorem difference_wf (cfg : Config) (w u m : Nat) (hw : w ≤ cfg.wmax) (hu : u < 2 ^ w) (hm : m < 2 ^ w) :
    (difference w u m).wf cfg = true := by
  unfold difference
  split <;> simp [Value.wf, hw] <;> omega

end Sys2Proof.Machine
end

