-- ==== Sys2Proof/Laws/PerInstr.lean ====
section
/-! SUPPORT. Per-instruction family EncodedFields: the encoding of a well-formed instruction has an assigned opcode
and RSV = 0 (R66, R67, R72), so the decoder does not reject it. One lemma per constructor. -/

namespace Sys2Proof.Laws.EncodedFields

/-- The encoding of a well-formed instruction carries an assigned opcode and a zero reserved field. -/
def Statement (i : Instr) : Prop :=
  i.wf = true → (instrOfFields (fieldsOf (encode i))).isSome = true ∧ (fieldsOf (encode i)).rsv = 0

theorem nop : Statement .nop := by
  intro _
  rw [encode, fieldsOf_pack _ _ _ _ _ _ _ _ (by omega) (by omega) (by omega) (by omega)]
  exact ⟨rfl, rfl⟩

theorem halt : Statement .halt := by
  intro _
  rw [encode, fieldsOf_pack _ _ _ _ _ _ _ _ (by omega) (by omega) (by omega) (by omega)]
  exact ⟨rfl, rfl⟩

theorem mov (rd rs1 : Slot) : Statement (.mov rd rs1) := by
  intro _
  rw [encode, fieldsOf_pack _ _ _ _ _ _ _ _ (by omega) (by omega) (by omega) (by omega)]
  exact ⟨rfl, rfl⟩

theorem clr (rd : Slot) : Statement (.clr rd) := by
  intro _
  rw [encode, fieldsOf_pack _ _ _ _ _ _ _ _ (by omega) (by omega) (by omega) (by omega)]
  exact ⟨rfl, rfl⟩

theorem natLi (rd : Slot) (w imm : Nat) : Statement (.natLi rd w imm) := by
  intro h
  simp only [Instr.wf, paramOk, immOk, Bool.and_eq_true, decide_eq_true_eq] at h
  rw [encode, fieldsOf_pack _ _ _ _ _ _ _ _ (by omega) (by omega) (by omega) (by omega)]
  exact ⟨rfl, rfl⟩

theorem natSucc (rd rs1 : Slot) : Statement (.natSucc rd rs1) := by
  intro _
  rw [encode, fieldsOf_pack _ _ _ _ _ _ _ _ (by omega) (by omega) (by omega) (by omega)]
  exact ⟨rfl, rfl⟩

theorem natAdd (rd rs1 rs2 : Slot) : Statement (.natAdd rd rs1 rs2) := by
  intro _
  rw [encode, fieldsOf_pack _ _ _ _ _ _ _ _ (by omega) (by omega) (by omega) (by omega)]
  exact ⟨rfl, rfl⟩

theorem natSub (rd rs1 rs2 : Slot) : Statement (.natSub rd rs1 rs2) := by
  intro _
  rw [encode, fieldsOf_pack _ _ _ _ _ _ _ _ (by omega) (by omega) (by omega) (by omega)]
  exact ⟨rfl, rfl⟩

theorem natSubz (rd rs1 : Slot) : Statement (.natSubz rd rs1) := by
  intro _
  rw [encode, fieldsOf_pack _ _ _ _ _ _ _ _ (by omega) (by omega) (by omega) (by omega)]
  exact ⟨rfl, rfl⟩

theorem natCmp (rd rs1 rs2 : Slot) : Statement (.natCmp rd rs1 rs2) := by
  intro _
  rw [encode, fieldsOf_pack _ _ _ _ _ _ _ _ (by omega) (by omega) (by omega) (by omega)]
  exact ⟨rfl, rfl⟩

theorem natShl (rd rs1 : Slot) (k : Nat) : Statement (.natShl rd rs1 k) := by
  intro h
  simp only [Instr.wf, paramOk, decide_eq_true_eq] at h
  rw [encode, fieldsOf_pack _ _ _ _ _ _ _ _ (by omega) (by omega) (by omega) (by omega)]
  exact ⟨rfl, rfl⟩

theorem natShr (rd rs1 : Slot) (k : Nat) : Statement (.natShr rd rs1 k) := by
  intro h
  simp only [Instr.wf, paramOk, decide_eq_true_eq] at h
  rw [encode, fieldsOf_pack _ _ _ _ _ _ _ _ (by omega) (by omega) (by omega) (by omega)]
  exact ⟨rfl, rfl⟩

theorem natBitsize (rd rs1 : Slot) : Statement (.natBitsize rd rs1) := by
  intro _
  rw [encode, fieldsOf_pack _ _ _ _ _ _ _ _ (by omega) (by omega) (by omega) (by omega)]
  exact ⟨rfl, rfl⟩

theorem natConcat (rd rs1 rs2 : Slot) : Statement (.natConcat rd rs1 rs2) := by
  intro _
  rw [encode, fieldsOf_pack _ _ _ _ _ _ _ _ (by omega) (by omega) (by omega) (by omega)]
  exact ⟨rfl, rfl⟩

theorem natTobits (rd rs1 : Slot) : Statement (.natTobits rd rs1) := by
  intro _
  rw [encode, fieldsOf_pack _ _ _ _ _ _ _ _ (by omega) (by omega) (by omega) (by omega)]
  exact ⟨rfl, rfl⟩

theorem bitsLi (rd : Slot) (w imm : Nat) : Statement (.bitsLi rd w imm) := by
  intro h
  simp only [Instr.wf, paramOk, immOk, Bool.and_eq_true, decide_eq_true_eq] at h
  rw [encode, fieldsOf_pack _ _ _ _ _ _ _ _ (by omega) (by omega) (by omega) (by omega)]
  exact ⟨rfl, rfl⟩

theorem bitsConcat (rd rs1 rs2 : Slot) : Statement (.bitsConcat rd rs1 rs2) := by
  intro _
  rw [encode, fieldsOf_pack _ _ _ _ _ _ _ _ (by omega) (by omega) (by omega) (by omega)]
  exact ⟨rfl, rfl⟩

theorem bitsShr (rd rs1 : Slot) (k : Nat) : Statement (.bitsShr rd rs1 k) := by
  intro h
  simp only [Instr.wf, paramOk, decide_eq_true_eq] at h
  rw [encode, fieldsOf_pack _ _ _ _ _ _ _ _ (by omega) (by omega) (by omega) (by omega)]
  exact ⟨rfl, rfl⟩

theorem bitsExtract (rd rs1 : Slot) (high low : Nat) : Statement (.bitsExtract rd rs1 high low) := by
  intro h
  simp only [Instr.wf, paramOk, Bool.and_eq_true, decide_eq_true_eq] at h
  rw [encode, fieldsOf_pack _ _ _ _ _ _ _ _ (by omega) (by omega) (by omega) (by omega)]
  exact ⟨rfl, rfl⟩

theorem bitsTrim (rd rs1 : Slot) (t : Nat) : Statement (.bitsTrim rd rs1 t) := by
  intro h
  simp only [Instr.wf, paramOk, decide_eq_true_eq] at h
  rw [encode, fieldsOf_pack _ _ _ _ _ _ _ _ (by omega) (by omega) (by omega) (by omega)]
  exact ⟨rfl, rfl⟩

theorem bitsZext (rd rs1 : Slot) (t : Nat) : Statement (.bitsZext rd rs1 t) := by
  intro h
  simp only [Instr.wf, paramOk, decide_eq_true_eq] at h
  rw [encode, fieldsOf_pack _ _ _ _ _ _ _ _ (by omega) (by omega) (by omega) (by omega)]
  exact ⟨rfl, rfl⟩

theorem bitsSext (rd rs1 : Slot) (t : Nat) : Statement (.bitsSext rd rs1 t) := by
  intro h
  simp only [Instr.wf, paramOk, decide_eq_true_eq] at h
  rw [encode, fieldsOf_pack _ _ _ _ _ _ _ _ (by omega) (by omega) (by omega) (by omega)]
  exact ⟨rfl, rfl⟩

theorem bitsNot (rd rs1 : Slot) : Statement (.bitsNot rd rs1) := by
  intro _
  rw [encode, fieldsOf_pack _ _ _ _ _ _ _ _ (by omega) (by omega) (by omega) (by omega)]
  exact ⟨rfl, rfl⟩

theorem bitsSucc (rd rs1 : Slot) : Statement (.bitsSucc rd rs1) := by
  intro _
  rw [encode, fieldsOf_pack _ _ _ _ _ _ _ _ (by omega) (by omega) (by omega) (by omega)]
  exact ⟨rfl, rfl⟩

theorem bitsCmp (rd rs1 rs2 : Slot) : Statement (.bitsCmp rd rs1 rs2) := by
  intro _
  rw [encode, fieldsOf_pack _ _ _ _ _ _ _ _ (by omega) (by omega) (by omega) (by omega)]
  exact ⟨rfl, rfl⟩

theorem bitsFlip (rd rs1 : Slot) (f : Nat) : Statement (.bitsFlip rd rs1 f) := by
  intro h
  simp only [Instr.wf, paramOk, decide_eq_true_eq] at h
  rw [encode, fieldsOf_pack _ _ _ _ _ _ _ _ (by omega) (by omega) (by omega) (by omega)]
  exact ⟨rfl, rfl⟩

theorem bitsAdd (rd rs1 rs2 : Slot) : Statement (.bitsAdd rd rs1 rs2) := by
  intro _
  rw [encode, fieldsOf_pack _ _ _ _ _ _ _ _ (by omega) (by omega) (by omega) (by omega)]
  exact ⟨rfl, rfl⟩

theorem bitsSign (rd rs1 : Slot) : Statement (.bitsSign rd rs1) := by
  intro _
  rw [encode, fieldsOf_pack _ _ _ _ _ _ _ _ (by omega) (by omega) (by omega) (by omega)]
  exact ⟨rfl, rfl⟩

theorem bitsTonat (rd rs1 : Slot) : Statement (.bitsTonat rd rs1) := by
  intro _
  rw [encode, fieldsOf_pack _ _ _ _ _ _ _ _ (by omega) (by omega) (by omega) (by omega)]
  exact ⟨rfl, rfl⟩

theorem negNegate (rd rs1 : Slot) : Statement (.negNegate rd rs1) := by
  intro _
  rw [encode, fieldsOf_pack _ _ _ _ _ _ _ _ (by omega) (by omega) (by omega) (by omega)]
  exact ⟨rfl, rfl⟩

theorem negAbs (rd rs1 : Slot) : Statement (.negAbs rd rs1) := by
  intro _
  rw [encode, fieldsOf_pack _ _ _ _ _ _ _ _ (by omega) (by omega) (by omega) (by omega)]
  exact ⟨rfl, rfl⟩

theorem negCmp (rd rs1 rs2 : Slot) : Statement (.negCmp rd rs1 rs2) := by
  intro _
  rw [encode, fieldsOf_pack _ _ _ _ _ _ _ _ (by omega) (by omega) (by omega) (by omega)]
  exact ⟨rfl, rfl⟩

theorem negAdd (rd rs1 rs2 : Slot) : Statement (.negAdd rd rs1 rs2) := by
  intro _
  rw [encode, fieldsOf_pack _ _ _ _ _ _ _ _ (by omega) (by omega) (by omega) (by omega)]
  exact ⟨rfl, rfl⟩

theorem riNew (rd rs1 rs2 rs3 : Slot) : Statement (.riNew rd rs1 rs2 rs3) := by
  intro _
  rw [encode, fieldsOf_pack _ _ _ _ _ _ _ _ (by omega) (by omega) (by omega) (by omega)]
  exact ⟨rfl, rfl⟩

theorem riAdd (rd rs1 rs2 : Slot) : Statement (.riAdd rd rs1 rs2) := by
  intro _
  rw [encode, fieldsOf_pack _ _ _ _ _ _ _ _ (by omega) (by omega) (by omega) (by omega)]
  exact ⟨rfl, rfl⟩

theorem riValue (rd rs1 : Slot) : Statement (.riValue rd rs1) := by
  intro _
  rw [encode, fieldsOf_pack _ _ _ _ _ _ _ _ (by omega) (by omega) (by omega) (by omega)]
  exact ⟨rfl, rfl⟩

theorem riBias (rd rs1 : Slot) : Statement (.riBias rd rs1) := by
  intro _
  rw [encode, fieldsOf_pack _ _ _ _ _ _ _ _ (by omega) (by omega) (by omega) (by omega)]
  exact ⟨rfl, rfl⟩

theorem riWidth (rd rs1 : Slot) : Statement (.riWidth rd rs1) := by
  intro _
  rw [encode, fieldsOf_pack _ _ _ _ _ _ _ _ (by omega) (by omega) (by omega) (by omega)]
  exact ⟨rfl, rfl⟩

theorem mbNew (rd rs1 rs2 rs3 : Slot) : Statement (.mbNew rd rs1 rs2 rs3) := by
  intro _
  rw [encode, fieldsOf_pack _ _ _ _ _ _ _ _ (by omega) (by omega) (by omega) (by omega)]
  exact ⟨rfl, rfl⟩

theorem mbExtract (rd rs1 : Slot) (high low : Nat) : Statement (.mbExtract rd rs1 high low) := by
  intro h
  simp only [Instr.wf, paramOk, Bool.and_eq_true, decide_eq_true_eq] at h
  rw [encode, fieldsOf_pack _ _ _ _ _ _ _ _ (by omega) (by omega) (by omega) (by omega)]
  exact ⟨rfl, rfl⟩

theorem mbFixed (rd rs1 : Slot) : Statement (.mbFixed rd rs1) := by
  intro _
  rw [encode, fieldsOf_pack _ _ _ _ _ _ _ _ (by omega) (by omega) (by omega) (by omega)]
  exact ⟨rfl, rfl⟩

theorem mbEq (rd rs1 rs2 : Slot) : Statement (.mbEq rd rs1 rs2) := by
  intro _
  rw [encode, fieldsOf_pack _ _ _ _ _ _ _ _ (by omega) (by omega) (by omega) (by omega)]
  exact ⟨rfl, rfl⟩

end Sys2Proof.Laws.EncodedFields
end

