-- ==== Sys2Proof/Laws/Step.lean ====
section
/-! SUPPORT. What `exec`, `takeCommand` and `step` can do, said once. -/

namespace Sys2Proof.Machine

/-- Every instruction is NOP, HALT, or ends in `finish` for its destination with a result that is the same at all
states which agree on its source slots (R20, R38). -/
theorem exec_cases (i : Instr) :
    (i = .nop ∧ ∀ s, exec i s = .next (advanceSeq s))
    ∨ (i = .halt ∧ ∀ s, exec i s = .next (advanceSeq { s with status := { s.status with halted := true } }))
    ∨ ∃ (d : Slot) (r : State → Except Raised Value), i.dest = some d ∧ (∀ s, exec i s = .next (finish d (r s) s))
        ∧ ∀ s₁ s₂ : State, (∀ a ∈ i.sources, s₁.slot a = s₂.slot a) → r s₁ = r s₂ := by
  cases i
  case nop => exact .inl ⟨rfl, fun _ => rfl⟩
  case halt => exact .inr (.inl ⟨rfl, fun _ => rfl⟩)
  all_goals
    refine .inr (.inr ⟨_, _, rfl, fun _ => rfl, fun s₁ s₂ h => ?_⟩)
    simp only [Instr.sources, List.mem_cons, List.not_mem_nil, or_false, forall_eq_or_imp, forall_eq] at h
    simp only [onOne_eq, onTwo_eq, onThree_eq, h]

/-- The instructions of the build with this hardware's parameters are this hardware's (R7). -/
theorem execIn_natUnit (i : Instr) (s : State) : execIn Config.natUnit i s = exec i s := by cases i <;> rfl

/-- A step of the build with this hardware's parameters is this hardware's (R7). -/
theorem unitStepIn_natUnit (s : State) : unitStepIn Config.natUnit s = step s := by
  have h : execIn Config.natUnit = exec := funext fun i => funext fun s => execIn_natUnit i s
  rw [unitStepIn, h]
  rfl

/-- In every build an instruction is NOP, HALT, or ends in `finish` for its destination (R7, R38). -/
theorem execIn_cases (cfg : Config) (i : Instr) :
    (i = .nop ∧ ∀ s, execIn cfg i s = .next (advanceSeq s))
    ∨ (i = .halt ∧ ∀ s, execIn cfg i s = .next (advanceSeq { s with status := { s.status with halted := true } }))
    ∨ ∃ (d : Slot) (r : State → Except Raised Value), i.dest = some d ∧ ∀ s, execIn cfg i s = .next (finish d (r s) s) := by
  cases i
  case nop => exact .inl ⟨rfl, fun _ => rfl⟩
  case halt => exact .inr (.inl ⟨rfl, fun _ => rfl⟩)
  all_goals exact .inr (.inr ⟨_, _, rfl, fun _ => rfl⟩)

/-- A step of a unit that is not halted takes the head command (R38). -/
theorem step_of_head {s : State} {c : Command} {rest : List Command} (hh : s.status.halted = false)
    (hq : s.queue = c :: rest) : step s = takeCommand c { s with queue := rest } := by
  simp [step, unitStep, unitStepWith, takeCommand, hh, hq]

/-- A step that answers a next state waited, or took the head command (R37, R38). -/
theorem step_next_cases {s t : State} (h : step s = .next t) :
    s.status.halted = false ∧ ((s.queue = [] ∧ t = s)
      ∨ ∃ c rest, s.queue = c :: rest ∧ takeCommand c { s with queue := rest } = .next t) := by
  unfold step unitStep unitStepWith at h
  split at h
  · cases h
  · rename_i hh
    refine ⟨by simpa using hh, ?_⟩
    split at h
    · rename_i hq
      exact .inl ⟨hq, by cases h; rfl⟩
    · rename_i c rest hq
      exact .inr ⟨c, rest, hq, h⟩

/-- Taking a command runs the instruction it decodes to, or takes its decode error (R38, R70). -/
theorem takeCommand_cases (c : Command) (s : State) :
    (∃ i, decode c = .instr i ∧ takeCommand c s = exec i s)
    ∨ (decode c = .illegalOpcode ∧ takeCommand c s = .next (finishRejected .illegalOpcode s))
    ∨ (decode c = .reservedField ∧ takeCommand c s = .next (finishRejected .reservedField s)) := by
  unfold takeCommand takeCommandWith
  cases h : decode c <;> simp

end Sys2Proof.Machine
end

