-- ==== Sys2Proof/Tests/Slice0.lean ====
section
/-! SUPPORT. Small tests whose expected results are copied from spec/95_test_vectors.md (V, P and the slot images) or
worked out by hand from the rule named, and one witness for every statement that has hypotheses. -/

open Sys2Proof Sys2Proof.Machine Sys2Proof.Claim

namespace Sys2Proof.Tests

/-! ## Well-formedness refuses an ill-formed term of each check -/

theorem test_wf_param_16_bits : (Instr.natLi 1 65536 0).wf = false := by decide
theorem test_wf_imm_64_bits : (Instr.natLi 1 65535 0x10000000000000000).wf = false := by decide
theorem test_wf_bits_imm : (Instr.bitsLi 1 65535 0x10000000000000000).wf = false := by decide
theorem test_wf_shift_amount : (Instr.natShl 1 2 65536).wf = false := by decide
theorem test_wf_high : (Instr.bitsExtract 1 2 65536 0).wf = false := by decide
theorem test_wf_low : (Instr.mbExtract 1 2 0 65536).wf = false := by decide
theorem test_wf_accepts : (Instr.natLi 1 65535 0xFFFFFFFFFFFFFFFF).wf = true := by decide

/-! ## Decoding: one command of spec/95_test_vectors.md for every instruction -/

theorem test_decode_nop : decode 0x0000000000000001 = .instr (.nop) := by decide
theorem test_decode_halt : decode 0x0000000000000002 = .instr (.halt) := by decide
theorem test_decode_mov : decode 0x0000000000001203 = .instr (.mov 2 1) := by decide
theorem test_decode_clr : decode 0x0000000000000204 = .instr (.clr 2) := by decide
theorem test_decode_natLi : decode 0xFFFFFFFFFFFFFFFF0000000064000110 = .instr (.natLi 1 100 0xFFFFFFFFFFFFFFFF) := by decide
theorem test_decode_natSucc : decode 0x0000000000001211 = .instr (.natSucc 2 1) := by decide
theorem test_decode_natAdd : decode 0x0000000000021312 = .instr (.natAdd 3 1 2) := by decide
theorem test_decode_natSub : decode 0x0000000000021313 = .instr (.natSub 3 1 2) := by decide
theorem test_decode_natSubz : decode 0x0000000000001214 = .instr (.natSubz 2 1) := by decide
theorem test_decode_natCmp : decode 0x0000000000021315 = .instr (.natCmp 3 1 2) := by decide
theorem test_decode_natShl : decode 0x0000000FF7001216 = .instr (.natShl 2 1 4087) := by decide
theorem test_decode_natShr : decode 0x0000000042001217 = .instr (.natShr 2 1 66) := by decide
theorem test_decode_natBitsize : decode 0x0000000000001218 = .instr (.natBitsize 2 1) := by decide
theorem test_decode_natConcat : decode 0x0000000000021319 = .instr (.natConcat 3 1 2) := by decide
theorem test_decode_natTobits : decode 0x000000000000121A = .instr (.natTobits 2 1) := by decide
theorem test_decode_bitsLi : decode 0x20000000007000120 = .instr (.bitsLi 1 7 2) := by decide
theorem test_decode_bitsConcat : decode 0x0000000000021321 = .instr (.bitsConcat 3 1 2) := by decide
theorem test_decode_bitsShr : decode 0x0000000004001222 = .instr (.bitsShr 2 1 4) := by decide
theorem test_decode_bitsExtract : decode 0x0000950097001223 = .instr (.bitsExtract 2 1 151 149) := by decide
theorem test_decode_bitsTrim : decode 0x0000000004001224 = .instr (.bitsTrim 2 1 4) := by decide
theorem test_decode_bitsZext : decode 0x0000001388001225 = .instr (.bitsZext 2 1 5000) := by decide
theorem test_decode_bitsSext : decode 0x0000000082001226 = .instr (.bitsSext 2 1 130) := by decide
theorem test_decode_bitsNot : decode 0x0000000000001227 = .instr (.bitsNot 2 1) := by decide
theorem test_decode_bitsSucc : decode 0x0000000000001228 = .instr (.bitsSucc 2 1) := by decide
theorem test_decode_bitsCmp : decode 0x0000000000021329 = .instr (.bitsCmp 3 1 2) := by decide
theorem test_decode_bitsFlip : decode 0x000000004000122A = .instr (.bitsFlip 2 1 64) := by decide
theorem test_decode_bitsAdd : decode 0x000000000002132B = .instr (.bitsAdd 3 1 2) := by decide
theorem test_decode_bitsSign : decode 0x000000000000122C = .instr (.bitsSign 2 1) := by decide
theorem test_decode_bitsTonat : decode 0x000000000000122D = .instr (.bitsTonat 2 1) := by decide
theorem test_decode_negNegate : decode 0x0000000000001230 = .instr (.negNegate 2 1) := by decide
theorem test_decode_negAbs : decode 0x0000000000001231 = .instr (.negAbs 2 1) := by decide
theorem test_decode_negCmp : decode 0x0000000000021332 = .instr (.negCmp 3 1 2) := by decide
theorem test_decode_negAdd : decode 0x0000000000021333 = .instr (.negAdd 3 1 2) := by decide
theorem test_decode_riNew : decode 0x0000000000321440 = .instr (.riNew 4 1 2 3) := by decide
theorem test_decode_riAdd : decode 0x0000000000021341 = .instr (.riAdd 3 1 2) := by decide
theorem test_decode_riValue : decode 0x0000000000001242 = .instr (.riValue 2 1) := by decide
theorem test_decode_riBias : decode 0x0000000000001243 = .instr (.riBias 2 1) := by decide
theorem test_decode_riWidth : decode 0x0000000000001244 = .instr (.riWidth 2 1) := by decide
theorem test_decode_mbNew : decode 0x0000000000221350 = .instr (.mbNew 3 1 2 2) := by decide
theorem test_decode_mbExtract : decode 0x00001F001F001251 = .instr (.mbExtract 2 1 31 31) := by decide
theorem test_decode_mbFixed : decode 0x0000000000001252 = .instr (.mbFixed 2 1) := by decide
theorem test_decode_mbEq : decode 0x0000000000021353 = .instr (.mbEq 3 1 2) := by decide

/-- R68 and R66: P1, P2 and P3, and R66's ignored fields: P4. -/
theorem test_decode_p1 : decode 0 = .illegalOpcode := by decide
theorem test_decode_p2 : decode 0x01000000000000FF = .illegalOpcode := by decide
theorem test_decode_p3 : decode 0x0100000000000001 = .reservedField := by decide
theorem test_decode_p4 : decode 0xDEADBEEF001234BEEFF11212 = .instr (.natAdd 2 1 1) := by decide
/-- R72's example. -/
theorem test_encode_add : encode (.natAdd 3 1 2) = 0x0000000000021312 := by decide
theorem test_table_word : decodeTableWord 64 0x00003E0041001223 = some (.bitsExtract 2 1 65 62) := by decide
theorem test_fetch_word :
    ((State.reset.withFetchWord 64 0x0000000005000110).queue = [0x0000000005000110]) = true := by decide

/-! ## One step of one command from reset with some slots set -/

/-- The state after reset with some slots written and one command queued. -/
def start (w : Command) (pre : List (Slot × Value)) : State :=
  pre.foldl (fun s p => writeSlot p.1 p.2 s) { State.reset with queue := [w] }

/-- The step writes the value to the slot, with STATUS still 0, SEQ 1 and the queue empty. -/
def writes (w : Command) (pre : List (Slot × Value)) (r : Slot) (v : Value) : Bool :=
  match step (start w pre) with
  | .next t => decide (t.slot r = v ∧ t.status = Status.reset ∧ t.seq = 1 ∧ t.queue = [])
  | _ => false

/-- The step leaves the slot, records the cause once with number 0, and STATUS says whether it was fatal. -/
def errs (fatal : Bool) (w : Command) (pre : List (Slot × Value)) (r : Slot) (c : Cause) : Bool :=
  match step (start w pre) with
  | .next t =>
    decide (t.slot r = (start w pre).slot r ∧ t.seq = 1
      ∧ t.status = Status.mk fatal true fatal (causeCode c) 1 0)
  | _ => false

/-- The fault a state's step ends in, if it does. -/
def stops (s : State) : Option Fault :=
  match step s with
  | .fault f => some f
  | _ => none

def raises := errs false
def raisesFatal := errs true

/-- R78 and R79 (P13). -/
theorem test_nop : writes 0x0000000000000001 [(1, .nat 5 5)] 1 (.nat 5 5) = true := by decide
theorem test_halt :
    (match step (start 0x0000000000000002 []) with
      | .next t => decide (statusWord t.status = 1 ∧ t.seq = 1 ∧ stops t = some .halted)
      | _ => false) = true := by decide
theorem test_mov_v1 : writes 0x0000000000001203 [(1, .nat 5 5)] 2 (.nat 5 5) = true := by decide
theorem test_mov_v3 : raises 0x0000000000001203 [] 2 .emptySlot = true := by decide
theorem test_clr_v4 : writes 0x0000000000000204 [(2, .nat 3 1)] 2 (.empty) = true := by decide
theorem test_natLi_v6 : writes 0x250000000005000110 [] 1 (.nat 5 5) = true := by decide
theorem test_natLi_v8 : writes 0xFFFFFFFFFFFFFFFF0000000064000110 [] 1 (.nat 100 0xFFFFFFFFFFFFFFFF) = true := by decide
theorem test_natSucc_v12 : writes 0x0000000000001211 [(1, .nat 64 0xFFFFFFFFFFFFFFFF)] 2 (.nat 65 0x10000000000000000) = true := by decide
theorem test_natSucc_v14 : raises 0x0000000000001211 [(1, .nat 5 31)] 2 .succOverflow = true := by decide
theorem test_natAdd_v19 : writes 0x0000000000021312 [(1, .nat 5 5), (2, .nat 7 7)] 3 (.nat 8 12) = true := by decide
theorem test_natAdd_v22 : writes 0x0000000000021312 [(1, .nat 128 0xFFFFFFFFFFFFFFFFFFFFFFFFFFFFFFFF), (2, .nat 128 0xFFFFFFFFFFFFFFFFFFFFFFFFFFFFFFFF)] 3 (.nat 129 0x1FFFFFFFFFFFFFFFFFFFFFFFFFFFFFFFE) = true := by decide
theorem test_natSub_v28 : writes 0x0000000000021313 [(1, .nat 5 5), (2, .nat 7 7)] 3 (.neg 7 2) = true := by decide
theorem test_natSub_v32 : writes 0x0000000000021313 [(1, .nat 65 0x10000000000000000), (2, .nat 1 1)] 3 (.nat 65 0xFFFFFFFFFFFFFFFF) = true := by decide
theorem test_natSubz_v33 : writes 0x0000000000001214 [(1, .nat 3 0)] 2 (.nat 3 0) = true := by decide
theorem test_natSubz_v35 : raisesFatal 0x0000000000001214 [(1, .nat 3 1)] 2 .zeroInvariant = true := by decide
theorem test_natCmp_v38 : writes 0x0000000000021315 [(1, .nat 65 0x10000000000000000), (2, .nat 64 0xFFFFFFFFFFFFFFFF)] 3 (.bits 2 1) = true := by decide
theorem test_natCmp_v39 : writes 0x0000000000021315 [(1, .nat 5 5), (2, .nat 7 7)] 3 (.bits 2 3) = true := by decide
theorem test_natShl_v41 : writes 0x0000000004001216 [(1, .nat 64 0xFFFFFFFFFFFFFFFF)] 2 (.nat 68 0xFFFFFFFFFFFFFFFF0) = true := by decide
theorem test_natShl_v44 : raises 0x0000000FF7001216 [(1, .nat 10 1)] 2 .widthLimit = true := by decide
theorem test_natShr_v45 : writes 0x0000000002001217 [(1, .nat 5 22)] 2 (.nat 3 5) = true := by decide
theorem test_natShr_v48 : writes 0x0000000042001217 [(1, .nat 130 0x200000000000000400000000000000003)] 2 (.nat 64 0x8000000000000010) = true := by decide
theorem test_natBitsize_v50 : writes 0x0000000000001218 [(1, .nat 20 0)] 2 (.nat 16 0) = true := by decide
theorem test_natBitsize_v51 : writes 0x0000000000001218 [(1, .nat 65 0x10000000000000000)] 2 (.nat 16 65) = true := by decide
theorem test_natConcat_v52 : writes 0x0000000000021319 [(1, .nat 4 10), (2, .nat 8 92)] 3 (.nat 12 2652) = true := by decide
theorem test_natConcat_v53 : writes 0x0000000000021319 [(1, .nat 0 0), (2, .nat 8 92)] 3 (.nat 8 92) = true := by decide
theorem test_natTobits_v54 : writes 0x000000000000121A [(1, .nat 5 5)] 2 (.bits 5 5) = true := by decide
theorem test_bitsLi_v55 : writes 0x20000000007000120 [] 1 (.bits 7 2) = true := by decide
theorem test_bitsLi_v56 : writes 0x50000000000000120 [] 1 (.bits 0 0) = true := by decide
theorem test_bitsConcat_v58 : writes 0x0000000000021321 [(1, .bits 8 171), (2, .bits 60 0xFFFFFFFFFFFFFFF)] 3 (.bits 68 0xABFFFFFFFFFFFFFFF) = true := by decide
theorem test_bitsConcat_v59 : writes 0x0000000000021321 [(1, .bits 0 0), (2, .bits 5 9)] 3 (.bits 5 9) = true := by decide
theorem test_bitsShr_v60 : writes 0x0000000004001222 [(1, .bits 8 180)] 2 (.bits 4 11) = true := by decide
theorem test_bitsShr_v61 : writes 0x0000000009001222 [(1, .bits 8 180)] 2 (.bits 0 0) = true := by decide
theorem test_bitsExtract_v64 : writes 0x0000950097001223 [(1, .bits 200 0x40000000000000000000000000000000000000)] 2 (.bits 3 2) = true := by decide
theorem test_bitsExtract_v66 : raises 0x0000030002001223 [(1, .bits 8 180)] 2 .widthContract = true := by decide
theorem test_bitsTrim_v69 : writes 0x0000000004001224 [(1, .bits 8 180)] 2 (.bits 4 4) = true := by decide
theorem test_bitsTrim_v71 : raises 0x0000000009001224 [(1, .bits 8 180)] 2 .widthContract = true := by decide
theorem test_bitsZext_v72 : writes 0x0000000008001225 [(1, .bits 4 11)] 2 (.bits 8 11) = true := by decide
theorem test_bitsZext_v74 : raises 0x0000001388001225 [(1, .bits 4 11)] 2 .widthLimit = true := by decide
theorem test_bitsSext_v77 : writes 0x0000000008001226 [(1, .bits 0 0)] 2 (.bits 8 0) = true := by decide
theorem test_bitsSext_v78 : writes 0x0000000082001226 [(1, .bits 60 0x800000000000000)] 2 (.bits 130 0x3FFFFFFFFFFFFFFFFF800000000000000) = true := by decide
theorem test_bitsNot_v81 : writes 0x0000000000001227 [(1, .bits 0 0)] 2 (.bits 0 0) = true := by decide
theorem test_bitsNot_v82 : writes 0x0000000000001227 [(1, .bits 70 0)] 2 (.bits 70 0x3FFFFFFFFFFFFFFFFF) = true := by decide
theorem test_bitsSucc_v83 : writes 0x0000000000001228 [(1, .bits 64 0xFFFFFFFFFFFFFFFF)] 2 (.bits 65 0x10000000000000000) = true := by decide
theorem test_bitsSucc_v84 : raises 0x0000000000001228 [(1, .bits 3 7)] 2 .succOverflow = true := by decide
theorem test_bitsCmp_v86 : writes 0x0000000000021329 [(1, .bits 7 2), (2, .bits 12 3)] 3 (.bits 2 3) = true := by decide
theorem test_bitsCmp_v87 : writes 0x0000000000021329 [(1, .bits 3 4), (2, .bits 4 3)] 3 (.bits 2 1) = true := by decide
theorem test_bitsFlip_v89 : writes 0x000000004000122A [(1, .bits 64 0)] 2 (.bits 65 0x10000000000000000) = true := by decide
theorem test_bitsFlip_v90 : writes 0x000000000300122A [(1, .bits 8 255)] 2 (.bits 8 247) = true := by decide
theorem test_bitsAdd_v93 : writes 0x000000000002132B [(1, .bits 7 2), (2, .bits 12 3)] 3 (.bits 13 5) = true := by decide
theorem test_bitsSign_v94 : writes 0x000000000000122C [(1, .bits 3 4)] 2 (.bits 1 1) = true := by decide
theorem test_bitsSign_v95 : writes 0x000000000000122C [(1, .bits 4 4)] 2 (.bits 1 0) = true := by decide
theorem test_bitsTonat_v97 : writes 0x000000000000122D [(1, .bits 13 5)] 2 (.nat 13 5) = true := by decide
theorem test_negNegate_v98 : writes 0x0000000000001230 [(1, .nat 5 5)] 2 (.neg 5 5) = true := by decide
theorem test_negNegate_v101 : raises 0x0000000000001230 [(1, .bits 4 1)] 2 .kind = true := by decide
theorem test_negAbs_v102 : writes 0x0000000000001231 [(1, .neg 7 2)] 2 (.nat 7 2) = true := by decide
theorem test_negAbs_v103 : writes 0x0000000000001231 [(1, .nat 7 2)] 2 (.nat 7 2) = true := by decide
theorem test_negCmp_v105 : writes 0x0000000000021332 [(1, .neg 4 0), (2, .nat 9 0)] 3 (.bits 2 0) = true := by decide
theorem test_negCmp_v108 : writes 0x0000000000021332 [(1, .neg 3 5), (2, .neg 3 2)] 3 (.bits 2 3) = true := by decide
theorem test_negAdd_v110 : writes 0x0000000000021333 [(1, .neg 7 7), (2, .nat 5 5)] 3 (.neg 7 2) = true := by decide
theorem test_negAdd_v112 : raises 0x0000000000021333 [(1, .nat 5 5), (2, .nat 7 7)] 3 .kind = true := by decide
theorem test_riNew_v114 : writes 0x0000000000321440 [(1, .nat 1 0), (2, .neg 2 2), (3, .nat 3 5)] 4 (.ranged (-2) 5 2) = true := by decide
theorem test_riNew_v116 : raises 0x0000000000321440 [(1, .nat 5 29), (2, .nat 2 3), (3, .nat 5 17)] 4 .range = true := by decide
theorem test_riAdd_v119 : writes 0x0000000000021341 [(1, .ranged 3 29 14), (2, .ranged (-2) 5 2)] 3 (.ranged 1 34 16) = true := by decide
theorem test_riAdd_v120 : writes 0x0000000000011341 [(1, .ranged 3 29 14)] 3 (.ranged 6 58 28) = true := by decide
theorem test_riValue_v122 : writes 0x0000000000001242 [(1, .ranged (-5) (-1) 1)] 2 (.neg 3 4) = true := by decide
theorem test_riValue_v124 : writes 0x0000000000001242 [(1, .ranged 3 29 14)] 2 (.nat 5 17) = true := by decide
theorem test_riBias_v125 : writes 0x0000000000001243 [(1, .ranged 3 29 14)] 2 (.nat 5 14) = true := by decide
theorem test_riWidth_v127 : writes 0x0000000000001244 [(1, .ranged 0 1 1)] 2 (.nat 16 2) = true := by decide
theorem test_riWidth_v128 : writes 0x0000000000001244 [(1, .ranged 4 4 0)] 2 (.nat 16 1) = true := by decide
theorem test_mbNew_v130 : writes 0x0000000000221350 [(1, .bits 32 0x1234ABCD), (2, .bits 32 0x80000000)] 3 (.masked 32 0x80000000 0x80000000 0x1234ABCD) = true := by decide
theorem test_mbNew_v131 : raises 0x0000000000221350 [(1, .bits 32 1), (2, .bits 16 1)] 3 .widthContract = true := by decide
theorem test_mbExtract_v132 : writes 0x00001F001F001251 [(1, .masked 32 0x80000000 0x80000000 0x1234ABCD)] 2 (.masked 1 1 1 0) = true := by decide
theorem test_mbExtract_v133 : raises 0x00001F0020001251 [(1, .masked 32 0x80000000 0x80000000 0x1234ABCD)] 2 .widthContract = true := by decide
theorem test_mbFixed_v135 : writes 0x0000000000001252 [(1, .masked 32 0x80000000 0x80000000 0x1234ABCD)] 2 (.bits 1 0) = true := by decide
theorem test_mbFixed_v136 : writes 0x0000000000001252 [(1, .masked 0 0 0 0)] 2 (.bits 1 1) = true := by decide
theorem test_mbEq_v137 : writes 0x0000000000021353 [(1, .masked 1 1 1 0), (2, .nat 1 1)] 3 (.bits 1 1) = true := by decide
theorem test_mbEq_v140 : writes 0x0000000000021353 [(1, .masked 32 0x80000000 0x80000000 0x1234ABCD), (2, .bits 32 0x9234ABCD)] 3 (.bits 1 0) = true := by decide

/-! ## Priority of the checks (R154), STATUS (R33, R152) and the halted unit -/

theorem test_priority_p5 : raises 0x0000000000021312 [(2, .bits 3 1)] 3 .emptySlot = true := by decide
theorem test_priority_p6 : raises 0x0000000000021312 [(1, .bits 3 1)] 3 .emptySlot = true := by decide
theorem test_priority_p7 : raises 0x0000090009001223 [(1, .nat 3 1)] 2 .kind = true := by decide
theorem test_priority_p9 : raises 0x0000000000321440 [(1, .bits 3 1)] 4 .emptySlot = true := by decide
theorem test_priority_p10 :
    raises 0x0000000000321440 [(1, .nat 3 1), (2, .nat 3 5), (3, .nat 3 2)] 4 .bounds = true := by decide
/-- R154: E_WIDTH_CONTRACT comes before E_WIDTH_LIMIT. -/
theorem test_priority_contract : raises 0x0000000000001225 [(1, .bits 4 1)] 2 .widthContract = true := by decide

/-- The STATUS value of P12. -/
theorem test_status_p12 :
    (match step (start 0x0000000000001214 [(1, .nat 3 1)]) with
      | .next t => decide (statusWord t.status = 0x00000000000100A7 ∧ stops t = some .fatalHalted)
      | _ => false) = true := by decide
/-- The error accumulation of spec/95_test_vectors.md section 3, and ERRCNT's saturation (R152). -/
theorem test_record_second :
    recordError .kind false 7 (recordError .emptySlot false 3 Status.reset)
      = Status.mk false true false 0x03 2 3 := by decide
theorem test_record_fatal :
    recordError .zeroInvariant true 9 (Status.mk false true false 0x03 2 3)
      = Status.mk false true false 0x0A 3 9 := by decide
theorem test_errcnt_saturates : countError 0xFFFF = 0xFFFF ∧ countError 0xFFFE = 0xFFFF := by decide
theorem test_seq_wraps :
    step { start 1 [] with seq := 0xFFFFFFFF } = .next { State.reset with seq := 0 } := rfl

/-! ## Slot images (spec/95_test_vectors.md section 4) -/

theorem test_image_empty : slotImage .empty = [0] := by decide
theorem test_image_nat : slotImage (.nat 65 0x10000000000000000) = [0x4101, 0, 1] := by decide
theorem test_image_neg : slotImage (.neg 7 2) = [0x702, 2] := by decide
theorem test_image_ranged : slotImage (.ranged (-2) 5 2) = [0x0003000201000404, 2, 5, 2] := by decide
theorem test_image_masked : slotImage (.masked 1 1 1 0) = [0x105, 1, 1, 0] := by decide

/-! ## The host (R39, R43) and the assembler (R71 to R73) -/

theorem test_push_full :
    hostPush Config.natUnit 1 { State.reset with queue := List.replicate 16 1 } = none := by decide
theorem test_push_order :
    (hostPush Config.natUnit 2 (start 1 [])).map (·.queue) = some [1, 2] := by decide
/-- R51: V of `NAT.LI x1, 5, 37` as its two words, word 0 first; one word alone is no command. -/
theorem test_command_words : decode (commandOfWords 0x0000000005000110 0x25) = .instr (.natLi 1 5 37)
    ∧ commandWords 0x00000000000000250000000005000110 = [0x0000000005000110, 0x25] := by decide
theorem test_push_words :
    (hostPushWords Config.natUnit [2, 0] (start 1 [])).map (·.queue) = some [1, 2]
      ∧ hostPushWords Config.natUnit [2] (start 1 []) = none := by decide
/-- R42 and R51: SEQ and the queue count are read as whole words. -/
theorem test_read_words :
    hostReadSeq { State.reset with seq := 0xFFFFFFFF } = (0x00000000FFFFFFFF : BitVec 64)
      ∧ hostReadQueueCount (start 1 []) = (1 : BitVec 64) := by decide
/-- R153: the debug build halts at an out-of-range construction (cause 0x08, as FATAL); this hardware goes on. -/
theorem test_debug_build :
    (match unitStepIn ⟨4096, 16, true⟩ (start 0x0000000000321440 [(1, .nat 5 30), (2, .nat 2 3), (3, .nat 5 29)]) with
      | .next t => decide (statusWord t.status = 0x0000000000010087)
      | _ => false) = true
      ∧ raises 0x0000000000321440 [(1, .nat 5 30), (2, .nat 2 3), (3, .nat 5 29)] 4 .range = true := by decide
/-- R7: `NAT.LI x1, 2002, 0` is too wide for the build with WMAX = 2001. -/
theorem test_other_wmax :
    (match unitStepIn ⟨2001, 16, false⟩ (start 0x00000007D2000110 []) with
      | .next t => decide (t.status.cause = 0x06 ∧ t.slot 1 = .empty)
      | _ => false) = true := by decide
theorem test_reset : hostReset (start 1 [(1, .nat 5 5)]) = State.reset := by decide
theorem test_asm_operands : assembleLine "RI.NEW x4, x1, x2, x15 ; [lo, hi]" = .instr (.riNew 4 1 2 15) := by decide
theorem test_asm_hex : assembleLine "NAT.LI x1, 100, 0xFF" = .instr (.natLi 1 100 255) := by decide
theorem test_asm_pseudo : assembleLine "BITS.BIT x2, x1, 7" = .instr (.bitsExtract 2 1 7 7) := by decide
theorem test_asm_field_range : assembleLine "NAT.SHL x1, x2, 65536" = .bad := by decide
theorem test_asm_slot_range : assembleLine "CLR x16" = .bad := by decide
theorem test_asm_words : assemble ["NAT.ONE x3", "", "HALT"] = some [0x10000000001000310, 2] := by decide

/-! ## The limb datapaths at limb boundaries (expected limbs worked out by hand) -/

theorem test_adder_carries :
    addLimbs 128 1 [0xFFFFFFFFFFFFFFFF, 0xFFFFFFFFFFFFFFFF] [1] = ([0, 0, 1], 0) := by decide
theorem test_adder_carry_in_at_all_ones :
    addLimbs 128 128 [0xFFFFFFFFFFFFFFFF, 0xFFFFFFFFFFFFFFFF] [0xFFFFFFFFFFFFFFFF, 0xFFFFFFFFFFFFFFFF]
      = ([0xFFFFFFFFFFFFFFFE, 0xFFFFFFFFFFFFFFFF, 1], 0) := by decide
theorem test_naive_carry_misses : naiveCarry 0xFFFFFFFFFFFFFFFF 0xFFFFFFFFFFFFFFFF true = false := by decide
theorem test_borrow : subLimbs 65 [0, 1] [1] = ([0xFFFFFFFFFFFFFFFF, 0], 0) := by decide
theorem test_compare_top_limb : compareLimbs [0, 1] [0xFFFFFFFFFFFFFFFF] = .gt := by decide
theorem test_shift_left_stitch :
    shiftLeftLimbs 68 4 [0xFFFFFFFFFFFFFFFF] = [0xFFFFFFFFFFFFFFF0, 0xF] := by decide
theorem test_shift_right_stitch :
    shiftRightLimbs 64 66 [3, 0x40, 2] = [0x8000000000000010] := by decide
theorem test_bit_size : bitSizeLimbs [0, 1] = 65 := by decide
theorem test_successor : successorLimbs 64 [0xFFFFFFFFFFFFFFFF] = [0, 1] := by decide
theorem test_extract_crosses : extractLimbs 65 62 [0xC000000000000000, 3] = [0xF] := by decide
theorem test_concat_stitch :
    concatLimbs 8 60 [0xAB] [0xFFFFFFFFFFFFFFF] = [0xBFFFFFFFFFFFFFFF, 0xA] := by decide
theorem test_sign_extend :
    signExtendLimbs 60 130 [0x800000000000000] = [0xF800000000000000, 0xFFFFFFFFFFFFFFFF, 3] := by decide
theorem test_trim : trimLimbs 66 [1, 0xFF] = [1, 3] := by decide
theorem test_flip_new_limb : flipLimbs 64 64 [0] = [0, 1] := by decide
theorem test_ranged_add : rangedAddLimbs 5 4 6 [14] [2] = [16] := by decide

/-! ## Witnesses: for every statement with hypotheses, a state and operands that meet them, at boundary values -/

/-- A state with some slots set, an error recorded and commands queued. -/
def busy (q : List Command) (pre : List (Slot × Value)) : State :=
  { pre.foldl (fun s p => writeSlot p.1 p.2 s) State.reset with
    status := Status.mk false true false 0x03 2 3, seq := 9, queue := q }

/-- Every assigned opcode: the word with RSV = 0 and junk in every other field meets the hypotheses of `DecodesTo`. -/
theorem witness_DecodesTo :
    ([0x01, 0x02, 0x03, 0x04, 0x10, 0x11, 0x12, 0x13, 0x14, 0x15, 0x16, 0x17, 0x18, 0x19, 0x1A, 0x20, 0x21, 0x22, 0x23,
      0x24, 0x25, 0x26, 0x27, 0x28, 0x29, 0x2A, 0x2B, 0x2C, 0x2D, 0x30, 0x31, 0x32, 0x33, 0x40, 0x41, 0x42, 0x43, 0x44,
      0x50, 0x51, 0x52, 0x53].all fun op =>
      decide (opc (BitVec.ofNat 128 (0xDEADBEEF001234BEEFF12300 + op)) = op
        ∧ rsv (BitVec.ofNat 128 (0xDEADBEEF001234BEEFF12300 + op)) = 0)) = true := by decide
theorem witness_DecodeOfEncodeIsTheInstruction :
    (Instr.bitsExtract 15 15 65535 0).wf = true ∧ (Instr.bitsLi 0 0 0xFFFFFFFFFFFFFFFF).wf = true := by decide
/-- Both sides of every boundary of R68's list, and an assigned opcode with RSV set. -/
theorem witness_IllegalAndReserved_opcodes :
    (Illegal 0x00 ∧ Illegal 0x05 ∧ Illegal 0x0F ∧ Illegal 0x1B ∧ Illegal 0x1F ∧ Illegal 0x2E ∧ Illegal 0x2F
      ∧ Illegal 0x34 ∧ Illegal 0x3F ∧ Illegal 0x45 ∧ Illegal 0x4F ∧ Illegal 0x54 ∧ Illegal 0xFF)
    ∧ (Assigned 0x01 ∧ Assigned 0x04 ∧ Assigned 0x10 ∧ Assigned 0x1A ∧ Assigned 0x20 ∧ Assigned 0x2D ∧ Assigned 0x30
      ∧ Assigned 0x33 ∧ Assigned 0x40 ∧ Assigned 0x44 ∧ Assigned 0x50 ∧ Assigned 0x53) := by
  simp [Illegal, Assigned]
theorem witness_IllegalAndReserved_illegal :
    (start 0x01000000000000FF []).status.halted = false ∧ (start 0x01000000000000FF []).queue = [0x01000000000000FF]
      ∧ opc 0x01000000000000FF = 0xFF := by decide
theorem witness_IllegalAndReserved_reserved :
    (start 0xFF00000000000053 []).status.halted = false ∧ (start 0xFF00000000000053 []).queue = [0xFF00000000000053]
      ∧ opc 0xFF00000000000053 = 0x53 ∧ rsv 0xFF00000000000053 ≠ 0 := by decide
theorem witness_IllegalAndReserved_ignored :
    decode 0x0000000000011212 = .instr (.natAdd 2 1 1)
      ∧ usedFields (.natAdd 2 1 1) 0xDEADBEEF001234BEEFF11212 = usedFields (.natAdd 2 1 1) 0x0000000000011212 := by decide
theorem witness_StepRunsTheDecodedInstruction :
    (busy [0x0000000000021312, 2] []).status.halted = false
      ∧ (busy [0x0000000000021312, 2] []).queue = 0x0000000000021312 :: [2]
      ∧ decode 0x0000000000021312 = .instr (.natAdd 3 1 2) := by decide
theorem witness_EveryCommandAdvancesSeqByOne :
    ((start 1 []).status.halted = false ∧ (start 1 []).queue ≠ [])
      ∧ (step State.reset = .next State.reset ∧ State.reset.queue = []) :=
  ⟨by decide, rfl, rfl⟩
theorem witness_IdleWaitsAndHaltedStops :
    (State.reset.status.halted = false ∧ State.reset.queue = [])
      ∧ (∃ s : State, s.status.halted = true ∧ s.status.fatal = false)
      ∧ (∃ s : State, s.status.halted = true ∧ s.status.fatal = true) :=
  ⟨by decide, ⟨{ State.reset with status := Status.mk true false false 0 0 0 }, by decide⟩,
    ⟨{ State.reset with status := Status.mk true true true 0x0A 1 0 }, by decide⟩⟩
/-- One state for each outcome of R38: a value, an error, a fatal error, HALT and NOP. -/
theorem witness_EveryCommandHasOneOutcome :
    ([0x0000000005000110, 0x0000000000021312, 0x0000000000001214, 2, 1].all fun c =>
      decide ((start c [(1, .nat 3 1)]).status.halted = false ∧ (start c [(1, .nat 3 1)]).queue = [c])) = true := by decide
theorem witness_InstructionsRaiseOnlyTheirListedCauses :
    ∃ t, exec (.natLi 1 4097 0) State.reset = .next t ∧ State.reset.status.err = false
      ∧ State.reset.status.fatal = false ∧ t.status.err = true :=
  ⟨_, rfl, by decide⟩
theorem witness_InstructionsRaise_fatal :
    ∃ t, exec (.natSubz 2 1) (start 1 [(1, .nat 3 1)]) = .next t ∧ t.status.err = true ∧ t.status.fatal = true :=
  ⟨_, rfl, by decide⟩
theorem witness_SourcesAreCheckedFirst_empty : SomeSourceEmpty (.natAdd 3 1 2) (start 1 [(1, .bits 3 1)]) :=
  ⟨2, by decide⟩
theorem witness_SourcesAreCheckedFirst_kind :
    ¬SomeSourceEmpty (.bitsExtract 3 1 9 9) (start 1 [(1, .nat 3 1)])
      ∧ ¬KindsTaken (.bitsExtract 3 1 9 9) (start 1 [(1, .nat 3 1)]) := by
  refine ⟨by unfold SomeSourceEmpty; decide, fun h => ?_⟩
  obtain ⟨w, p, h⟩ := h
  revert h
  simp [start, writeSlot, State.slot]
/-- A second recoverable error; a fatal error over a recorded one; a push. -/
theorem witness_ErrorsAreRecordedAndSticky_error :
    ∃ t, step (busy [0] []) = .next t ∧ (busy [0] []).status.err = true ∧ t.status.fatal = false :=
  ⟨_, rfl, by decide⟩
theorem witness_ErrorsAreRecordedAndSticky_fatal :
    ∃ t, step (busy [0x1214] [(1, .nat 3 1)]) = .next t ∧ (busy [0x1214] []).status.fatal = false
      ∧ t.status.fatal = true :=
  ⟨_, rfl, by decide⟩
/-- FATAL already 1: only a state that no run reaches has a step then. -/
theorem witness_ErrorsAreRecordedAndSticky_kept :
    ∃ s t : State, step s = .next t ∧ s.status.fatal = true :=
  ⟨{ start 0 [] with status := Status.mk false true true 0x0A 1 0 }, _, rfl, by decide⟩
theorem witness_ErrorsAreRecordedAndSticky_push :
    ∃ t, hostMove Config.natUnit (.push 1) (busy [0] []) = some t ∧ HostMove.push 1 ≠ .reset :=
  ⟨_, rfl, by decide⟩
theorem witness_StepsAndHostMovesKeepLegalStates :
    (busy [0x0000000000021312] [(1, .nat 64 0xFFFFFFFFFFFFFFFF), (2, .nat 0 0), (4, .ranged (-4) 3 7)]).wf
        Config.natUnit = true
      ∧ (∃ t, step (busy [0x0000000000021312] [(1, .nat 64 0xFFFFFFFFFFFFFFFF), (2, .nat 0 0), (4, .ranged (-4) 3 7)])
        = .next t)
      ∧ (∃ t, hostMove Config.natUnit (.push 1) (busy [] []) = some t) ∧ (busy [] []).wf Config.natUnit = true :=
  ⟨by decide, ⟨_, rfl⟩, ⟨_, rfl⟩, by decide⟩
/-- The clause on every build, at the least build R7 allows: bounds of its WMAX and a full queue of one command. -/
theorem witness_StepsAndHostMovesKeepLegalStates_builds :
    Config.valid ⟨2001, 1, true⟩ = true ∧ Config.valid ⟨65535, 1, false⟩ = true
      ∧ Config.valid ⟨2000, 1, true⟩ = false ∧ Config.valid ⟨65536, 1, true⟩ = false
      ∧ (busy [0x0000000000021312] [(1, .nat 64 5), (2, .nat 100 0)]).wf ⟨2001, 1, true⟩ = true
      ∧ (∃ t, unitStepIn ⟨2001, 1, true⟩ (busy [0x0000000000021312] [(1, .nat 64 5), (2, .nat 100 0)]) = .next t)
      ∧ (∃ t, hostMove ⟨2001, 1, true⟩ (.push 1) (busy [] []) = some t) :=
  ⟨by decide, by decide, by decide, by decide, by decide, ⟨_, rfl⟩, ⟨_, rfl⟩⟩
theorem witness_ReachableStatesAreLegal : Reachable (start 1 []) :=
  Reachable.hostStep (.push 1) State.reset _ Reachable.reset rfl
theorem witness_PushAppendsWhileThereIsRoom :
    (busy (List.replicate 15 1) []).queue.length < 16 ∧ 16 ≤ (busy (List.replicate 16 1) []).queue.length := by decide
theorem witness_PushAppends_halted :
    ∃ s : State, s.queue.length < 16 ∧ s.status.halted = true :=
  ⟨{ State.reset with status := Status.mk true false false 0 0 0 }, by decide⟩
theorem witness_PushingLaterGivesTheSameState :
    ∃ s' t, (busy [1] []).queue ≠ [] ∧ hostPush Config.natUnit 2 (busy [1] []) = some s'
      ∧ step (busy [1] []) = .next t :=
  ⟨_, _, by decide, rfl, rfl⟩
theorem witness_OutcomeDependsOnlyOnSources :
    (∀ r ∈ (Instr.natAdd 3 1 2).sources, (start 1 [(1, .nat 5 5), (2, .nat 7 7)]).slot r
        = (busy [] [(1, .nat 5 5), (2, .nat 7 7), (3, .empty), (4, .bits 1 1)]).slot r)
      ∧ start 1 [(1, .nat 5 5), (2, .nat 7 7)] ≠ busy [] [(1, .nat 5 5), (2, .nat 7 7), (4, .bits 1 1)] := by decide
theorem witness_ResultWidthsAreStatic :
    ∃ t₁ t₂, ¬IsRangedFamily (.natSub 3 1 2) ∧ ¬KindByValue (.natAdd 3 1 2) ∧ (Instr.natSub 3 1 2).dest = some 3
      ∧ (∀ r ∈ (Instr.natSub 3 1 2).sources, widthOf ((start 1 [(1, .nat 5 5), (2, .nat 7 7)]).slot r)
        = widthOf ((start 1 [(1, .nat 5 31), (2, .nat 7 0)]).slot r))
      ∧ exec (.natSub 3 1 2) (start 1 [(1, .nat 5 5), (2, .nat 7 7)]) = .next t₁
      ∧ exec (.natSub 3 1 2) (start 1 [(1, .nat 5 31), (2, .nat 7 0)]) = .next t₂
      ∧ t₁.status.err = false ∧ t₂.status.err = false :=
  ⟨_, _, id, id, by decide, by decide, rfl, rfl, by decide, by decide⟩
/-- A legal value of each kind, at width 0 or at a bound. -/
theorem witness_SlotImages :
    ([.empty, .nat 0 0, .neg 7 0, .bits 64 0xFFFFFFFFFFFFFFFF, .ranged (-4) 3 7, .masked 1 1 1 0].all fun v =>
      Value.wf Config.natUnit v) = true := by decide
theorem witness_SlotImageLosesNothing :
    Value.wf Config.natUnit (.neg 0 0) = true ∧ slotImage (.neg 0 0) = slotImage (.neg 0 0) := by decide
/-- Every branch of the instruction statements is met by a state: the kinds, and E_WIDTH_LIMIT at 4096 and 4097. -/
theorem witness_width_limit :
    raises 0x0000000000001211 [(1, .nat 4096 0)] 2 .widthLimit = true
      ∧ raises 0x0000000000021312 [(1, .nat 4096 1), (2, .nat 1 1)] 3 .widthLimit = true
      ∧ writes 0x0000000000021312 [(1, .nat 4095 1), (2, .nat 1 1)] 3 (.nat 4096 2) = true
      ∧ raises 0x000000100000122A [(1, .bits 8 0)] 2 .widthLimit = true := by decide
theorem witness_NatLawsHold :
    (start 1 [(1, .nat 5 30), (2, .nat 1 1)]).slot 1 = .nat 5 30 ∧ 30 < 2 ^ 5
      ∧ (start 1 [(1, .nat 5 30), (2, .nat 1 1)]).slot 2 = .nat 1 1 ∧ 30 + 1 < 2 ^ succWidth 5
      ∧ (start 1 [(3, .nat 0 0)]).slot 3 = .nat 0 0 := by decide
theorem witness_NatLawsHold_overflow :
    (start 1 [(1, .nat 5 31), (2, .nat 1 1)]).slot 1 = .nat 5 31 ∧ 31 < 2 ^ 5 ∧ 2 ^ succWidth 5 ≤ 31 + 1 := by decide
theorem witness_NegLawsHold :
    (start 1 [(1, .nat 0 0)]).slot 1 = .nat 0 0 ∧ (start 1 [(1, .neg 3 0), (2, .nat 9 0)]).slot 1 = .neg 3 0
      ∧ (start 1 [(1, .neg 3 0), (2, .nat 9 0)]).slot 2 = .nat 9 0 := by decide
theorem witness_BitsLawsHold :
    (start 1 [(1, .bits 4 11), (2, .bits 60 1)]).slot 1 = .bits 4 11
      ∧ (start 1 [(1, .bits 4 11), (2, .bits 60 1)]).slot 2 = .bits 60 1 ∧ 11 < 2 ^ 4 ∧ 1 < 2 ^ 60
      ∧ 4 + 60 ≤ 4096 ∧ (3 : Slot) ≠ 4 ∧ (5 : Slot) ≠ 3 := by decide
theorem witness_MaskedResultsIgnoreWhatIsNotKnown :
    0b0101 < 2 ^ 4 ∧ 0b1101 < 2 ^ 4 ∧ 0b0111 < 2 ^ 4 ∧ 0b1101 &&& 0b0101 = 0b0111 &&& 0b0101
      ∧ (start 1 [(1, .bits 32 0), (2, .bits 32 0x80000000), (5, .nat 1 1)]).slot 1 = .bits 32 0
      ∧ (start 1 [(1, .bits 32 0), (2, .bits 32 0x80000000), (5, .nat 1 1)]).slot 2 = .bits 32 0x80000000
      ∧ (start 1 [(1, .bits 32 0), (2, .bits 32 0x80000000), (5, .nat 1 1)]).slot 5 = .nat 1 1 := by decide
theorem witness_DebugAbortMakesOnlyRangeFatal :
    riNew ⟨4096, 16, false⟩ (.nat 5 30) (.nat 2 3) (.nat 5 29) = .error (.error .range)
      ∧ riNew ⟨4096, 16, true⟩ (.nat 5 30) (.nat 2 3) (.nat 5 29) = .error (.fatal .range)
      ∧ riNew ⟨4096, 16, false⟩ (.nat 5 29) (.nat 2 3) (.nat 5 29) ≠ .error (.error .range) := by decide
/-- The clauses on the instructions: another instruction than RI.NEW, and an integer one above and one below the
bounds 3 and 29. -/
theorem witness_DebugAbortMakesOnlyRangeFatal_instructions :
    (∀ d a b c, Instr.natAdd 3 1 2 ≠ .riNew d a b c)
      ∧ signedVal ((busy [] [(1, .nat 5 30), (2, .nat 2 3), (3, .nat 5 29)]).slot 1) = some 30
      ∧ signedVal ((busy [] [(1, .nat 2 2), (2, .nat 2 3), (3, .nat 5 29)]).slot 1) = some 2
      ∧ signedVal ((busy [] [(1, .nat 5 30), (2, .nat 2 3), (3, .nat 5 29)]).slot 2) = some 3
      ∧ signedVal ((busy [] [(1, .nat 5 30), (2, .nat 2 3), (3, .nat 5 29)]).slot 3) = some 29
      ∧ (29 - 3 + 1 : Int) < 2 ^ 5 :=
  ⟨fun _ _ _ _ h => (by cases h), by decide, by decide, by decide, by decide, by decide⟩
/-- The hypotheses of the datapath statements, at full and at zero-width limbs. -/
theorem witness_datapath_payloads :
    0xFFFFFFFFFFFFFFFF < 2 ^ 64 ∧ 0 < 2 ^ 0 ∧ 0 ≤ 0xFFFFFFFFFFFFFFFF ∧ 62 ≤ 65 ∧ 65 < 128 ∧ 64 ≤ 64 := by decide
theorem witness_successor_fits : 0xFFFFFFFFFFFFFFFF + 1 < 2 ^ succWidth 64 := by decide
theorem witness_RangedAdditionDatapathIsExact :
    (-4 : Int) ≤ 3 ∧ (0 : Int) ≤ 0 ∧ ((7 : Nat) : Int) ≤ 3 - -4 ∧ ((0 : Nat) : Int) ≤ 0 - 0 := by decide

end Sys2Proof.Tests
end

/-! What the checks and reads shared by the instructions can end with, as one rule per construct (`Ends`); the
instructions' own rules below are put together from these. -/

namespace Sys2Proof.Machine

open Sys2Proof.Claim

/-- The events that commands of the build `cfg` raise: F_ZERO_INVARIANT is the one cause that is never recoverable,
and a fatal error has that cause unless DEBUG_ABORT makes another one fatal (R149, R153). -/
def Raised.Legal (cfg : Config) : Raised → Prop
  | .error c => c ≠ .zeroInvariant
  | .fatal c => cfg.debugAbort = true ∨ c = .zeroInvariant

/-- A computation ends with a result that satisfies `P`, or raises an event of the build `cfg`. -/
def Ends {α : Type} (cfg : Config) (P : α → Prop) : Except Raised α → Prop
  | .ok a => P a
  | .error e => e.Legal cfg

section Rules

variable {α β : Type} {cfg : Config} {P Q : α → Prop} {R : β → Prop}

theorem Ends.mono {x : Except Raised α} (h : Ends cfg P x) (hPQ : ∀ a, P a → Q a) : Ends cfg Q x := by
  cases x with
  | ok a => exact hPQ a h
  | error e => exact h

/-- Computations in a sequence: the second starts from what the first ends with. -/
theorem Ends.bind {x : Except Raised α} {f : α → Except Raised β} (h : Ends cfg P x)
    (hf : ∀ a, P a → Ends cfg R (f a)) : Ends cfg R (x >>= f) := by
  cases x with
  | ok a => exact hf a h
  | error e => exact h

theorem ends_kind : Ends cfg P (.error (.error .kind)) := by simp [Ends, Raised.Legal]

/-- A check with a recoverable cause: what follows may assume it (R14). -/
theorem require_ends (p : Prop) [Decidable p] (c : Cause) (hc : c ≠ .zeroInvariant := by decide) :
    Ends cfg (fun _ => p) (require p c) := by
  by_cases hp : p
  · rw [require_ok p c hp]
    exact hp
  · rw [require_error p c hp]
    exact hc

end Rules

section Operands

variable {cfg : Config} {P : Value → Prop}

/-- An operation on one source ends as the operation does; E_EMPTY_SLOT is the only event added (R154). -/
theorem onOne_ends {s : State} {a : Slot} {op : Value → Except Raised Value} (h : Ends cfg P (op (s.slot a))) :
    Ends cfg P (onOne s a op) := by
  rw [onOne_eq]
  split
  · simp [Ends, Raised.Legal]
  · exact h

theorem onTwo_ends {s : State} {a b : Slot} {op : Value → Value → Except Raised Value}
    (h : Ends cfg P (op (s.slot a) (s.slot b))) : Ends cfg P (onTwo s a b op) := by
  rw [onTwo_eq]
  split
  · simp [Ends, Raised.Legal]
  · exact h

theorem onThree_ends {s : State} {a b c : Slot} {op : Value → Value → Value → Except Raised Value}
    (h : Ends cfg P (op (s.slot a) (s.slot b) (s.slot c))) : Ends cfg P (onThree s a b c op) := by
  rw [onThree_eq]
  split
  · simp [Ends, Raised.Legal]
  · exact h

theorem asNat_ends (x : Value) : Ends cfg (fun a => x = .nat a.width a.value) (asNat x) := by
  cases x with
  | nat w v => rfl
  | _ => exact ends_kind

theorem asBits_ends (x : Value) : Ends cfg (fun a => x = .bits a.width a.value) (asBits x) := by
  cases x with
  | bits w v => rfl
  | _ => exact ends_kind

theorem asRanged_ends (x : Value) : Ends cfg (fun a => x = .ranged a.lo a.hi a.s) (asRanged x) := by
  cases x with
  | ranged lo hi s => rfl
  | _ => exact ends_kind

theorem asMasked_ends (x : Value) : Ends cfg (fun a => x = .masked a.w a.mask a.val a.bits) (asMasked x) := by
  cases x with
  | masked w mask val bits => rfl
  | _ => exact ends_kind

theorem asSigned_ends (x : Value) : Ends cfg (fun z => signedVal x = some z) (asSigned x) := by
  cases x with
  | nat w v => rfl
  | neg w m => rfl
  | _ => exact ends_kind

theorem asNatural_ends (x : Value) : Ends cfg (fun _ => True) (asNatural x) := by
  cases x with
  | nat w v => trivial
  | bits w v => trivial
  | _ => exact ends_kind

/-- A successor has R84's width, within WMAX, and fits it. -/
theorem successor_ends (a : Sized) :
    Ends cfg (fun r => r.width = succWidth a.width ∧ r.width ≤ cfg.wmax ∧ r.value < 2 ^ r.width)
      (successor cfg a) :=
  (require_ends _ .widthLimit).bind fun _ hw =>
    (require_ends _ .succOverflow).bind fun _ hv => ⟨rfl, hw, hv⟩

theorem sum_ends (a b : Sized) :
    Ends cfg (fun r => r = ⟨max a.width b.width + 1, a.value + b.value⟩ ∧ r.width ≤ cfg.wmax) (sum cfg a b) :=
  (require_ends _ .widthLimit).bind fun _ hw => ⟨rfl, hw⟩

theorem concat_ends (a b : Sized) :
    Ends cfg (fun r => r = ⟨a.width + b.width, concatVal a.value b.width b.value⟩ ∧ r.width ≤ cfg.wmax)
      (concat cfg a b) :=
  (require_ends _ .widthLimit).bind fun _ hw => ⟨rfl, hw⟩

theorem construct_ends (w imm : Nat) :
    Ends cfg (fun r => r = ⟨w, imm % 2 ^ w⟩ ∧ r.width ≤ cfg.wmax) (construct cfg w imm) :=
  (require_ends _ .widthLimit).bind fun _ hw => ⟨rfl, hw⟩

end Operands

end Sys2Proof.Machine

/-! Every operation, in every build that R7 allows, makes a legal value (R24) out of legal values, and raises only
events of that build. -/

namespace Sys2Proof.Machine

open Sys2Proof.Claim

/-- What R7's range gives the proofs: the fixed result widths (at most CNTW = 16) are within WMAX, and a width fits
the 16 bits of a count. -/
theorem wmax_bounds {cfg : Config} (hc : cfg.valid = true) : cntw ≤ cfg.wmax ∧ cfg.wmax < 2 ^ cntw := by
  simp only [Config.valid, Bool.and_eq_true, decide_eq_true_eq] at hc
  simp only [cntw]
  omega

/-- A payload within its width, the width within WMAX (R24). -/
def Fits (cfg : Config) (w p : Nat) : Prop := w ≤ cfg.wmax ∧ p < 2 ^ w

/-- A legal value (R24), as a proposition. -/
def Legal (cfg : Config) (v : Value) : Prop := v.wf cfg = true

section Values

variable {cfg : Config}

@[simp] theorem legal_empty : Legal cfg .empty := rfl

@[simp] theorem legal_nat {w p : Nat} : Legal cfg (.nat w p) ↔ Fits cfg w p := by simp [Legal, Value.wf, Fits]

@[simp] theorem legal_neg {w p : Nat} : Legal cfg (.neg w p) ↔ Fits cfg w p := by simp [Legal, Value.wf, Fits]

@[simp] theorem legal_bits {w p : Nat} : Legal cfg (.bits w p) ↔ Fits cfg w p := by simp [Legal, Value.wf, Fits]

@[simp] theorem legal_masked {w m k b : Nat} :
    Legal cfg (.masked w m k b) ↔ Fits cfg w m ∧ Fits cfg w k ∧ Fits cfg w b := by
  simp only [Legal, Value.wf, Fits, Bool.and_eq_true, decide_eq_true_eq]
  tauto

@[simp] theorem legal_ranged {lo hi : Int} {s : Nat} :
    Legal cfg (.ranged lo hi s) ↔
      lo ≤ hi ∧ magWidth lo ≤ cfg.wmax ∧ magWidth hi ≤ cfg.wmax ∧ (s : Int) ≤ hi - lo
        ∧ rangedWidth lo hi ≤ cfg.wmax := by
  simp only [Legal, Value.wf, Bool.and_eq_true, decide_eq_true_eq, and_assoc]

end Values

/-! ### The payloads of the rules -/

section Payloads

variable {cfg : Config} {w p : Nat}

theorem Fits.of_le {w' p' : Nat} (h : Fits cfg w p) (hw : w' ≤ w) (hp : p' < 2 ^ w') : Fits cfg w' p' :=
  ⟨hw.trans h.1, hp⟩

theorem Fits.widen {w' : Nat} (h : Fits cfg w p) (hw : w ≤ w') (hw' : w' ≤ cfg.wmax) : Fits cfg w' p :=
  ⟨hw', h.2.trans_le (Nat.pow_le_pow_right two_pos hw)⟩

theorem add_lt_two_pow {n m a b : Nat} (ha : a < 2 ^ n) (hb : b < 2 ^ m) : a + b < 2 ^ (max n m + 1) := by
  have hn : 2 ^ n ≤ 2 ^ max n m := Nat.pow_le_pow_right two_pos (le_max_left n m)
  have hm : 2 ^ m ≤ 2 ^ max n m := Nat.pow_le_pow_right two_pos (le_max_right n m)
  rw [Nat.pow_succ]
  omega

theorem concatVal_lt {n m a b : Nat} (ha : a < 2 ^ n) (hb : b < 2 ^ m) : concatVal a m b < 2 ^ (n + m) := by
  calc a * 2 ^ m + b < (a + 1) * 2 ^ m := by rw [Nat.succ_mul]; omega
    _ ≤ 2 ^ n * 2 ^ m := Nat.mul_le_mul_right _ ha
    _ = 2 ^ (n + m) := (Nat.pow_add 2 n m).symm

theorem div_lt_two_pow_sub {n a k : Nat} (ha : a < 2 ^ n) : a / 2 ^ k < 2 ^ (n - k) := by
  rw [Nat.div_lt_iff_lt_mul (Nat.two_pow_pos k), ← Nat.pow_add]
  exact ha.trans_le (Nat.pow_le_pow_right two_pos (by omega))

theorem slice_fits {high low : Nat} (h : Fits cfg w p) (hl : low ≤ high ∧ high < w) (q : Nat) :
    Fits cfg (high - low + 1) (slice high low q) :=
  h.of_le (by omega) (Nat.mod_lt _ (Nat.two_pow_pos _))

/-- A copied sign fills the bits from `n` up to the new width and no more (R13). -/
theorem signExtend_lt {t n v : Nat} (hv : v < 2 ^ n) (ht : n ≤ t) : signExtend t n v < 2 ^ t := by
  have : 2 ^ n ≤ 2 ^ t := Nat.pow_le_pow_right two_pos ht
  unfold signExtend
  split <;> omega

/-- Inverting a bit below the width keeps the payload within it (R116): the quotient by `2^f` of a payload with bit
`f` clear is even, and so at least two below the even `2^(w-f)`. -/
theorem flipBit_lt {w f v : Nat} (hv : v < 2 ^ w) (hf : f < w) : flipBit f v < 2 ^ w := by
  unfold flipBit
  split
  · exact (Nat.sub_le v _).trans_lt hv
  · next hbit =>
    obtain ⟨k, rfl⟩ : ∃ k, w = f + (k + 1) := ⟨w - f - 1, by omega⟩
    have hq : v / 2 ^ f < 2 ^ k * 2 := by
      rw [← Nat.pow_succ, Nat.div_lt_iff_lt_mul (Nat.two_pow_pos f), ← Nat.pow_add, Nat.add_comm (k + 1) f]
      exact hv
    calc v + 2 ^ f = 2 ^ f * (v / 2 ^ f + 1) + v % 2 ^ f := by
          rw [Nat.mul_succ]; have := Nat.div_add_mod v (2 ^ f); omega
      _ < 2 ^ f * (v / 2 ^ f + 1 + 1) := by
          rw [Nat.mul_succ _ (v / 2 ^ f + 1)]; have := Nat.mod_lt v (Nat.two_pow_pos f); omega
      _ ≤ 2 ^ f * 2 ^ (k + 1) := Nat.mul_le_mul_left _ (by rw [Nat.pow_succ]; omega)
      _ = 2 ^ (f + (k + 1)) := (Nat.pow_add 2 f (k + 1)).symm

/-- A bit size or a storage width, at most WMAX, is a legal count at width CNTW (R7, R95, R137). -/
theorem count_fits {n : Nat} (hc : cfg.valid = true) (hn : n ≤ cfg.wmax) : Fits cfg cntw n :=
  ⟨(wmax_bounds hc).1, hn.trans_lt (wmax_bounds hc).2⟩

theorem compareResult_legal (hc : cfg.valid = true) (a b : Int) : Legal cfg (compareResult a b) := by
  have h := (wmax_bounds hc).1
  refine legal_bits.mpr ⟨le_trans (by decide) h, ?_⟩
  cases ord a b <;> decide

theorem bool_legal (hc : cfg.valid = true) (b : Bool) : Legal cfg (.bits 1 b.toNat) := by
  have h := (wmax_bounds hc).1
  exact legal_bits.mpr ⟨le_trans (by decide) h, b.toNat_lt⟩

theorem difference_legal {n m u v : Nat} (hu : Fits cfg n u) (hv : Fits cfg m v) :
    Legal cfg (difference (max n m) u v) :=
  have hw := max_le hu.1 hv.1
  difference_wf cfg _ u v hw (hu.widen (le_max_left n m) hw).2 (hv.widen (le_max_right n m) hw).2

/-- The integer of a legal NAT or NEG has a magnitude within WMAX (R29). -/
theorem signedVal_magWidth {x : Value} {z : Int} (hx : Legal cfg x) (hz : signedVal x = some z) :
    magWidth z ≤ cfg.wmax := by
  have key : ∀ {w p : Nat}, Fits cfg w p → p < 2 ^ cfg.wmax := fun h => (h.widen h.1 le_rfl).2
  rw [magWidth_le_iff]
  cases x with
  | nat w v => cases hz; simpa using key (legal_nat.mp hx)
  | neg w m => cases hz; simpa using key (legal_neg.mp hx)
  | _ => cases hz

/-- A value between its bounds has a magnitude within the wider bound's (R135). -/
theorem natAbs_lt_of_between {lo hi v : Int} (h1 : lo ≤ v) (h2 : v ≤ hi) :
    v.natAbs < 2 ^ max (magWidth lo) (magWidth hi) := by
  have hlo := (magWidth_le_iff lo _).mp (le_max_left (magWidth lo) (magWidth hi))
  have hhi := (magWidth_le_iff hi _).mp (le_max_right (magWidth lo) (magWidth hi))
  omega

end Payloads

/-! ### The shared operations on legal operands -/

section Operands

variable {cfg : Config} {x : Value}

theorem asNat_legal (hx : Legal cfg x) : Ends cfg (fun a => Fits cfg a.width a.value) (asNat x) :=
  (asNat_ends x).mono fun _ ha => legal_nat.mp (ha ▸ hx)

theorem asBits_legal (hx : Legal cfg x) : Ends cfg (fun a => Fits cfg a.width a.value) (asBits x) :=
  (asBits_ends x).mono fun _ ha => legal_bits.mp (ha ▸ hx)

theorem asRanged_legal (hx : Legal cfg x) : Ends cfg (fun a => Legal cfg (.ranged a.lo a.hi a.s)) (asRanged x) :=
  (asRanged_ends x).mono fun _ ha => ha ▸ hx

theorem asMasked_legal (hx : Legal cfg x) :
    Ends cfg (fun a => Legal cfg (.masked a.w a.mask a.val a.bits)) (asMasked x) :=
  (asMasked_ends x).mono fun _ ha => ha ▸ hx

theorem asSigned_legal (hx : Legal cfg x) : Ends cfg (fun z => magWidth z ≤ cfg.wmax) (asSigned x) :=
  (asSigned_ends x).mono fun _ hz => signedVal_magWidth hx hz

theorem successor_legal (a : Sized) : Ends cfg (fun r => Fits cfg r.width r.value) (successor cfg a) :=
  (successor_ends a).mono fun _ h => h.2

theorem sum_legal {a b : Sized} (ha : Fits cfg a.width a.value) (hb : Fits cfg b.width b.value) :
    Ends cfg (fun r => Fits cfg r.width r.value) (sum cfg a b) :=
  (sum_ends a b).mono fun r ⟨hr, hw⟩ => ⟨hw, by subst hr; exact add_lt_two_pow ha.2 hb.2⟩

theorem concat_legal {a b : Sized} (ha : Fits cfg a.width a.value) (hb : Fits cfg b.width b.value) :
    Ends cfg (fun r => Fits cfg r.width r.value) (concat cfg a b) :=
  (concat_ends a b).mono fun r ⟨hr, hw⟩ => ⟨hw, by subst hr; exact concatVal_lt ha.2 hb.2⟩

theorem construct_legal (w imm : Nat) : Ends cfg (fun r => Fits cfg r.width r.value) (construct cfg w imm) :=
  (construct_ends w imm).mono fun r ⟨hr, hw⟩ => ⟨hw, by subst hr; exact Nat.mod_lt _ (Nat.two_pow_pos w)⟩

theorem shiftRight_fits (k : Nat) {a : Sized} (ha : Fits cfg a.width a.value) :
    Fits cfg (shiftRight k a).width (shiftRight k a).value :=
  ha.of_le (Nat.sub_le _ k) (div_lt_two_pow_sub ha.2)

end Operands

/-! ### The Nat family -/

section NatFamily

variable {cfg : Config} {x y : Value}

theorem natLi_legal (w imm : Nat) : Ends cfg (Legal cfg) (natLi cfg w imm) :=
  (construct_legal w imm).bind fun _ hr => legal_nat.mpr hr

theorem natSucc_legal (hx : Legal cfg x) : Ends cfg (Legal cfg) (natSucc cfg x) :=
  (asNat_legal hx).bind fun a _ => (successor_legal a).bind fun _ hr => legal_nat.mpr hr

theorem natAdd_legal (hx : Legal cfg x) (hy : Legal cfg y) : Ends cfg (Legal cfg) (natAdd cfg x y) :=
  (asNat_legal hx).bind fun _ ha => (asNat_legal hy).bind fun _ hb =>
    (sum_legal ha hb).bind fun _ hr => legal_nat.mpr hr

theorem natSub_legal (hx : Legal cfg x) (hy : Legal cfg y) : Ends cfg (Legal cfg) (natSub x y) :=
  (asNat_legal hx).bind fun _ ha => (asNat_legal hy).bind fun _ hb => difference_legal ha hb

/-- NAT.SUBZ is the one operation with a fatal event of its own, F_ZERO_INVARIANT (R91). -/
theorem natSubz_legal (hx : Legal cfg x) : Ends cfg (Legal cfg) (natSubz x) :=
  (asNat_legal hx).bind fun b hb => by
    split
    · exact .inr rfl
    · exact legal_nat.mpr (hb.of_le le_rfl (Nat.two_pow_pos _))

theorem natCmp_legal (hc : cfg.valid = true) : Ends cfg (Legal cfg) (natCmp x y) :=
  (asNat_ends x).bind fun _ _ => (asNat_ends y).bind fun _ _ => compareResult_legal hc _ _

theorem natShl_legal (k : Nat) (hx : Legal cfg x) : Ends cfg (Legal cfg) (natShl cfg k x) :=
  (asNat_legal hx).bind fun a ha => (require_ends _ .widthLimit).bind fun _ hw =>
    legal_nat.mpr ⟨hw, by rw [Nat.pow_add]; exact Nat.mul_lt_mul_of_pos_right ha.2 (Nat.two_pow_pos k)⟩

theorem natShr_legal (k : Nat) (hx : Legal cfg x) : Ends cfg (Legal cfg) (natShr k x) :=
  (asNat_legal hx).bind fun _ ha => legal_nat.mpr (shiftRight_fits k ha)

theorem natBitsize_legal (hc : cfg.valid = true) (hx : Legal cfg x) : Ends cfg (Legal cfg) (natBitsize x) :=
  (asNat_legal hx).bind fun _ ha => legal_nat.mpr (count_fits hc (((bitSize_le_iff _ _).mpr ha.2).trans ha.1))

theorem natConcat_legal (hx : Legal cfg x) (hy : Legal cfg y) : Ends cfg (Legal cfg) (natConcat cfg x y) :=
  (asNat_legal hx).bind fun _ ha => (asNat_legal hy).bind fun _ hb =>
    (concat_legal ha hb).bind fun _ hr => legal_nat.mpr hr

theorem natTobits_legal (hx : Legal cfg x) : Ends cfg (Legal cfg) (natTobits x) :=
  (asNat_legal hx).bind fun _ ha => legal_bits.mpr ha

end NatFamily

/-! ### The Bits family -/

section BitsFamily

variable {cfg : Config} {x y : Value}

theorem bitsLi_legal (w imm : Nat) : Ends cfg (Legal cfg) (bitsLi cfg w imm) :=
  (construct_legal w imm).bind fun _ hr => legal_bits.mpr hr

theorem bitsConcat_legal (hx : Legal cfg x) (hy : Legal cfg y) : Ends cfg (Legal cfg) (bitsConcat cfg x y) :=
  (asBits_legal hx).bind fun _ ha => (asBits_legal hy).bind fun _ hb =>
    (concat_legal ha hb).bind fun _ hr => legal_bits.mpr hr

theorem bitsShr_legal (k : Nat) (hx : Legal cfg x) : Ends cfg (Legal cfg) (bitsShr k x) :=
  (asBits_legal hx).bind fun _ ha => legal_bits.mpr (shiftRight_fits k ha)

theorem bitsExtract_legal (high low : Nat) (hx : Legal cfg x) : Ends cfg (Legal cfg) (bitsExtract high low x) :=
  (asBits_legal hx).bind fun a ha => (require_ends _ .widthContract).bind fun _ hl =>
    legal_bits.mpr (slice_fits ha hl a.value)

theorem bitsTrim_legal (t : Nat) (hx : Legal cfg x) : Ends cfg (Legal cfg) (bitsTrim t x) :=
  (asBits_legal hx).bind fun _ ha => (require_ends _ .widthContract).bind fun _ ht =>
    legal_bits.mpr (ha.of_le ht (Nat.mod_lt _ (Nat.two_pow_pos t)))

theorem bitsZext_legal (t : Nat) (hx : Legal cfg x) : Ends cfg (Legal cfg) (bitsZext cfg t x) :=
  (asBits_legal hx).bind fun _ ha => (require_ends _ .widthContract).bind fun _ ht =>
    (require_ends _ .widthLimit).bind fun _ hw => legal_bits.mpr (ha.widen ht hw)

theorem bitsSext_legal (t : Nat) (hx : Legal cfg x) : Ends cfg (Legal cfg) (bitsSext cfg t x) :=
  (asBits_legal hx).bind fun _ ha => (require_ends _ .widthContract).bind fun _ ht =>
    (require_ends _ .widthLimit).bind fun _ hw => legal_bits.mpr ⟨hw, signExtend_lt ha.2 ht⟩

theorem bitsNot_legal (hx : Legal cfg x) : Ends cfg (Legal cfg) (bitsNot x) :=
  (asBits_legal hx).bind fun a ha =>
    legal_bits.mpr (ha.of_le le_rfl (by have := Nat.two_pow_pos a.width; omega))

theorem bitsSucc_legal (hx : Legal cfg x) : Ends cfg (Legal cfg) (bitsSucc cfg x) :=
  (asBits_legal hx).bind fun a _ => (successor_legal a).bind fun _ hr => legal_bits.mpr hr

theorem bitsCmp_legal (hc : cfg.valid = true) : Ends cfg (Legal cfg) (bitsCmp x y) :=
  (asBits_ends x).bind fun _ _ => (asBits_ends y).bind fun _ _ => compareResult_legal hc _ _

theorem bitsFlip_legal (f : Nat) (hx : Legal cfg x) : Ends cfg (Legal cfg) (bitsFlip cfg f x) :=
  (asBits_legal hx).bind fun a ha => (require_ends _ .widthLimit).bind fun _ hw =>
    legal_bits.mpr ⟨hw, flipBit_lt (ha.widen (le_max_left _ (f + 1)) hw).2 (le_max_right a.width (f + 1))⟩

theorem bitsAdd_legal (hx : Legal cfg x) (hy : Legal cfg y) : Ends cfg (Legal cfg) (bitsAdd cfg x y) :=
  (asBits_legal hx).bind fun _ ha => (asBits_legal hy).bind fun _ hb =>
    (sum_legal ha hb).bind fun _ hr => legal_bits.mpr hr

theorem signBit_lt (n v : Nat) : signBit n v < 2 := by
  unfold signBit
  split <;> omega

theorem bitsSign_legal (hc : cfg.valid = true) : Ends cfg (Legal cfg) (bitsSign x) :=
  (asBits_ends x).bind fun _ _ =>
    legal_bits.mpr ⟨le_trans (by decide) (wmax_bounds hc).1, signBit_lt _ _⟩

theorem bitsTonat_legal (hx : Legal cfg x) : Ends cfg (Legal cfg) (bitsTonat x) :=
  (asBits_legal hx).bind fun _ ha => legal_nat.mpr ha

end BitsFamily

/-! ### The Neg family -/

section NegFamily

variable {cfg : Config} {x y : Value}

theorem negNegate_legal (hx : Legal cfg x) : Ends cfg (Legal cfg) (negNegate x) := by
  cases x with
  | nat w v => exact legal_neg.mpr (legal_nat.mp hx)
  | neg w m => exact legal_nat.mpr (legal_neg.mp hx)
  | _ => exact ends_kind

theorem negAbs_legal (hx : Legal cfg x) : Ends cfg (Legal cfg) (negAbs x) := by
  cases x with
  | nat w v => exact hx
  | neg w m => exact legal_nat.mpr (legal_neg.mp hx)
  | _ => exact ends_kind

theorem negCmp_legal (hc : cfg.valid = true) : Ends cfg (Legal cfg) (negCmp x y) :=
  (asSigned_ends x).bind fun _ _ => (asSigned_ends y).bind fun _ _ => compareResult_legal hc _ _

theorem negAdd_legal (hx : Legal cfg x) (hy : Legal cfg y) : Ends cfg (Legal cfg) (negAdd x y) := by
  unfold negAdd
  split
  · exact difference_legal (legal_nat.mp hx) (legal_neg.mp hy)
  · exact difference_legal (legal_nat.mp hy) (legal_neg.mp hx)
  · exact ends_kind

end NegFamily

/-! ### The RangedInt family -/

section RangedFamily

variable {cfg : Config} {x y z : Value}

theorem rangeRaised_legal (cfg : Config) : (rangeRaised cfg).Legal cfg := by
  unfold rangeRaised
  split
  · next hd => exact .inl hd
  · exact fun h => by cases h

theorem riNew_legal (hy : Legal cfg y) (hz : Legal cfg z) : Ends cfg (Legal cfg) (riNew cfg x y z) :=
  (asSigned_ends x).bind fun v _ => (asSigned_legal hy).bind fun lo hlo => (asSigned_legal hz).bind fun hi hhi =>
    (require_ends _ .bounds).bind fun _ hle => (require_ends _ .widthLimit).bind fun _ hw => by
      split
      · exact legal_ranged.mpr ⟨hle, hlo, hhi, by omega, hw⟩
      · exact rangeRaised_legal cfg

theorem riAdd_legal (hx : Legal cfg x) (hy : Legal cfg y) : Ends cfg (Legal cfg) (riAdd cfg x y) :=
  (asRanged_legal hx).bind fun a ha => (asRanged_legal hy).bind fun b hb =>
    (require_ends _ .widthLimit).bind fun _ ⟨hlo, hhi, hw⟩ => by
      obtain ⟨hle, -, -, hs, -⟩ := legal_ranged.mp ha
      obtain ⟨hle', -, -, hs', -⟩ := legal_ranged.mp hb
      exact legal_ranged.mpr ⟨by omega, hlo, hhi, by omega, hw⟩

theorem riValue_legal (hx : Legal cfg x) : Ends cfg (Legal cfg) (riValue x) :=
  (asRanged_legal hx).bind fun a ha => by
    obtain ⟨hle, hlo, hhi, hs, -⟩ := legal_ranged.mp ha
    have hv : (a.lo + a.s).natAbs < 2 ^ max (magWidth a.lo) (magWidth a.hi) :=
      natAbs_lt_of_between (by omega) (by omega)
    show Legal cfg (if _ then _ else _)
    split
    · exact legal_nat.mpr ⟨max_le hlo hhi, by omega⟩
    · exact legal_neg.mpr ⟨max_le hlo hhi, by omega⟩

theorem riBias_legal (hx : Legal cfg x) : Ends cfg (Legal cfg) (riBias x) :=
  (asRanged_legal hx).bind fun _ ha => by
    obtain ⟨-, -, -, hs, hw⟩ := legal_ranged.mp ha
    exact legal_nat.mpr ⟨hw, storage_lt _ _ _ hs⟩

theorem riWidth_legal (hc : cfg.valid = true) (hx : Legal cfg x) : Ends cfg (Legal cfg) (riWidth x) :=
  (asRanged_legal hx).bind fun _ ha => by
    obtain ⟨-, -, -, -, hw⟩ := legal_ranged.mp ha
    exact legal_nat.mpr (count_fits hc hw)

end RangedFamily

/-! ### The MaskedBits family -/

section MaskedFamily

variable {cfg : Config} {x y z : Value}

theorem mbNew_legal (hx : Legal cfg x) (hy : Legal cfg y) (hz : Legal cfg z) :
    Ends cfg (Legal cfg) (mbNew x y z) :=
  (asBits_legal hx).bind fun _ hb => (asBits_legal hy).bind fun _ hm => (asBits_legal hz).bind fun _ hk =>
    (require_ends _ .widthContract).bind fun _ ⟨hmw, hkw⟩ =>
      legal_masked.mpr ⟨hmw ▸ hm, hkw ▸ hk, hb⟩

theorem mbExtract_legal (high low : Nat) (hx : Legal cfg x) : Ends cfg (Legal cfg) (mbExtract high low x) :=
  (asMasked_legal hx).bind fun a ha => (require_ends _ .widthContract).bind fun _ hl =>
    have hfit := slice_fits (legal_masked.mp ha).1 hl
    legal_masked.mpr ⟨hfit a.mask, hfit a.val, hfit a.bits⟩

theorem mbFixed_legal (hc : cfg.valid = true) : Ends cfg (Legal cfg) (mbFixed x) :=
  (asMasked_ends x).bind fun _ _ => bool_legal hc _

theorem mbEq_legal (hc : cfg.valid = true) : Ends cfg (Legal cfg) (mbEq x y) :=
  (asMasked_ends x).bind fun _ _ => (asNatural_ends y).bind fun _ _ => bool_legal hc _

end MaskedFamily

/-! ### Every instruction -/

/-- At a state whose slots are legal, an instruction with a destination finishes with a legal value or an event of
the build (R24, R149). -/
theorem execIn_finishes_legal {cfg : Config} (hc : cfg.valid = true) {s : State} (hs : ∀ r, Legal cfg (s.slot r))
    {d : Slot} : ∀ i : Instr, i.dest = some d →
      ∃ r, execIn cfg i s = .next (finish d r s) ∧ Ends cfg (Legal cfg) r
  | .mov _ a, rfl => ⟨_, rfl, onOne_ends (hs a)⟩
  | .clr _, rfl => ⟨_, rfl, legal_empty⟩
  | .natLi _ w n, rfl => ⟨_, rfl, natLi_legal w n⟩
  | .natSucc _ a, rfl => ⟨_, rfl, onOne_ends (natSucc_legal (hs a))⟩
  | .natAdd _ a b, rfl => ⟨_, rfl, onTwo_ends (natAdd_legal (hs a) (hs b))⟩
  | .natSub _ a b, rfl => ⟨_, rfl, onTwo_ends (natSub_legal (hs a) (hs b))⟩
  | .natSubz _ a, rfl => ⟨_, rfl, onOne_ends (natSubz_legal (hs a))⟩
  | .natCmp _ _ _, rfl => ⟨_, rfl, onTwo_ends (natCmp_legal hc)⟩
  | .natShl _ a k, rfl => ⟨_, rfl, onOne_ends (natShl_legal k (hs a))⟩
  | .natShr _ a k, rfl => ⟨_, rfl, onOne_ends (natShr_legal k (hs a))⟩
  | .natBitsize _ a, rfl => ⟨_, rfl, onOne_ends (natBitsize_legal hc (hs a))⟩
  | .natConcat _ a b, rfl => ⟨_, rfl, onTwo_ends (natConcat_legal (hs a) (hs b))⟩
  | .natTobits _ a, rfl => ⟨_, rfl, onOne_ends (natTobits_legal (hs a))⟩
  | .bitsLi _ w n, rfl => ⟨_, rfl, bitsLi_legal w n⟩
  | .bitsConcat _ a b, rfl => ⟨_, rfl, onTwo_ends (bitsConcat_legal (hs a) (hs b))⟩
  | .bitsShr _ a k, rfl => ⟨_, rfl, onOne_ends (bitsShr_legal k (hs a))⟩
  | .bitsExtract _ a high low, rfl => ⟨_, rfl, onOne_ends (bitsExtract_legal high low (hs a))⟩
  | .bitsTrim _ a t, rfl => ⟨_, rfl, onOne_ends (bitsTrim_legal t (hs a))⟩
  | .bitsZext _ a t, rfl => ⟨_, rfl, onOne_ends (bitsZext_legal t (hs a))⟩
  | .bitsSext _ a t, rfl => ⟨_, rfl, onOne_ends (bitsSext_legal t (hs a))⟩
  | .bitsNot _ a, rfl => ⟨_, rfl, onOne_ends (bitsNot_legal (hs a))⟩
  | .bitsSucc _ a, rfl => ⟨_, rfl, onOne_ends (bitsSucc_legal (hs a))⟩
  | .bitsCmp _ _ _, rfl => ⟨_, rfl, onTwo_ends (bitsCmp_legal hc)⟩
  | .bitsFlip _ a f, rfl => ⟨_, rfl, onOne_ends (bitsFlip_legal f (hs a))⟩
  | .bitsAdd _ a b, rfl => ⟨_, rfl, onTwo_ends (bitsAdd_legal (hs a) (hs b))⟩
  | .bitsSign _ _, rfl => ⟨_, rfl, onOne_ends (bitsSign_legal hc)⟩
  | .bitsTonat _ a, rfl => ⟨_, rfl, onOne_ends (bitsTonat_legal (hs a))⟩
  | .negNegate _ a, rfl => ⟨_, rfl, onOne_ends (negNegate_legal (hs a))⟩
  | .negAbs _ a, rfl => ⟨_, rfl, onOne_ends (negAbs_legal (hs a))⟩
  | .negCmp _ _ _, rfl => ⟨_, rfl, onTwo_ends (negCmp_legal hc)⟩
  | .negAdd _ a b, rfl => ⟨_, rfl, onTwo_ends (negAdd_legal (hs a) (hs b))⟩
  | .riNew _ _ b c, rfl => ⟨_, rfl, onThree_ends (riNew_legal (hs b) (hs c))⟩
  | .riAdd _ a b, rfl => ⟨_, rfl, onTwo_ends (riAdd_legal (hs a) (hs b))⟩
  | .riValue _ a, rfl => ⟨_, rfl, onOne_ends (riValue_legal (hs a))⟩
  | .riBias _ a, rfl => ⟨_, rfl, onOne_ends (riBias_legal (hs a))⟩
  | .riWidth _ a, rfl => ⟨_, rfl, onOne_ends (riWidth_legal hc (hs a))⟩
  | .mbNew _ a b c, rfl => ⟨_, rfl, onThree_ends (mbNew_legal (hs a) (hs b) (hs c))⟩
  | .mbExtract _ a high low, rfl => ⟨_, rfl, onOne_ends (mbExtract_legal high low (hs a))⟩
  | .mbFixed _ _, rfl => ⟨_, rfl, onOne_ends (mbFixed_legal hc)⟩
  | .mbEq _ _ _, rfl => ⟨_, rfl, onTwo_ends (mbEq_legal hc)⟩

end Sys2Proof.Machine

/-! Every unit step and every host move leads from a legal state to a legal state, in every build that R7 allows. -/

namespace Sys2Proof.Machine

open Sys2Proof.Claim

section Invariant

variable {cfg : Config}

/-! ### STATUS -/

/-- A legal STATUS, clause by clause (R33, R149, R151). -/
theorem status_wf_iff (st : Status) :
    st.wf cfg = true ↔
      (st.err = true → 1 ≤ st.cause.toNat ∧ st.cause.toNat ≤ 0x0A ∧ 1 ≤ st.errCnt.toNat)
        ∧ (st.err = false → st.cause = 0 ∧ st.errCnt = 0 ∧ st.errSeq = 0 ∧ st.fatal = false)
        ∧ (st.fatal = true → st.halted = true)
        ∧ (cfg.debugAbort = false → (st.fatal = true ↔ st.cause = 0x0A)) := by
  have hfatal : (cfg.debugAbort || st.fatal == decide (st.cause = 0x0A)) = true
      ↔ (cfg.debugAbort = false → (st.fatal = true ↔ st.cause = 0x0A)) := by
    cases cfg.debugAbort <;> cases st.fatal <;> simp
  have hhalt : (!st.fatal || st.halted) = true ↔ (st.fatal = true → st.halted = true) := by
    cases st.fatal <;> simp
  unfold Status.wf
  rw [Bool.and_eq_true, Bool.and_eq_true, hfatal, hhalt]
  cases st.err <;> simp [and_assoc]

theorem halt_keeps_status_wf {st : Status} (h : st.wf cfg = true) :
    ({ st with halted := true } : Status).wf cfg = true := by
  rw [status_wf_iff] at h ⊢
  obtain ⟨herr, hnone, -, hfatal⟩ := h
  exact ⟨herr, hnone, fun _ => rfl, hfatal⟩

/-- The cause and the count that an error leaves are in R149's range: the new cause's code, or the one recorded
before. -/
theorem recordError_ranges {st : Status} (h : st.wf cfg = true) (c : Cause) (fatal : Bool) (seq : BitVec 32) :
    1 ≤ (recordError c fatal seq st).cause.toNat ∧ (recordError c fatal seq st).cause.toNat ≤ 0x0A
      ∧ 1 ≤ (recordError c fatal seq st).errCnt.toNat := by
  obtain ⟨-, hcnt, hnew, hkept⟩ := recordError_recorded c fatal seq st
  rw [hcnt]
  by_cases hf : st.err = false ∨ fatal = true
  · rw [(hnew hf).1]
    obtain ⟨h1, h2⟩ := causeCode_range c
    exact ⟨h1, h2, by omega⟩
  · simp only [not_or, Bool.not_eq_false, Bool.not_eq_true] at hf
    obtain ⟨herr, hrec⟩ := hf
    rw [(hkept herr hrec).1]
    obtain ⟨h1, h2, -⟩ := ((status_wf_iff st).mp h).1 herr
    exact ⟨h1, h2, by omega⟩

/-- A running unit is under no fatal error (R151). -/
theorem fatal_eq_false_of_running {st : Status} (h : st.wf cfg = true) (hrun : st.halted = false) :
    st.fatal = false := by
  obtain ⟨-, -, hhalt, -⟩ := (status_wf_iff st).mp h
  rw [← Bool.not_eq_true]
  intro hf
  rw [hhalt hf] at hrun
  cases hrun

/-- A recoverable error taken by a running unit leaves a cause that is not F_ZERO_INVARIANT's (R149, R152). -/
theorem recordError_recoverable_cause {st : Status} (h : st.wf cfg = true) (hrun : st.halted = false)
    (hd : cfg.debugAbort = false) {c : Cause} (hc : c ≠ .zeroInvariant) (seq : BitVec 32) :
    (recordError c false seq st).cause ≠ 0x0A := by
  obtain ⟨-, -, hnew, hkept⟩ := recordError_recorded c false seq st
  cases herr : st.err with
  | false =>
    rw [(hnew (.inl herr)).1]
    exact fun h10 => hc ((causeCode_eq_ten c).mp h10)
  | true =>
    obtain ⟨-, -, -, hfatal⟩ := (status_wf_iff st).mp h
    rw [(hkept herr rfl).1]
    intro h10
    exact absurd (fatal_eq_false_of_running h hrun) (by simp [(hfatal hd).mpr h10])

@[simp] theorem takeError_err (r : Raised) (s : State) : (takeError r s).status.err = true := by cases r <;> rfl

/-- A running unit that takes an event of its build keeps STATUS legal (R150 to R152). -/
theorem takeError_keeps_status_wf {s : State} (h : s.status.wf cfg = true) (hrun : s.status.halted = false)
    {r : Raised} (hr : r.Legal cfg) : (takeError r s).status.wf cfg = true := by
  have hnone : (takeError r s).status.err ≠ false := by simp
  refine (status_wf_iff _).mpr ⟨fun _ => ?_, fun herr => absurd herr hnone, ?_⟩
  · cases r with
    | error c => exact recordError_ranges h c false s.seq
    | fatal c => exact recordError_ranges h c true s.seq
  · cases r with
    | error c =>
      have hrunning : s.status.fatal = false := fatal_eq_false_of_running h hrun
      have hkeep : (recordError c false s.seq s.status).fatal = false := hrunning
      refine ⟨by simp [hkeep], fun hd => ?_⟩
      simpa [hkeep] using recordError_recoverable_cause h hrun hd hr s.seq
    | fatal c =>
      refine ⟨fun _ => rfl, fun hd => ⟨fun _ => ?_, fun _ => rfl⟩⟩
      obtain ⟨-, -, hnew, -⟩ := recordError_recorded c true s.seq s.status
      have hzero : c = .zeroInvariant := hr.resolve_left (by simp [hd])
      exact (hnew (.inr rfl)).1.trans ((causeCode_eq_ten c).mpr hzero)

/-! ### The updates of the state -/

theorem advanceSeq_keeps_wf {s : State} (h : s.wf cfg = true) : (advanceSeq s).wf cfg = true :=
  state_wf_congr cfg s _ rfl rfl le_rfl h

theorem writeSlot_keeps_wf {s : State} (h : s.wf cfg = true) (rd : Slot) {v : Value} (hv : Legal cfg v) :
    (writeSlot rd v s).wf cfg = true := by
  rw [state_wf_iff] at h ⊢
  obtain ⟨hslots, hstatus, hqueue⟩ := h
  refine ⟨fun r => ?_, hstatus, hqueue⟩
  rw [writeSlot_slot]
  split
  · exact hv
  · exact hslots r

theorem withStatus_keeps_wf {s t : State} (h : s.wf cfg = true) (hslots : t.slots = s.slots)
    (hqueue : t.queue = s.queue) (hst : t.status.wf cfg = true) : t.wf cfg = true := by
  rw [state_wf_iff] at h ⊢
  obtain ⟨hs, -, hq⟩ := h
  exact ⟨fun r => by simpa only [State.slot, hslots] using hs r, hst, hqueue ▸ hq⟩

theorem takeError_keeps_wf {s : State} (h : s.wf cfg = true) (hrun : s.status.halted = false) {r : Raised}
    (hr : r.Legal cfg) : (takeError r s).wf cfg = true :=
  have ⟨_, hstatus, _⟩ := (state_wf_iff cfg s).mp h
  withStatus_keeps_wf h (takeError_slots r s) (takeError_queue r s) (takeError_keeps_status_wf hstatus hrun hr)

theorem finish_keeps_wf {s : State} (h : s.wf cfg = true) (hrun : s.status.halted = false) (rd : Slot)
    {r : Except Raised Value} (hr : Ends cfg (Legal cfg) r) : (finish rd r s).wf cfg = true := by
  cases r with
  | ok v => exact advanceSeq_keeps_wf (writeSlot_keeps_wf h rd hr)
  | error e => exact advanceSeq_keeps_wf (takeError_keeps_wf h hrun hr)

theorem finishRejected_keeps_wf {s : State} (h : s.wf cfg = true) (hrun : s.status.halted = false) {c : Cause}
    (hc : c ≠ .zeroInvariant) : (finishRejected c s).wf cfg = true :=
  advanceSeq_keeps_wf (takeError_keeps_wf h hrun hc)

/-! ### Instructions, steps and host moves -/

theorem execIn_keeps_wf (hc : cfg.valid = true) {s t : State} (h : s.wf cfg = true)
    (hrun : s.status.halted = false) {i : Instr} (he : execIn cfg i s = .next t) : t.wf cfg = true := by
  obtain ⟨hslots, hstatus, -⟩ := (state_wf_iff cfg s).mp h
  rcases execIn_cases cfg i with ⟨-, hnop⟩ | ⟨-, hhalt⟩ | ⟨d, -, hd, -⟩
  · cases (hnop s).symm.trans he
    exact advanceSeq_keeps_wf h
  · cases (hhalt s).symm.trans he
    exact advanceSeq_keeps_wf (withStatus_keeps_wf h rfl rfl (halt_keeps_status_wf hstatus))
  · obtain ⟨r, hfinish, hr⟩ := execIn_finishes_legal hc hslots i hd
    cases hfinish.symm.trans he
    exact finish_keeps_wf h hrun d hr

theorem takeCommandWith_keeps_wf (hc : cfg.valid = true) {s t : State} (h : s.wf cfg = true)
    (hrun : s.status.halted = false) {c : Command} (ht : takeCommandWith (execIn cfg) c s = .next t) :
    t.wf cfg = true := by
  unfold takeCommandWith at ht
  split at ht
  · cases ht
    exact finishRejected_keeps_wf h hrun (by decide)
  · cases ht
    exact finishRejected_keeps_wf h hrun (by decide)
  · exact execIn_keeps_wf hc h hrun ht

theorem unitStepIn_keeps_wf (hc : cfg.valid = true) {s t : State} (h : s.wf cfg = true)
    (ht : unitStepIn cfg s = .next t) : t.wf cfg = true := by
  unfold unitStepIn unitStepWith at ht
  split at ht
  · cases ht
  · next hrun =>
    split at ht
    · cases ht
      exact h
    · next c rest hq =>
      have hrest : ({ s with queue := rest } : State).wf cfg = true :=
        state_wf_congr cfg s _ rfl rfl (by simp [hq]) h
      exact takeCommandWith_keeps_wf hc hrest (by simpa using hrun) ht

theorem reset_wf (cfg : Config) : State.reset.wf cfg = true := by
  refine (state_wf_iff cfg _).mpr ⟨fun r => ?_, (status_wf_iff _).mpr ?_, Nat.zero_le _⟩
  · rw [reset_slot]
    rfl
  · simp [State.reset, Status.reset]

theorem hostPush_keeps_wf {s t : State} (h : s.wf cfg = true) {c : Command} (ht : hostPush cfg c s = some t) :
    t.wf cfg = true := by
  unfold hostPush at ht
  split at ht
  · next hroom =>
    cases ht
    obtain ⟨hslots, hstatus, -⟩ := (state_wf_iff cfg s).mp h
    exact (state_wf_iff cfg _).mpr ⟨hslots, hstatus, by simpa using hroom⟩
  · cases ht

theorem hostMove_keeps_wf {m : HostMove} {s t : State} (h : s.wf cfg = true) (ht : hostMove cfg m s = some t) :
    t.wf cfg = true := by
  cases m with
  | push c => exact hostPush_keeps_wf h ht
  | reset => cases ht; exact reset_wf cfg
  | readSlot r => cases ht; exact h
  | readStatus => cases ht; exact h

end Invariant

/-- Settles O14: the clauses on this hardware are those on every build at `Config.natUnit`. -/
theorem stepsAndHostMovesKeepLegalStates : Obligations.StepsAndHostMovesKeepLegalStates :=
  ⟨fun s _ h ht => unitStepIn_keeps_wf (by decide) h ((unitStepIn_natUnit s).trans ht),
    fun _ _ _ h ht => hostMove_keeps_wf h ht,
    fun _ _ hc h => ⟨fun _ ht => unitStepIn_keeps_wf hc h ht, fun _ _ ht => hostMove_keeps_wf h ht⟩⟩

end Sys2Proof.Machine

/-! What an instruction's outcome depends on: its source slots and its own fields (R20), and its result's width and
kind on the widths and kinds of its sources (R21, R22). -/

namespace Sys2Proof.Machine

open Sys2Proof.Claim

/-- Settles O20, by the three forms of `exec_cases`: the result that a command finishes with is the same at both
states. -/
theorem outcomeDependsOnlyOnSources : Obligations.OutcomeDependsOnlyOnSources := by
  intro i s₁ s₂ hagree
  rcases exec_cases i with ⟨hi, hnop⟩ | ⟨hi, hhalt⟩ | ⟨d, r, hd, hfinish, hsame⟩
  · exact ⟨_, _, hnop s₁, hnop s₂, .inr (.inr (.inr (.inr ⟨hi, rfl, rfl⟩)))⟩
  · exact ⟨_, _, hhalt s₁, hhalt s₂, .inr (.inr (.inr (.inl ⟨hi, rfl, rfl⟩)))⟩
  · refine ⟨_, _, hfinish s₁, hfinish s₂, ?_⟩
    rw [← hsame s₁ s₂ hagree]
    rcases r s₁ with (c | c) | v
    · exact .inr (.inl ⟨c, finish_error_erred d c s₁, finish_error_erred d c s₂⟩)
    · exact .inr (.inr (.inl ⟨c, finish_fatal_erred d c s₁, finish_fatal_erred d c s₂⟩))
    · exact .inl ⟨d, v, hd, finish_ok_wrote d v s₁, finish_ok_wrote d v s₂⟩

/-! ### Static widths and kinds -/

/-- The width of an instruction's result, from the widths of its source slots (R21); 0 for the instructions without a
static width, the RangedInt family and those without a result. -/
def resultWidth (w : Slot → Nat) : Instr → Nat
  | .mov _ a => w a
  | .natLi _ n _ | .bitsLi _ n _ => n
  | .natSucc _ a | .bitsSucc _ a => succWidth (w a)
  | .natAdd _ a b | .bitsAdd _ a b => max (w a) (w b) + 1
  | .natSub _ a b | .negAdd _ a b => max (w a) (w b)
  | .natSubz _ a | .natTobits _ a | .bitsTonat _ a | .bitsNot _ a | .negNegate _ a | .negAbs _ a => w a
  | .natCmp _ _ _ | .bitsCmp _ _ _ | .negCmp _ _ _ => 2
  | .natShl _ a k => w a + k
  | .natShr _ a k | .bitsShr _ a k => w a - k
  | .natBitsize _ _ => cntw
  | .natConcat _ a b | .bitsConcat _ a b => w a + w b
  | .bitsExtract _ _ high low | .mbExtract _ _ high low => high - low + 1
  | .bitsTrim _ _ t | .bitsZext _ _ t | .bitsSext _ _ t => t
  | .bitsFlip _ a f => max (w a) (f + 1)
  | .bitsSign _ _ | .mbFixed _ _ | .mbEq _ _ _ => 1
  | .mbNew _ a _ _ => w a
  | .nop | .halt | .clr _ | .riNew _ _ _ _ | .riAdd _ _ _ | .riValue _ _ | .riBias _ _ | .riWidth _ _ => 0

/-- The kind code of NEG.NEGATE's result, from that of its source: NAT and NEG are exchanged (R126). -/
def negatedKind (k : Nat) : Nat := if k = 1 then 2 else 1

/-- The kind code (R25) of an instruction's result, from those of its source slots (R22); 0, EMPTY's, for the
instructions without a static kind and those without a result. -/
def resultKind (k : Slot → Nat) : Instr → Nat
  | .mov _ a => k a
  | .negNegate _ a => negatedKind (k a)
  | .natLi _ _ _ | .natSucc _ _ | .natAdd _ _ _ | .natSubz _ _ | .natShl _ _ _ | .natShr _ _ _ | .natBitsize _ _
  | .natConcat _ _ _ | .bitsTonat _ _ | .negAbs _ _ => 1
  | .natCmp _ _ _ | .natTobits _ _ | .bitsLi _ _ _ | .bitsConcat _ _ _ | .bitsShr _ _ _ | .bitsExtract _ _ _ _
  | .bitsTrim _ _ _ | .bitsZext _ _ _ | .bitsSext _ _ _ | .bitsNot _ _ | .bitsSucc _ _ | .bitsCmp _ _ _
  | .bitsFlip _ _ _ | .bitsAdd _ _ _ | .bitsSign _ _ | .negCmp _ _ _ | .mbFixed _ _ | .mbEq _ _ _ => 3
  | .mbNew _ _ _ _ | .mbExtract _ _ _ _ => 5
  | .nop | .halt | .clr _ | .natSub _ _ _ | .negAdd _ _ _ | .riNew _ _ _ _ | .riAdd _ _ _ | .riValue _ _ | .riBias _ _
  | .riWidth _ _ => 0

/-- A value of kind code `k` and width `w`. -/
def HasShape (k w : Nat) (v : Value) : Prop := widthOf v = w ∧ kindCode v = k

section Operations

variable {cfg : Config}

theorem asNat_width (x : Value) : Ends cfg (fun a => a.width = widthOf x) (asNat x) :=
  (asNat_ends x).mono fun _ h => by rw [h]; rfl

theorem asBits_width (x : Value) : Ends cfg (fun a => a.width = widthOf x) (asBits x) :=
  (asBits_ends x).mono fun _ h => by rw [h]; rfl

theorem widthOf_difference (w u m : Nat) : widthOf (difference w u m) = w := by
  unfold difference
  split <;> rfl

theorem natLi_shape (w imm : Nat) : Ends cfg (HasShape 1 w) (natLi cfg w imm) :=
  (construct_ends w imm).bind fun _ ⟨hr, _⟩ => ⟨congrArg Sized.width hr, rfl⟩

theorem natSucc_shape (x : Value) : Ends cfg (HasShape 1 (succWidth (widthOf x))) (natSucc cfg x) :=
  (asNat_width x).bind fun a ha => (successor_ends a).bind fun _ ⟨hr, _⟩ => ⟨ha ▸ hr, rfl⟩

theorem natAdd_shape (x y : Value) : Ends cfg (HasShape 1 (max (widthOf x) (widthOf y) + 1)) (natAdd cfg x y) :=
  (asNat_width x).bind fun a ha => (asNat_width y).bind fun b hb =>
    (sum_ends a b).bind fun _ ⟨hr, _⟩ => ⟨ha ▸ hb ▸ congrArg Sized.width hr, rfl⟩

theorem natSub_width (x y : Value) :
    Ends cfg (fun v => widthOf v = max (widthOf x) (widthOf y)) (natSub x y) :=
  (asNat_width x).bind fun _ ha => (asNat_width y).bind fun _ hb => ha ▸ hb ▸ widthOf_difference _ _ _

theorem natSubz_shape (x : Value) : Ends cfg (HasShape 1 (widthOf x)) (natSubz x) :=
  (asNat_width x).bind fun b hb => by
    split
    · exact .inr rfl
    · exact ⟨hb, rfl⟩

theorem natCmp_shape (x y : Value) : Ends cfg (HasShape 3 2) (natCmp x y) :=
  (asNat_ends x).bind fun _ _ => (asNat_ends y).bind fun _ _ => ⟨rfl, rfl⟩

theorem natShl_shape (k : Nat) (x : Value) : Ends cfg (HasShape 1 (widthOf x + k)) (natShl cfg k x) :=
  (asNat_width x).bind fun _ ha => (require_ends _ .widthLimit).bind fun _ _ => ⟨ha ▸ rfl, rfl⟩

theorem natShr_shape (k : Nat) (x : Value) : Ends cfg (HasShape 1 (widthOf x - k)) (natShr k x) :=
  (asNat_width x).bind fun _ ha => ⟨ha ▸ rfl, rfl⟩

theorem natBitsize_shape (x : Value) : Ends cfg (HasShape 1 cntw) (natBitsize x) :=
  (asNat_ends x).bind fun _ _ => ⟨rfl, rfl⟩

theorem natConcat_shape (x y : Value) : Ends cfg (HasShape 1 (widthOf x + widthOf y)) (natConcat cfg x y) :=
  (asNat_width x).bind fun a ha => (asNat_width y).bind fun b hb =>
    (concat_ends a b).bind fun _ ⟨hr, _⟩ => ⟨ha ▸ hb ▸ congrArg Sized.width hr, rfl⟩

theorem natTobits_shape (x : Value) : Ends cfg (HasShape 3 (widthOf x)) (natTobits x) :=
  (asNat_width x).bind fun _ ha => ⟨ha, rfl⟩

theorem bitsLi_shape (w imm : Nat) : Ends cfg (HasShape 3 w) (bitsLi cfg w imm) :=
  (construct_ends w imm).bind fun _ ⟨hr, _⟩ => ⟨congrArg Sized.width hr, rfl⟩

theorem bitsConcat_shape (x y : Value) : Ends cfg (HasShape 3 (widthOf x + widthOf y)) (bitsConcat cfg x y) :=
  (asBits_width x).bind fun a ha => (asBits_width y).bind fun b hb =>
    (concat_ends a b).bind fun _ ⟨hr, _⟩ => ⟨ha ▸ hb ▸ congrArg Sized.width hr, rfl⟩

theorem bitsShr_shape (k : Nat) (x : Value) : Ends cfg (HasShape 3 (widthOf x - k)) (bitsShr k x) :=
  (asBits_width x).bind fun _ ha => ⟨ha ▸ rfl, rfl⟩

theorem bitsExtract_shape (high low : Nat) (x : Value) :
    Ends cfg (HasShape 3 (high - low + 1)) (bitsExtract high low x) :=
  (asBits_ends x).bind fun _ _ => (require_ends _ .widthContract).bind fun _ _ => ⟨rfl, rfl⟩

theorem bitsTrim_shape (t : Nat) (x : Value) : Ends cfg (HasShape 3 t) (bitsTrim t x) :=
  (asBits_ends x).bind fun _ _ => (require_ends _ .widthContract).bind fun _ _ => ⟨rfl, rfl⟩

theorem bitsZext_shape (t : Nat) (x : Value) : Ends cfg (HasShape 3 t) (bitsZext cfg t x) :=
  (asBits_ends x).bind fun _ _ => (require_ends _ .widthContract).bind fun _ _ =>
    (require_ends _ .widthLimit).bind fun _ _ => ⟨rfl, rfl⟩

theorem bitsSext_shape (t : Nat) (x : Value) : Ends cfg (HasShape 3 t) (bitsSext cfg t x) :=
  (asBits_ends x).bind fun _ _ => (require_ends _ .widthContract).bind fun _ _ =>
    (require_ends _ .widthLimit).bind fun _ _ => ⟨rfl, rfl⟩

theorem bitsNot_shape (x : Value) : Ends cfg (HasShape 3 (widthOf x)) (bitsNot x) :=
  (asBits_width x).bind fun _ ha => ⟨ha, rfl⟩

theorem bitsSucc_shape (x : Value) : Ends cfg (HasShape 3 (succWidth (widthOf x))) (bitsSucc cfg x) :=
  (asBits_width x).bind fun a ha => (successor_ends a).bind fun _ ⟨hr, _⟩ => ⟨ha ▸ hr, rfl⟩

theorem bitsCmp_shape (x y : Value) : Ends cfg (HasShape 3 2) (bitsCmp x y) :=
  (asBits_ends x).bind fun _ _ => (asBits_ends y).bind fun _ _ => ⟨rfl, rfl⟩

theorem bitsFlip_shape (f : Nat) (x : Value) : Ends cfg (HasShape 3 (max (widthOf x) (f + 1))) (bitsFlip cfg f x) :=
  (asBits_width x).bind fun _ ha => (require_ends _ .widthLimit).bind fun _ _ => ⟨ha ▸ rfl, rfl⟩

theorem bitsAdd_shape (x y : Value) : Ends cfg (HasShape 3 (max (widthOf x) (widthOf y) + 1)) (bitsAdd cfg x y) :=
  (asBits_width x).bind fun a ha => (asBits_width y).bind fun b hb =>
    (sum_ends a b).bind fun _ ⟨hr, _⟩ => ⟨ha ▸ hb ▸ congrArg Sized.width hr, rfl⟩

theorem bitsSign_shape (x : Value) : Ends cfg (HasShape 3 1) (bitsSign x) :=
  (asBits_ends x).bind fun _ _ => ⟨rfl, rfl⟩

theorem bitsTonat_shape (x : Value) : Ends cfg (HasShape 1 (widthOf x)) (bitsTonat x) :=
  (asBits_width x).bind fun _ ha => ⟨ha, rfl⟩

theorem negNegate_shape (x : Value) : Ends cfg (HasShape (negatedKind (kindCode x)) (widthOf x)) (negNegate x) := by
  cases x with
  | nat w v => exact ⟨rfl, rfl⟩
  | neg w m => exact ⟨rfl, rfl⟩
  | _ => exact ends_kind

theorem negAbs_shape (x : Value) : Ends cfg (HasShape 1 (widthOf x)) (negAbs x) := by
  cases x with
  | nat w v => exact ⟨rfl, rfl⟩
  | neg w m => exact ⟨rfl, rfl⟩
  | _ => exact ends_kind

theorem negCmp_shape (x y : Value) : Ends cfg (HasShape 3 2) (negCmp x y) :=
  (asSigned_ends x).bind fun _ _ => (asSigned_ends y).bind fun _ _ => ⟨rfl, rfl⟩

theorem negAdd_width (x y : Value) :
    Ends cfg (fun v => widthOf v = max (widthOf x) (widthOf y)) (negAdd x y) := by
  unfold negAdd
  split
  · exact widthOf_difference _ _ _
  · exact (widthOf_difference _ _ _).trans (max_comm _ _)
  · exact ends_kind

theorem mbNew_shape (x y z : Value) : Ends cfg (HasShape 5 (widthOf x)) (mbNew x y z) :=
  (asBits_width x).bind fun _ ha => (asBits_ends y).bind fun _ _ => (asBits_ends z).bind fun _ _ =>
    (require_ends _ .widthContract).bind fun _ _ => ⟨ha, rfl⟩

theorem mbExtract_shape (high low : Nat) (x : Value) :
    Ends cfg (HasShape 5 (high - low + 1)) (mbExtract high low x) :=
  (asMasked_ends x).bind fun _ _ => (require_ends _ .widthContract).bind fun _ _ => ⟨rfl, rfl⟩

theorem mbFixed_shape (x : Value) : Ends cfg (HasShape 3 1) (mbFixed x) :=
  (asMasked_ends x).bind fun _ _ => ⟨rfl, rfl⟩

theorem mbEq_shape (x y : Value) : Ends cfg (HasShape 3 1) (mbEq x y) :=
  (asMasked_ends x).bind fun _ _ => (asNatural_ends y).bind fun _ _ => ⟨rfl, rfl⟩

end Operations

/-! ### Every instruction -/

/-- A result of the width, and where R22 says so the kind, that the shapes of the sources give (R21, R22). -/
def StaticResult (i : Instr) (s : State) (v : Value) : Prop :=
  widthOf v = resultWidth (fun r => widthOf (s.slot r)) i
    ∧ (¬KindByValue i → kindCode v = resultKind (fun r => kindCode (s.slot r)) i)

/-- An instruction outside the RangedInt family, NAT.SUB and NEG.ADD finishes with a result of the kind and the width
that its sources' kinds and widths give, or an event (R21, R22). -/
theorem exec_finishes_shaped (s : State) {d : Slot} : ∀ i : Instr, i.dest = some d → ¬IsRangedFamily i →
    ¬KindByValue i → ∃ r, exec i s = .next (finish d r s)
      ∧ Ends Config.natUnit
          (HasShape (resultKind (fun r => kindCode (s.slot r)) i) (resultWidth (fun r => widthOf (s.slot r)) i)) r
  | .mov _ _, rfl, _, _ => ⟨_, rfl, onOne_ends ⟨rfl, rfl⟩⟩
  | .clr _, rfl, _, _ => ⟨_, rfl, ⟨rfl, rfl⟩⟩
  | .natLi _ w n, rfl, _, _ => ⟨_, rfl, natLi_shape w n⟩
  | .natSucc _ _, rfl, _, _ => ⟨_, rfl, onOne_ends (natSucc_shape _)⟩
  | .natAdd _ _ _, rfl, _, _ => ⟨_, rfl, onTwo_ends (natAdd_shape _ _)⟩
  | .natSubz _ _, rfl, _, _ => ⟨_, rfl, onOne_ends (natSubz_shape _)⟩
  | .natCmp _ _ _, rfl, _, _ => ⟨_, rfl, onTwo_ends (natCmp_shape _ _)⟩
  | .natShl _ _ k, rfl, _, _ => ⟨_, rfl, onOne_ends (natShl_shape k _)⟩
  | .natShr _ _ k, rfl, _, _ => ⟨_, rfl, onOne_ends (natShr_shape k _)⟩
  | .natBitsize _ _, rfl, _, _ => ⟨_, rfl, onOne_ends (natBitsize_shape _)⟩
  | .natConcat _ _ _, rfl, _, _ => ⟨_, rfl, onTwo_ends (natConcat_shape _ _)⟩
  | .natTobits _ _, rfl, _, _ => ⟨_, rfl, onOne_ends (natTobits_shape _)⟩
  | .bitsLi _ w n, rfl, _, _ => ⟨_, rfl, bitsLi_shape w n⟩
  | .bitsConcat _ _ _, rfl, _, _ => ⟨_, rfl, onTwo_ends (bitsConcat_shape _ _)⟩
  | .bitsShr _ _ k, rfl, _, _ => ⟨_, rfl, onOne_ends (bitsShr_shape k _)⟩
  | .bitsExtract _ _ high low, rfl, _, _ => ⟨_, rfl, onOne_ends (bitsExtract_shape high low _)⟩
  | .bitsTrim _ _ t, rfl, _, _ => ⟨_, rfl, onOne_ends (bitsTrim_shape t _)⟩
  | .bitsZext _ _ t, rfl, _, _ => ⟨_, rfl, onOne_ends (bitsZext_shape t _)⟩
  | .bitsSext _ _ t, rfl, _, _ => ⟨_, rfl, onOne_ends (bitsSext_shape t _)⟩
  | .bitsNot _ _, rfl, _, _ => ⟨_, rfl, onOne_ends (bitsNot_shape _)⟩
  | .bitsSucc _ _, rfl, _, _ => ⟨_, rfl, onOne_ends (bitsSucc_shape _)⟩
  | .bitsCmp _ _ _, rfl, _, _ => ⟨_, rfl, onTwo_ends (bitsCmp_shape _ _)⟩
  | .bitsFlip _ _ f, rfl, _, _ => ⟨_, rfl, onOne_ends (bitsFlip_shape f _)⟩
  | .bitsAdd _ _ _, rfl, _, _ => ⟨_, rfl, onTwo_ends (bitsAdd_shape _ _)⟩
  | .bitsSign _ _, rfl, _, _ => ⟨_, rfl, onOne_ends (bitsSign_shape _)⟩
  | .bitsTonat _ _, rfl, _, _ => ⟨_, rfl, onOne_ends (bitsTonat_shape _)⟩
  | .negNegate _ _, rfl, _, _ => ⟨_, rfl, onOne_ends (negNegate_shape _)⟩
  | .negAbs _ _, rfl, _, _ => ⟨_, rfl, onOne_ends (negAbs_shape _)⟩
  | .negCmp _ _ _, rfl, _, _ => ⟨_, rfl, onTwo_ends (negCmp_shape _ _)⟩
  | .mbNew _ _ _ _, rfl, _, _ => ⟨_, rfl, onThree_ends (mbNew_shape _ _ _)⟩
  | .mbExtract _ _ high low, rfl, _, _ => ⟨_, rfl, onOne_ends (mbExtract_shape high low _)⟩
  | .mbFixed _ _, rfl, _, _ => ⟨_, rfl, onOne_ends (mbFixed_shape _)⟩
  | .mbEq _ _ _, rfl, _, _ => ⟨_, rfl, onTwo_ends (mbEq_shape _ _)⟩
  | .natSub _ _ _, rfl, _, hk | .negAdd _ _ _, rfl, _, hk => (hk trivial).elim
  | .riNew _ _ _ _, rfl, hn, _ | .riAdd _ _ _, rfl, hn, _ | .riValue _ _, rfl, hn, _ | .riBias _ _, rfl, hn, _
  | .riWidth _ _, rfl, hn, _ => (hn trivial).elim

/-- NAT.SUB and NEG.ADD, whose kind depends on the values, finish with a result of a static width or an event. -/
theorem exec_finishes_width (s : State) {d : Slot} : ∀ i : Instr, i.dest = some d → KindByValue i →
    ∃ r, exec i s = .next (finish d r s)
      ∧ Ends Config.natUnit (fun v => widthOf v = resultWidth (fun r => widthOf (s.slot r)) i) r
  | .natSub _ _ _, rfl, _ => ⟨_, rfl, onTwo_ends (natSub_width _ _)⟩
  | .negAdd _ _ _, rfl, _ => ⟨_, rfl, onTwo_ends (negAdd_width _ _)⟩

/-- An instruction outside the RangedInt family finishes with a static result or an event (R21, R22). -/
theorem exec_finishes_static (s : State) {d : Slot} {i : Instr} (hd : i.dest = some d) (hn : ¬IsRangedFamily i) :
    ∃ r, exec i s = .next (finish d r s) ∧ Ends Config.natUnit (StaticResult i s) r := by
  by_cases hk : KindByValue i
  · obtain ⟨r, hfinish, hr⟩ := exec_finishes_width s i hd hk
    exact ⟨r, hfinish, hr.mono fun _ hw => ⟨hw, absurd hk⟩⟩
  · obtain ⟨r, hfinish, hr⟩ := exec_finishes_shaped s i hd hn hk
    exact ⟨r, hfinish, hr.mono fun _ ⟨hw, hkind⟩ => ⟨hw, fun _ => hkind⟩⟩

/-- After an execution that raises nothing, the destination holds a value of the instruction's static shape. -/
theorem exec_dest_static {i : Instr} {d : Slot} {s t : State} (hn : ¬IsRangedFamily i) (hd : i.dest = some d)
    (he : exec i s = .next t) (ht : t.status.err = false) : StaticResult i s (t.slot d) := by
  obtain ⟨r, hfinish, hr⟩ := exec_finishes_static s hd hn
  cases hfinish.symm.trans he
  cases r with
  | ok v => rw [(finish_ok_wrote d v s).1]; exact hr
  | error e => simp [finish] at ht

/-- The static width reads the widths of source slots only: each arm of `resultWidth` names slots of `sources`. -/
theorem resultWidth_congr {i : Instr} {w₁ w₂ : Slot → Nat} (h : ∀ r ∈ i.sources, w₁ r = w₂ r) :
    resultWidth w₁ i = resultWidth w₂ i := by
  cases i <;> simp_all [Instr.sources, resultWidth]

/-- The static kind reads the kinds of source slots only. -/
theorem resultKind_congr {i : Instr} {k₁ k₂ : Slot → Nat} (h : ∀ r ∈ i.sources, k₁ r = k₂ r) :
    resultKind k₁ i = resultKind k₂ i := by
  cases i <;> simp_all [Instr.sources, resultKind]

/-- Settles O21: both results have the static shape that the sources' shapes give. -/
theorem resultWidthsAreStatic : Obligations.ResultWidthsAreStatic := by
  intro i d s₁ s₂ t₁ t₂ hn hd hwidths _ _ he₁ he₂ ht₁ ht₂
  obtain ⟨hw₁, hk₁⟩ := exec_dest_static hn hd he₁ ht₁
  obtain ⟨hw₂, hk₂⟩ := exec_dest_static hn hd he₂ ht₂
  refine ⟨?_, fun hk hkinds => ?_⟩
  · rw [hw₁, hw₂, resultWidth_congr hwidths]
  · rw [hk₁ hk, hk₂ hk, resultKind_congr hkinds]

end Sys2Proof.Machine

/-! What one step of the unit does with the head of the queue (R35 to R38), and what the host's moves between two
steps do (R39, R43): every command taken advances SEQ, the rest of the queue is never looked at, and what reset and
pushes lead to is legal. -/

namespace Sys2Proof.Machine

open Sys2Proof.Claim

/-! ### The step of a halted, an idle and a running unit -/

theorem step_of_halted {s : State} (hh : s.status.halted = true) :
    step s = .fault (if s.status.fatal then .fatalHalted else .halted) := by
  simp [step, unitStep, unitStepWith, hh]

theorem step_of_idle {s : State} (hh : s.status.halted = false) (hq : s.queue = []) : step s = .next s := by
  simp [step, unitStep, unitStepWith, hh, hq]

theorem takeCommand_of_decode {c : Command} {i : Instr} (hd : decode c = .instr i) (s : State) :
    takeCommand c s = exec i s := by
  rcases takeCommand_cases c s with ⟨j, hj, he⟩ | ⟨hj, -⟩ | ⟨hj, -⟩
  · cases hd.symm.trans hj
    exact he
  · cases hd.symm.trans hj
  · cases hd.symm.trans hj

/-- Settles O5, by the step that takes the head and the decoder's answer for it. -/
theorem stepRunsTheDecodedInstruction : Obligations.StepRunsTheDecodedInstruction := by
  intro s c rest i hh hq hd
  rw [step_of_head hh hq, takeCommand_of_decode hd]

/-! ### What taking a command does to SEQ and the queue -/

theorem exec_advances (i : Instr) (s : State) :
    ∃ t, exec i s = .next t ∧ t.queue = s.queue ∧ t.seq = s.seq + 1 := by
  rcases exec_cases i with ⟨-, hnop⟩ | ⟨-, hhalt⟩ | ⟨d, r, -, hfinish, -⟩
  · exact ⟨_, hnop s, rfl, rfl⟩
  · exact ⟨_, hhalt s, rfl, rfl⟩
  · obtain ⟨-, hqueue, hseq⟩ := finish_frame d (r s) s
    exact ⟨_, hfinish s, hqueue, hseq⟩

theorem takeCommand_advances (c : Command) (s : State) :
    ∃ t, takeCommand c s = .next t ∧ t.queue = s.queue ∧ t.seq = s.seq + 1 := by
  rcases takeCommand_cases c s with ⟨i, -, hrun⟩ | ⟨-, hrejected⟩ | ⟨-, hrejected⟩
  · rw [hrun]
    exact exec_advances i s
  · exact ⟨_, hrejected, rfl, rfl⟩
  · exact ⟨_, hrejected, rfl, rfl⟩

theorem step_advances {s : State} {c : Command} {rest : List Command} (hh : s.status.halted = false)
    (hq : s.queue = c :: rest) : ∃ t, step s = .next t ∧ t.queue = rest ∧ t.seq = s.seq + 1 := by
  rw [step_of_head hh hq]
  exact takeCommand_advances c _

/-- Settles O6: a step that takes a command advances SEQ (`step_advances`), and a step with no command is idle. -/
theorem everyCommandAdvancesSeqByOne : Obligations.EveryCommandAdvancesSeqByOne := by
  refine ⟨rfl, fun s hh hne => ?_, fun s t hstep hq => ?_⟩
  · obtain ⟨c, rest, hq⟩ := List.exists_cons_of_ne_nil hne
    obtain ⟨t, hstep, hqueue, hseq⟩ := step_advances hh hq
    refine ⟨t, hstep, ?_, by rw [hqueue, hq, List.tail_cons]⟩
    rw [hseq, BitVec.toNat_add]
    rfl
  · obtain ⟨hh, -⟩ := step_next_cases hstep
    cases (step_of_idle hh hq).symm.trans hstep
    rfl

/-- Settles O7: a step that moves SEQ took a command, since idling keeps the state and a halted unit has no step. -/
theorem idleWaitsAndHaltedStops : Obligations.IdleWaitsAndHaltedStops := by
  refine fun s => ⟨step_of_idle, fun hh hf => ?_, fun hh hf => ?_, ?_, ?_⟩
  · rw [step_of_halted hh, hf]
    rfl
  · rw [step_of_halted hh, hf]
    rfl
  · rintro ⟨t, hstep, hseq⟩
    obtain ⟨hh, -⟩ := step_next_cases hstep
    refine ⟨hh, fun hq => hseq ?_⟩
    exact everyCommandAdvancesSeqByOne.2.2 s t hstep hq
  · rintro ⟨hh, hne⟩
    obtain ⟨c, rest, hq⟩ := List.exists_cons_of_ne_nil hne
    obtain ⟨t, hstep, -, hseq⟩ := step_advances hh hq
    exact ⟨t, hstep, by simp [hseq]⟩

/-! ### The outcomes of R38 -/

/-- An instruction's outcome is the one it shares with itself in `outcomeDependsOnlyOnSources`. -/
theorem exec_has_outcome (i : Instr) (s : State) :
    ∃ t, exec i s = .next t ∧
      ((∃ d v, i.dest = some d ∧ Wrote d v s t) ∨ (∃ e, Erred e s t) ∨ (∃ e, ErredFatally e s t)
        ∨ (i = .halt ∧ HaltedBy s t) ∨ (i = .nop ∧ NothingBut s t)) := by
  obtain ⟨t, u, ht, hu, houtcome⟩ := outcomeDependsOnlyOnSources i s s fun _ _ => rfl
  cases ht.symm.trans hu
  simp only [and_self] at houtcome
  exact ⟨t, ht, houtcome⟩

/-- Settles O9, by the three answers of the decoder. -/
theorem everyCommandHasOneOutcome : Obligations.EveryCommandHasOneOutcome := by
  intro s c rest hh hq
  obtain ⟨t, hstep, hqueue, hseq⟩ := step_advances hh hq
  refine ⟨t, hstep, hqueue, hseq, ?_⟩
  rw [step_of_head hh hq] at hstep
  rcases takeCommand_cases c { s with queue := rest } with ⟨i, hd, hrun⟩ | ⟨hd, hrejected⟩ | ⟨hd, hrejected⟩
  · obtain ⟨u, hexec, houtcome⟩ := exec_has_outcome i { s with queue := rest }
    cases hexec.symm.trans (hrun.symm.trans hstep)
    simpa only [hd] using houtcome
  · cases hrejected.symm.trans hstep
    simpa only [hd] using finishRejected_erred .illegalOpcode _
  · cases hrejected.symm.trans hstep
    simpa only [hd] using finishRejected_erred .reservedField _

/-! ### A push, and its order with a step -/

theorem hostPush_eq_some_iff {cfg : Config} {c : Command} {s t : State} :
    hostPush cfg c s = some t ↔ s.queue.length < cfg.cqDepth ∧ t = { s with queue := s.queue ++ [c] } := by
  unfold hostPush
  split <;> simp_all [eq_comm]

theorem hostPush_of_full {cfg : Config} {s : State} (h : cfg.cqDepth ≤ s.queue.length) (c : Command) :
    hostPush cfg c s = none := by
  simp [hostPush, Nat.not_lt.mpr h]

/-- Settles O18: a push changes the queue alone, so HALTED stands and there is still no step. -/
theorem pushAppendsWhileThereIsRoom : Obligations.PushAppendsWhileThereIsRoom := by
  refine fun c s => ⟨fun hroom => ?_, fun hfull => hostPush_of_full hfull c, hostPushWords_commandWords _ c s⟩
  refine ⟨_, hostPush_eq_some_iff.mpr ⟨hroom, rfl⟩, rfl, rfl, rfl, rfl, fun hh u hstep => ?_⟩
  obtain ⟨hrun, -⟩ := step_next_cases hstep
  cases hh.symm.trans hrun

/-- No outcome depends on the queue, and finishing keeps it (R20, R38). -/
theorem exec_withQueue {i : Instr} {s t : State} (h : exec i s = .next t) (q : List Command) :
    exec i { s with queue := q } = .next { t with queue := q } := by
  rcases exec_cases i with ⟨-, hnop⟩ | ⟨-, hhalt⟩ | ⟨d, r, -, hfinish, hsame⟩
  · cases (hnop s).symm.trans h
    exact hnop _
  · cases (hhalt s).symm.trans h
    exact hhalt _
  · cases (hfinish s).symm.trans h
    rw [hfinish, hsame { s with queue := q } s fun a _ => withQueue_slot s q a]
    rcases r s with (c | c) | v <;> rfl

theorem takeCommand_withQueue {c : Command} {s t : State} (h : takeCommand c s = .next t) (q : List Command) :
    takeCommand c { s with queue := q } = .next { t with queue := q } := by
  rcases takeCommand_cases c s with ⟨i, hd, hrun⟩ | ⟨hd, hrejected⟩ | ⟨hd, hrejected⟩
  · rw [takeCommand_of_decode hd]
    exact exec_withQueue (hrun.symm.trans h) q
  · cases hrejected.symm.trans h
    simp only [takeCommand, takeCommandWith, hd]
    rfl
  · cases hrejected.symm.trans h
    simp only [takeCommand, takeCommandWith, hd]
    rfl

/-- Settles O19: the step takes the same head with or without the pushed command behind it, and leaves more room. -/
theorem pushingLaterGivesTheSameState : Obligations.PushingLaterGivesTheSameState := by
  intro c s s' t hne hpush hstep
  obtain ⟨hroom, rfl⟩ := hostPush_eq_some_iff.mp hpush
  obtain ⟨head, rest, hq⟩ := List.exists_cons_of_ne_nil hne
  obtain ⟨hh, -⟩ := step_next_cases hstep
  obtain ⟨u, hu, hqueue, -⟩ := step_advances hh hq
  cases hu.symm.trans hstep
  have hlater : step { s with queue := s.queue ++ [c] } = .next { t with queue := rest ++ [c] } := by
    rw [step_of_head (s := { s with queue := s.queue ++ [c] }) (rest := rest ++ [c]) hh (by rw [hq, List.cons_append])]
    rw [step_of_head hh hq] at hstep
    exact takeCommand_withQueue hstep (rest ++ [c])
  refine ⟨_, hlater, hostPush_eq_some_iff.mpr ⟨?_, by rw [hqueue]⟩⟩
  rw [hq, List.length_cons] at hroom
  rw [hqueue]
  omega

/-! ### Reset, and every state that follows it -/

/-- Settles O15. -/
theorem resetStateIsLegal : Obligations.ResetStateIsLegal := reset_wf Config.natUnit

/-- Settles O16, by induction on the path from reset: each step and each host move keeps the invariant. -/
theorem reachableStatesAreLegal : Obligations.ReachableStatesAreLegal := by
  obtain ⟨hstep, hmove, -⟩ := stepsAndHostMovesKeepLegalStates
  intro s hs
  induction hs with
  | reset => exact resetStateIsLegal
  | unitStep s t _ ht ih => exact hstep s t ih ht
  | hostStep m s t _ ht ih => exact hmove m s t ih ht

theorem statusWord_reset : statusWord Status.reset = 0 := by decide

/-- Settles O17: reset does not look at the state before it. -/
theorem resetGivesEveryResetValue : Obligations.ResetGivesEveryResetValue :=
  fun _ => ⟨reset_slot, statusWord_reset, rfl, rfl, rfl⟩

end Sys2Proof.Machine

/-! The words the host reads: the STATUS word (R33, R34) and the slot image (R41), each field where its rule puts it,
and the value that an image stands for. -/

namespace Sys2Proof.Machine

open Sys2Proof.Claim

/-! ### Fields of a 64-bit word given by its number -/

theorem extract_ofNat {n : Nat} (hn : n < 2 ^ 64) (lo len : Nat) :
    ((BitVec.ofNat 64 n).extractLsb' lo len).toNat = n / 2 ^ lo % 2 ^ len := by
  rw [BitVec.extractLsb'_toNat, BitVec.toNat_ofNat, Nat.mod_eq_of_lt hn, Nat.shiftRight_eq_div_pow]

theorem extract_ofNat_eq {n lo len : Nat} {x : BitVec len} (hn : n < 2 ^ 64) (hx : n / 2 ^ lo % 2 ^ len = x.toNat) :
    (BitVec.ofNat 64 n).extractLsb' lo len = x :=
  BitVec.eq_of_toNat_eq ((extract_ofNat hn lo len).trans hx)

theorem extract_ofNat_eq_zero {n lo len : Nat} (hn : n < 2 ^ 64) (hzero : n / 2 ^ lo % 2 ^ len = 0) :
    (BitVec.ofNat 64 n).extractLsb' lo len = 0 :=
  extract_ofNat_eq hn (hzero.trans BitVec.toNat_zero.symm)

theorem bit_ofNat_eq {n i : Nat} {b : Bool} (hn : n < 2 ^ 64) (hb : n / 2 ^ i % 2 = b.toNat) :
    (BitVec.ofNat 64 n).getLsbD i = b := by
  rw [← BitVec.testBit_toNat, BitVec.toNat_ofNat, Nat.mod_eq_of_lt hn, Nat.testBit_eq_decide_div_mod_eq, hb]
  cases b <;> rfl

theorem bit_ofNat_iff {n i : Nat} {q : Prop} [Decidable q] (hn : n < 2 ^ 64) (hq : n / 2 ^ i % 2 = (decide q).toNat) :
    (BitVec.ofNat 64 n).getLsbD i = true ↔ q := by
  rw [bit_ofNat_eq hn hq, decide_eq_true_iff]

/-! ### The STATUS word -/

/-- Settles O12: the number of the STATUS word is a sum of fields, each below the place of the next. -/
theorem statusWordHasItsFieldsInPlace : Obligations.StatusWordHasItsFieldsInPlace := by
  intro s
  have hhalted := s.status.halted.toNat_lt
  have herr := s.status.err.toNat_lt
  have hfatal := s.status.fatal.toNat_lt
  have hcause := s.status.cause.isLt
  have herrCnt := s.status.errCnt.isLt
  have herrSeq := s.status.errSeq.isLt
  have hreserved : false.toNat = 0 := rfl
  unfold hostReadStatus statusWord
  refine ⟨bit_ofNat_eq ?_ ?_, bit_ofNat_eq ?_ ?_, bit_ofNat_eq ?_ ?_, bit_ofNat_eq ?_ ?_, extract_ofNat_eq ?_ ?_,
    extract_ofNat_eq_zero ?_ ?_, extract_ofNat_eq ?_ ?_, extract_ofNat_eq ?_ ?_⟩
  all_goals omega

/-! ### The header word of a slot image -/

/-- The bounds whose signs and magnitude widths the header gives; 0 and 0 for a value without bounds (R41). -/
def boundsOf : Value → Int × Int
  | .ranged lo hi _ => (lo, hi)
  | .empty | .nat _ _ | .neg _ _ | .bits _ _ | .masked _ _ _ _ => (0, 0)

/-- The header of every kind of value is one sum of fields (R41). -/
theorem imageHeader_eq (v : Value) :
    imageHeader v = BitVec.ofNat 64 (kindCode v + widthOf v * 2 ^ 8 + (decide ((boundsOf v).1 < 0)).toNat * 2 ^ 24
      + (decide ((boundsOf v).2 < 0)).toNat * 2 ^ 25 + magWidth (boundsOf v).1 * 2 ^ 32
      + magWidth (boundsOf v).2 * 2 ^ 48) := by
  have hsign : (decide ((0 : Int) < 0)).toNat = 0 := rfl
  have hwidth : magWidth 0 = 0 := rfl
  have hnone : ∀ n, n = n + (decide ((0 : Int) < 0)).toNat * 2 ^ 24 + (decide ((0 : Int) < 0)).toNat * 2 ^ 25
      + magWidth 0 * 2 ^ 32 + magWidth 0 * 2 ^ 48 := by omega
  cases v with
  | ranged lo hi s => rfl
  | _ => exact congrArg (BitVec.ofNat 64) (hnone _)

theorem kindCode_le (v : Value) : kindCode v ≤ 5 := by cases v <;> simp [kindCode]

/-- Every width that a header gives of a legal value is within WMAX (R24, R29, R132). -/
theorem header_widths_le {cfg : Config} {v : Value} (hv : Legal cfg v) :
    widthOf v ≤ cfg.wmax ∧ magWidth (boundsOf v).1 ≤ cfg.wmax ∧ magWidth (boundsOf v).2 ≤ cfg.wmax := by
  have hnone : magWidth 0 ≤ cfg.wmax := Nat.zero_le _
  cases v with
  | empty => exact ⟨Nat.zero_le _, hnone, hnone⟩
  | nat w p => exact ⟨(legal_nat.mp hv).1, hnone, hnone⟩
  | neg w m => exact ⟨(legal_neg.mp hv).1, hnone, hnone⟩
  | bits w p => exact ⟨(legal_bits.mp hv).1, hnone, hnone⟩
  | ranged lo hi p =>
    obtain ⟨-, hlo, hhi, -, hw⟩ := legal_ranged.mp hv
    exact ⟨hw, hlo, hhi⟩
  | masked w m k b => exact ⟨(legal_masked.mp hv).1.1, hnone, hnone⟩

/-- `h` has R41's header fields of `v`. -/
structure IsHeaderOf (h : Word) (v : Value) : Prop where
  kind : (h.extractLsb' 0 8).toNat = kindCode v
  width : (h.extractLsb' 8 16).toNat = widthOf v
  los : h.getLsbD 24 = true ↔ (boundsOf v).1 < 0
  his : h.getLsbD 25 = true ↔ (boundsOf v).2 < 0
  reserved : h.extractLsb' 26 6 = 0
  low : (h.extractLsb' 32 16).toNat = magWidth (boundsOf v).1
  hiw : (h.extractLsb' 48 16).toNat = magWidth (boundsOf v).2

/-- The header of a legal value has its fields, since a width within WMAX fits its 16 bits (R7, R41). -/
theorem imageHeader_fields {cfg : Config} (hc : cfg.valid = true) {v : Value} (hv : Legal cfg v) :
    IsHeaderOf (imageHeader v) v := by
  obtain ⟨hw, hlow, hhiw⟩ := header_widths_le hv
  have hwmax : cfg.wmax < 2 ^ 16 := (wmax_bounds hc).2
  have hkind := kindCode_le v
  have hlos := (decide ((boundsOf v).1 < 0)).toNat_lt
  have hhis := (decide ((boundsOf v).2 < 0)).toNat_lt
  rw [imageHeader_eq]
  refine ⟨(extract_ofNat ?_ _ _).trans ?_, (extract_ofNat ?_ _ _).trans ?_, bit_ofNat_iff ?_ ?_, bit_ofNat_iff ?_ ?_,
    extract_ofNat_eq_zero ?_ ?_, (extract_ofNat ?_ _ _).trans ?_, (extract_ofNat ?_ _ _).trans ?_⟩
  all_goals omega

/-! ### The payload of a slot image -/

theorem isLimbImage_limbs (w p : Nat) : IsLimbImage (limbs w p) w p := by
  refine ⟨limbs_length w p, fun i hi => ?_⟩
  rw [limbs_length] at hi
  exact (limbAt_limbs w p i).trans (if_pos hi)

theorem isBitSize_bitSize (v : Nat) : IsBitSize v (bitSize v) := by
  rcases Nat.eq_zero_or_pos v with rfl | hpos
  · exact .inl ⟨rfl, rfl⟩
  · obtain ⟨hone, htop⟩ := two_pow_le_of_pos v hpos
    exact .inr ⟨hpos, hone, htop, lt_two_pow_bitSize v⟩

/-- Settles O22: the header's fields hold of every kind; the payload is the limb images of each kind's parts. -/
theorem slotImageHasItsLayout : Obligations.SlotImageHasItsLayout := by
  intro s r hv
  have hf := imageHeader_fields (cfg := Config.natUnit) (by decide) hv
  refine ⟨imageHeader (s.slot r), imagePayload (s.slot r), rfl, hf.reserved, ?_⟩
  generalize s.slot r = v at hf
  cases v with
  | empty => exact ⟨rfl, rfl⟩
  | nat w p => exact ⟨rfl, hf.width, isLimbImage_limbs w p⟩
  | neg w m => exact ⟨rfl, hf.width, isLimbImage_limbs w m⟩
  | bits w p => exact ⟨rfl, hf.width, isLimbImage_limbs w p⟩
  | ranged lo hi p =>
    obtain ⟨hkind, hwidth, hlos, hhis, -, hlow, hhiw⟩ := hf
    rw [hwidth, hlow, hhiw]
    exact ⟨BitVec.eq_of_toNat_eq hkind, isBitSize_bitSize _, hlos, hhis, isBitSize_bitSize _, isBitSize_bitSize _,
      _, _, _, rfl, isLimbImage_limbs _ _, isLimbImage_limbs _ _, isLimbImage_limbs _ _⟩
  | masked w m k b =>
    exact ⟨rfl, hf.width, _, _, _, rfl, isLimbImage_limbs w m, isLimbImage_limbs w k, isLimbImage_limbs w b⟩

/-! ### The value of a slot image -/

/-- The first `n` limbs of a number, read back, are the number modulo `2^(64n)` (R9, R28). -/
theorem ofLimbs_map_range (n p : Nat) :
    ofLimbs ((List.range n).map fun i => BitVec.ofNat 64 (p / 2 ^ (64 * i))) = p % 2 ^ (64 * n) := by
  induction n generalizing p with
  | zero => simp [ofLimbs, Nat.mod_one]
  | succ n ih =>
    have hshift : ∀ i, p / 2 ^ (64 * (i + 1)) = p / 2 ^ 64 / 2 ^ (64 * i) := fun i => by
      rw [Nat.div_div_eq_div_mul, ← Nat.pow_add, Nat.mul_succ, Nat.add_comm]
    rw [List.range_succ_eq_map, List.map_cons, List.map_map]
    simp only [Function.comp_def, Nat.succ_eq_add_one, hshift, ofLimbs, ih]
    rw [Nat.mul_succ, Nat.add_comm (64 * n), Nat.pow_add, Nat.mod_mul]
    simp

/-- The limb image of a payload within its width stands for it (R28). -/
theorem ofLimbs_limbs {w p : Nat} (hp : p < 2 ^ w) : ofLimbs (limbs w p) = p := by
  unfold limbs
  rw [ofLimbs_map_range]
  exact Nat.mod_eq_of_lt (hp.trans_le (Nat.pow_le_pow_right two_pos (le_limbCount w)))

/-- The numbers of three limb images one behind the other, the first two of `n` and `m` limbs. -/
def threeParts (n m : Nat) (l : List Word) : Nat × Nat × Nat :=
  (ofLimbs (l.take n), ofLimbs ((l.drop n).take m), ofLimbs (l.drop (n + m)))

theorem threeParts_limbs {u v w p q r : Nat} (hp : p < 2 ^ u) (hq : q < 2 ^ v) (hr : r < 2 ^ w) :
    threeParts (limbCount u) (limbCount v) (limbs u p ++ limbs v q ++ limbs w r) = (p, q, r) := by
  have htwo : (limbs u p ++ limbs v q).length = limbCount u + limbCount v := by simp
  have hfirst : (limbs u p).length = limbCount u := limbs_length u p
  have hsecond : (limbs v q).length = limbCount v := limbs_length v q
  unfold threeParts
  rw [List.drop_left' htwo, List.append_assoc, List.take_left' hfirst, List.drop_left' hfirst,
    List.take_left' hsecond, ofLimbs_limbs hp, ofLimbs_limbs hq, ofLimbs_limbs hr]

/-- An integer given by its sign and its magnitude. -/
def ofSign (negative : Bool) (m : Nat) : Int := if negative then -(m : Int) else m

theorem ofSign_natAbs {negative : Bool} {z : Int} (h : negative = true ↔ z < 0) : ofSign negative z.natAbs = z := by
  unfold ofSign
  split
  · next hn =>
    have := h.mp hn
    omega
  · next hn =>
    have := mt h.mpr hn
    omega

/-- The value whose slot image a sequence of words is (R41): the header says how the limbs divide into parts. -/
def valueOfImage : List Word → Value
  | [] => .empty
  | h :: payload =>
    let w := (h.extractLsb' 8 16).toNat
    let bounded := threeParts (limbCount (h.extractLsb' 32 16).toNat) (limbCount (h.extractLsb' 48 16).toNat) payload
    let vectors := threeParts (limbCount w) (limbCount w) payload
    match (h.extractLsb' 0 8).toNat with
    | 1 => .nat w (ofLimbs payload)
    | 2 => .neg w (ofLimbs payload)
    | 3 => .bits w (ofLimbs payload)
    | 4 => .ranged (ofSign (h.getLsbD 24) bounded.1) (ofSign (h.getLsbD 25) bounded.2.1) bounded.2.2
    | 5 => .masked w vectors.1 vectors.2.1 vectors.2.2
    | _ => .empty

/-- The image of a legal value gives the value back, in every build that R7 allows (R41, D38). -/
theorem valueOfImage_slotImage {cfg : Config} (hc : cfg.valid = true) {v : Value} (hv : Legal cfg v) :
    valueOfImage (slotImage v) = v := by
  obtain ⟨hkind, hwidth, hlos, hhis, -, hlow, hhiw⟩ := imageHeader_fields hc hv
  simp only [slotImage, valueOfImage, hkind, hwidth, hlow, hhiw]
  cases v with
  | empty => rfl
  | nat w p => simp only [kindCode, widthOf, imagePayload, ofLimbs_limbs (legal_nat.mp hv).2]
  | neg w m => simp only [kindCode, widthOf, imagePayload, ofLimbs_limbs (legal_neg.mp hv).2]
  | bits w p => simp only [kindCode, widthOf, imagePayload, ofLimbs_limbs (legal_bits.mp hv).2]
  | ranged lo hi p =>
    obtain ⟨-, -, -, hp, -⟩ := legal_ranged.mp hv
    have hparts := threeParts_limbs (lt_two_pow_bitSize lo.natAbs) (lt_two_pow_bitSize hi.natAbs)
      (storage_lt lo hi p hp)
    simp only [kindCode, boundsOf, imagePayload, magWidth, hparts, ofSign_natAbs (z := lo) hlos,
      ofSign_natAbs (z := hi) hhis]
  | masked w m k b =>
    obtain ⟨hm, hk, hb⟩ := legal_masked.mp hv
    simp only [kindCode, widthOf, imagePayload, threeParts_limbs hm.2 hk.2 hb.2]

/-- Settles O23: a legal value is the value of its image. -/
theorem slotImageLosesNothing : Obligations.SlotImageLosesNothing := by
  intro a b ha hb himage
  have hvalid : Config.natUnit.valid = true := by decide
  calc a = valueOfImage (slotImage a) := (valueOfImage_slotImage hvalid ha).symm
    _ = valueOfImage (slotImage b) := by rw [himage]
    _ = b := valueOfImage_slotImage hvalid hb

end Sys2Proof.Machine

/-! The decoder and the encoder (R59 to R74): an encoding read back is the instruction encoded, the decoder's three
answers are chosen by OPC and RSV, and only the fields that the format uses are looked at. -/

namespace Sys2Proof.Machine

open Sys2Proof.Claim

/-! ### The fields of a command, and the checks of form -/

/-- The decoder's fields are the bit ranges of the command that R60 and R61 name. -/
theorem fieldsOf_eq (c : Command) :
    fieldsOf c = { opc := opc c, rd := rd c, rs1 := rs1 c, rs2 := rs2 c, rs3 := rs3 c, p1 := p1 c, p2 := p2 c,
                   rsv := rsv c, imm := imm c } := by
  simp only [fieldsOf, bitField_eq_extract, slotField_eq_extract]
  rfl

theorem part_lt (lo width : Nat) (c : Command) : part lo width c < 2 ^ width := (c.extractLsb' lo width).isLt

@[simp] theorem paramOk_iff (p : Nat) : paramOk p = true ↔ p < 2 ^ 16 := decide_eq_true_iff

@[simp] theorem immOk_iff (n : Nat) : immOk n = true ↔ n < 2 ^ 64 := decide_eq_true_iff

/-! ### The opcode map -/

theorem instrOfFields_of_assigned {f : Fields} (h : Assigned f.opc) : ∃ i, instrOfFields f = some i := by
  obtain ⟨op, _, _, _, _, _, _, _, _⟩ := f
  rcases h with ⟨hlo, hhi⟩ | ⟨hlo, hhi⟩ | ⟨hlo, hhi⟩ | ⟨hlo, hhi⟩ | ⟨hlo, hhi⟩ | ⟨hlo, hhi⟩
  all_goals
    dsimp only at hlo hhi
    interval_cases op <;> exact ⟨_, rfl⟩

theorem assigned_of_instrOfFields {f : Fields} {i : Instr} (h : instrOfFields f = some i) : Assigned f.opc := by
  unfold instrOfFields at h
  split at h <;> cases h
  all_goals
    next hop =>
    rw [hop]
    unfold Assigned
    omega

/-- The opcode map gives an instruction on the opcodes of R67 and on no other (R68). -/
theorem exists_instrOfFields_iff {c : Command} : (∃ i, instrOfFields (fieldsOf c) = some i) ↔ Assigned (opc c) := by
  have hopc : (fieldsOf c).opc = opc c := by rw [fieldsOf_eq]
  rw [← hopc]
  exact ⟨fun ⟨_, h⟩ => assigned_of_instrOfFields h, instrOfFields_of_assigned⟩

/-- Parameters and immediates are copied from the fields, so they fit when the fields do (R64, R65). -/
theorem wf_of_instrOfFields {f : Fields} {i : Instr} (h : instrOfFields f = some i) (hp1 : f.p1 < 2 ^ 16)
    (hp2 : f.p2 < 2 ^ 16) (himm : f.imm < 2 ^ 64) : i.wf = true := by
  unfold instrOfFields at h
  split at h <;> cases h
  all_goals simp only [Instr.wf, Bool.and_eq_true, paramOk_iff, immOk_iff, hp1, hp2, himm, and_self]

/-- The opcode map looks at no field but the ones its instruction's format uses (R62, R66). -/
theorem instrOfFields_of_usedFields {c d : Command} {i : Instr} (h : instrOfFields (fieldsOf c) = some i)
    (hused : usedFields i d = usedFields i c) : instrOfFields (fieldsOf d) = some i := by
  rw [fieldsOf_eq] at h ⊢
  unfold instrOfFields at h
  split at h <;> cases h
  all_goals
    next hop =>
    simp only [usedFields, List.cons.injEq, Fin.val_inj, and_true] at hused hop
    simp only [hused, hop]
    rfl

/-! ### The three answers of the decoder -/

theorem decode_of_not_assigned {c : Command} (h : ¬Assigned (opc c)) : decode c = .illegalOpcode := by
  have hmap : instrOfFields (fieldsOf c) = none :=
    Option.eq_none_iff_forall_ne_some.mpr fun i hi => h (exists_instrOfFields_iff.mp ⟨i, hi⟩)
  rw [decode, decodeFields, hmap]

/-- Where the opcode map gives an instruction, RSV alone decides between it and the error (R66). -/
theorem decode_of_map {c : Command} {i : Instr} (hmap : instrOfFields (fieldsOf c) = some i) :
    decode c = if rsv c = 0 then .instr i else .reservedField := by
  rw [decode, decodeFields, hmap, fieldsOf_eq]

theorem decode_of_reserved {c : Command} (h : Assigned (opc c)) (hrsv : rsv c ≠ 0) : decode c = .reservedField := by
  obtain ⟨i, hmap⟩ := exists_instrOfFields_iff.mpr h
  rw [decode_of_map hmap, if_neg hrsv]

theorem decode_eq_instr_iff {c : Command} {i : Instr} :
    decode c = .instr i ↔ instrOfFields (fieldsOf c) = some i ∧ rsv c = 0 := by
  cases hmap : instrOfFields (fieldsOf c) with
  | none => simp [decode, decodeFields, hmap]
  | some j =>
    rw [decode_of_map hmap]
    split
    · next hrsv => simp [hrsv]
    · next hrsv => simp [hrsv]

theorem wf_of_decode {c : Command} {i : Instr} (h : decode c = .instr i) : i.wf = true := by
  obtain ⟨hmap, -⟩ := decode_eq_instr_iff.mp h
  rw [fieldsOf_eq] at hmap
  exact wf_of_instrOfFields hmap (part_lt 24 16 c) (part_lt 40 16 c) (part_lt 64 64 c)

/-- Settles O2: the opcode is assigned or not, and RSV is checked on assigned opcodes only. -/
theorem decodeAnswersByOpcodeAndReservedField : Obligations.DecodeAnswersByOpcodeAndReservedField := by
  intro c
  by_cases hassigned : Assigned (opc c)
  · by_cases hrsv : rsv c = 0
    · obtain ⟨i, hmap⟩ := exists_instrOfFields_iff.mpr hassigned
      have hd := decode_eq_instr_iff.mpr ⟨hmap, hrsv⟩
      exact .inr (.inr ⟨hassigned, hrsv, i, wf_of_decode hd, hd⟩)
    · exact .inr (.inl ⟨hassigned, hrsv, decode_of_reserved hassigned hrsv⟩)
  · exact .inl ⟨hassigned, decode_of_not_assigned hassigned⟩

/-! ### Decoding an encoding -/

/-- A packed command with fields in range decodes to what the opcode map gives of the packed fields (R72, R74). -/
theorem decode_pack {op : Nat} {d a b c : Slot} {p q n : Nat} {i : Instr}
    (hmap : instrOfFields { opc := op, rd := d, rs1 := a, rs2 := b, rs3 := c, p1 := p, p2 := q, rsv := 0, imm := n }
      = some i)
    (hop : op < 2 ^ 8 := by omega) (hp : p < 2 ^ 16 := by omega) (hq : q < 2 ^ 16 := by omega)
    (hn : n < 2 ^ 64 := by omega) : decode (pack op d a b c p q n) = .instr i := by
  rw [decode, fieldsOf_pack op d a b c p q n hop hp hq hn, decodeFields, hmap]
  rfl

/-- Settles O1: each encoding packs its operands where the opcode map reads them. What well-formedness adds is that
the parameters fit their fields; a format without parameters packs zeros there. -/
theorem decodeOfEncodeIsTheInstruction : Obligations.DecodeOfEncodeIsTheInstruction := by
  intro i hwf
  cases i
  case natLi rd w imm | bitsLi rd w imm =>
    simp only [Instr.wf, Bool.and_eq_true, paramOk_iff, immOk_iff] at hwf
    obtain ⟨hw, himm⟩ := hwf
    exact decode_pack rfl
  case bitsExtract rd rs1 high low | mbExtract rd rs1 high low =>
    simp only [Instr.wf, Bool.and_eq_true, paramOk_iff] at hwf
    obtain ⟨hhigh, hlow⟩ := hwf
    exact decode_pack rfl
  case natShl rd rs1 p | natShr rd rs1 p | bitsShr rd rs1 p | bitsTrim rd rs1 p | bitsZext rd rs1 p
      | bitsSext rd rs1 p | bitsFlip rd rs1 p =>
    have hp : p < 2 ^ 16 := (paramOk_iff p).mp hwf
    exact decode_pack rfl
  all_goals exact decode_pack rfl

/-! ### Commands that take a decode error, and fields that are ignored -/

theorem not_assigned_of_illegal {op : Nat} (h : Illegal op) : ¬Assigned op := by
  unfold Illegal at h
  unfold Assigned
  omega

theorem takeCommand_of_illegalOpcode {c : Command} (hd : decode c = .illegalOpcode) (s : State) :
    takeCommand c s = .next (finishRejected .illegalOpcode s) := by
  rw [takeCommand, takeCommandWith, hd]

theorem takeCommand_of_reservedField {c : Command} (hd : decode c = .reservedField) (s : State) :
    takeCommand c s = .next (finishRejected .reservedField s) := by
  rw [takeCommand, takeCommandWith, hd]

/-- A step whose head command is rejected takes the decode error and does nothing else (R66, R68). -/
theorem step_of_rejected {s : State} {c : Command} {rest : List Command} {e : Cause} (hh : s.status.halted = false)
    (hq : s.queue = c :: rest) (htake : ∀ s, takeCommand c s = .next (finishRejected e s)) :
    ∃ t, step s = .next t ∧ Erred e { s with queue := rest } t :=
  ⟨_, (step_of_head hh hq).trans (htake _), finishRejected_erred e _⟩

/-- Commands that agree on the fields the format uses, OPC and RSV among them, decode alike (R66). -/
theorem decode_of_usedFields {c d : Command} {i : Instr} (h : decode c = .instr i)
    (hused : usedFields i d = usedFields i c) : decode d = .instr i := by
  obtain ⟨hmap, hrsv⟩ := decode_eq_instr_iff.mp h
  refine decode_eq_instr_iff.mpr ⟨instrOfFields_of_usedFields hmap hused, ?_⟩
  obtain ⟨-, hsame⟩ := List.cons.inj hused
  exact (List.cons.inj hsame).1.trans hrsv

/-- Settles O3: a rejected command takes its decode error alone (`step_of_rejected`), and a command that decodes is
read in the fields its format uses only (`decode_of_usedFields`). -/
theorem illegalAndReservedCommandsRaiseDecodeErrors : Obligations.IllegalAndReservedCommandsRaiseDecodeErrors := by
  refine ⟨fun s c rest hh hq => ⟨fun hillegal => ?_, fun hassigned hrsv => ?_⟩, fun _ _ _ => decode_of_usedFields,
    .inl rfl⟩
  · have hd := decode_of_not_assigned (not_assigned_of_illegal hillegal)
    exact step_of_rejected hh hq (takeCommand_of_illegalOpcode hd)
  · have hd := decode_of_reserved hassigned hrsv
    exact step_of_rejected hh hq (takeCommand_of_reservedField hd)

/-- Settles O4, by evaluating the decoder on each word. -/
theorem wordsOfTheTestVectorsDecode : Obligations.WordsOfTheTestVectorsDecode := by
  refine ⟨?_, ?_, ?_, ?_, ?_, ?_, ?_, ?_⟩ <;> decide

end Sys2Proof.Machine

/-! The sequencer commands (R78 to R81): NOP and HALT by their one effect on the state, MOV and CLR by the result they
finish with; and the rule by which an opcode decodes to its instruction. -/

namespace Sys2Proof.Machine

open Sys2Proof.Claim

/-- An opcode decodes to what the opcode map gives for it on the fields of the command (R67, R74). -/
theorem decodesTo_of_map {op : Nat} {f : Command → Instr}
    (hmap : ∀ c, instrOfFields { opc := op, rd := rd c, rs1 := rs1 c, rs2 := rs2 c, rs3 := rs3 c, p1 := p1 c,
                                 p2 := p2 c, rsv := rsv c, imm := imm c } = some (f c)) : DecodesTo op f := by
  rintro c rfl hrsv
  refine decode_eq_instr_iff.mpr ⟨?_, hrsv⟩
  rw [fieldsOf_eq]
  exact hmap c

/-- NOP advances SEQ and does nothing else (R78). -/
theorem exec_nop (s : State) : ∃ t, exec .nop s = .next t ∧ NothingBut s t := ⟨_, rfl, rfl⟩

/-- HALT sets HALTED, keeps every other field of STATUS, and no step follows it (R79, R37). -/
theorem exec_halt (s : State) : ∃ t, exec .halt s = .next t ∧ HaltedBy s t ∧ ∀ u, step t ≠ .next u := by
  refine ⟨_, rfl, rfl, fun u hstep => ?_⟩
  obtain ⟨hrun, -⟩ := step_next_cases hstep
  cases hrun

theorem mov_raises_of_empty {a : Slot} {s : State} (h : s.slot a = .empty) (d : Slot) :
    Raises (.mov d a) s .emptySlot :=
  raises_of_finish rfl (by rw [onOne_eq, if_pos h])

/-- The value read is the one before the write, so `d = a` is no exception (R80). -/
theorem mov_writes_of_ne_empty {a : Slot} {s : State} (h : s.slot a ≠ .empty) (d : Slot) :
    Writes (.mov d a) s d (s.slot a) :=
  writes_of_finish rfl (by rw [onOne_eq, if_neg h])

/-- CLR reads no slot, so it has no error (R81). -/
theorem clr_writes (d : Slot) (s : State) : Writes (.clr d) s d .empty := writes_of_finish rfl rfl

/-- Settles O24: MOV splits on whether its source is EMPTY; the other three have one outcome at every state. -/
theorem sequencerCommandsFollowTheirRules : Obligations.SequencerCommandsFollowTheirRules := by
  refine ⟨decodesTo_of_map fun _ => rfl, decodesTo_of_map fun _ => rfl, decodesTo_of_map fun _ => rfl,
    decodesTo_of_map fun _ => rfl, fun d a s => ⟨exec_nop s, exec_halt s, ?_, clr_writes d s⟩⟩
  split
  · next hempty => exact mov_raises_of_empty hempty d
  · next hfull => exact mov_writes_of_ne_empty hfull d

end Sys2Proof.Machine

/-! How a command answers, from the operation it computes: one source or two, read first (R154), each of one kind; then
the answers of the operations that the Nat and the Bits families share. -/

namespace Sys2Proof.Machine

open Sys2Proof.Claim

/-- `i` at `s` ends as the result `r` for slot `d` says: `d` is written, or the error is taken (R38). -/
def Answers (i : Instr) (s : State) (d : Slot) : Except Raised Value → Prop
  | .ok v => Writes i s d v
  | .error (.error c) => Raises i s c
  | .error (.fatal c) => RaisesFatal i s c

section Answers

variable {i : Instr} {s : State} {d a b : Slot}

theorem answers_of_finish {r : Except Raised Value} (h : exec i s = .next (finish d r s)) : Answers i s d r := by
  rcases r with (c | c) | v
  · exact raises_of_finish h rfl
  · exact raisesFatal_of_finish h rfl
  · exact writes_of_finish h rfl

theorem answers_ite {p : Prop} [Decidable p] {q r : Except Raised Value} (h : Answers i s d (if p then q else r)) :
    if p then Answers i s d q else Answers i s d r := by
  split at h
  · next hp => rwa [if_pos hp]
  · next hp => rwa [if_neg hp]

/-! ### Reading the sources -/

theorem raises_of_source_empty {op : Value → Except Raised Value} (h : exec i s = .next (finish d (onOne s a op) s))
    (ha : s.slot a = .empty) : Raises i s .emptySlot :=
  raises_of_finish h (by rw [onOne_eq, if_pos ha])

theorem raises_of_either_empty {op : Value → Value → Except Raised Value}
    (h : exec i s = .next (finish d (onTwo s a b op) s)) (he : s.slot a = .empty ∨ s.slot b = .empty) :
    Raises i s .emptySlot :=
  raises_of_finish h (by rw [onTwo_eq, if_pos he])

theorem answers_onOne {op : Value → Except Raised Value} (h : exec i s = .next (finish d (onOne s a op) s))
    (ha : s.slot a ≠ .empty) : Answers i s d (op (s.slot a)) := by
  rw [onOne_eq, if_neg ha] at h
  exact answers_of_finish h

theorem answers_onTwo {op : Value → Value → Except Raised Value}
    (h : exec i s = .next (finish d (onTwo s a b op) s)) (he : ¬(s.slot a = .empty ∨ s.slot b = .empty)) :
    Answers i s d (op (s.slot a) (s.slot b)) := by
  rw [onTwo_eq, if_neg he] at h
  exact answers_of_finish h

/-! ### Sources of one kind -/

/-- `read` accepts the values that `mk` makes, and no others (R82, R105). -/
structure Accepts (read : Value → Except Raised Sized) (mk : Nat → Nat → Value) : Prop where
  ok : ∀ w v, read (mk w v) = .ok ⟨w, v⟩
  kind : ∀ x, (∀ w v, x ≠ mk w v) → read x = .error (.error .kind)
  ne_empty : ∀ w v, mk w v ≠ .empty

theorem asNat_accepts : Accepts asNat .nat where
  ok _ _ := rfl
  kind x hx := by
    cases x with
    | nat w v => exact absurd rfl (hx w v)
    | _ => rfl
  ne_empty _ _ := nofun

theorem asBits_accepts : Accepts asBits .bits where
  ok _ _ := rfl
  kind x hx := by
    cases x with
    | bits w v => exact absurd rfl (hx w v)
    | _ => rfl
  ne_empty _ _ := nofun

variable {read : Value → Except Raised Sized} {mk : Nat → Nat → Value}

theorem Accepts.answers_one (hr : Accepts read mk) {f : Sized → Except Raised Value} {n v : Nat}
    (h : exec i s = .next (finish d (onOne s a fun x => read x >>= f) s)) (ha : s.slot a = mk n v) :
    Answers i s d (f ⟨n, v⟩) := by
  have hanswer := answers_onOne h (ha ▸ hr.ne_empty n v)
  rwa [ha, hr.ok, ok_bind] at hanswer

theorem Accepts.raises_kind_one (hr : Accepts read mk) {f : Sized → Except Raised Value}
    (h : exec i s = .next (finish d (onOne s a fun x => read x >>= f) s)) (ha : s.slot a ≠ .empty)
    (hk : ∀ n v, s.slot a ≠ mk n v) : Raises i s .kind := by
  have hanswer := answers_onOne h ha
  rwa [hr.kind _ hk, error_bind] at hanswer

theorem Accepts.answers_two (hr : Accepts read mk) {f : Sized → Sized → Except Raised Value} {n u m v : Nat}
    (h : exec i s = .next (finish d (onTwo s a b fun x y => read x >>= fun p => read y >>= f p) s))
    (ha : s.slot a = mk n u) (hb : s.slot b = mk m v) : Answers i s d (f ⟨n, u⟩ ⟨m, v⟩) := by
  have hanswer := answers_onTwo h (by rw [ha, hb]; exact not_or.mpr ⟨hr.ne_empty n u, hr.ne_empty m v⟩)
  rwa [ha, hb, hr.ok, ok_bind, hr.ok, ok_bind] at hanswer

theorem Accepts.raises_kind_two (hr : Accepts read mk) {f : Sized → Sized → Except Raised Value}
    (h : exec i s = .next (finish d (onTwo s a b fun x y => read x >>= fun p => read y >>= f p) s))
    (ha : s.slot a ≠ .empty) (hb : s.slot b ≠ .empty)
    (hk : ∀ n u m v, s.slot a = mk n u → s.slot b = mk m v → False) : Raises i s .kind := by
  have hanswer := answers_onTwo h (not_or.mpr ⟨ha, hb⟩)
  by_cases hleft : ∃ n u, s.slot a = mk n u
  · obtain ⟨n, u, hleft⟩ := hleft
    rwa [hleft, hr.ok, ok_bind, hr.kind _ fun m v => hk n u m v hleft, error_bind] at hanswer
  · rwa [hr.kind _ fun n u e => hleft ⟨n, u, e⟩, error_bind] at hanswer

/-! ### The operations that NAT and BITS share, on this hardware -/

/-- A sequence that begins with a choice is a choice of sequences. -/
theorem ite_bind {α β : Type} {p : Prop} [Decidable p] (q r : Except Raised α) (f : α → Except Raised β) :
    ((if p then q else r) >>= f) = if p then q >>= f else r >>= f := by
  split <;> rfl

theorem answers_construct {w n : Nat}
    (h : exec i s = .next (finish d (construct Config.natUnit w n >>= fun r => .ok (mk r.width r.value)) s)) :
    if w ≤ 4096 then Writes i s d (mk w (n % 2 ^ w)) else Raises i s .widthLimit := by
  rw [construct_eq, ite_bind] at h
  exact answers_ite (answers_of_finish h)

/-- What a successor is on this hardware, its checks in the order of the rule (R84, R114). -/
theorem successor_natUnit (n v : Nat) :
    successor Config.natUnit ⟨n, v⟩ =
      if 4096 < succWidth n then .error (.error .widthLimit)
      else if 2 ^ succWidth n ≤ v + 1 then .error (.error .succOverflow)
      else .ok ⟨succWidth n, v + 1⟩ := by
  have hrule := successor_eq Config.natUnit ⟨n, v⟩
  simp only [← not_le, ite_not] at hrule ⊢
  exact hrule

/-- The successor, with its two errors in the order of the rule (R84, R114). -/
theorem Accepts.answers_successor (hr : Accepts read mk) {n v : Nat}
    (h : exec i s = .next (finish d (onOne s a fun x =>
      read x >>= fun p => successor Config.natUnit p >>= fun r => .ok (mk r.width r.value)) s))
    (ha : s.slot a = mk n v) :
    if 4096 < succWidth n then Raises i s .widthLimit
    else if 2 ^ succWidth n ≤ v + 1 then Raises i s .succOverflow
    else Writes i s d (mk (succWidth n) (v + 1)) := by
  have hanswer := hr.answers_one h ha
  rw [successor_natUnit, ite_bind, ite_bind] at hanswer
  have houter := answers_ite hanswer
  split
  · next hw => rwa [if_pos hw] at houter
  · next hw =>
    rw [if_neg hw] at houter
    exact answers_ite houter

theorem Accepts.answers_sum (hr : Accepts read mk) {n u m v : Nat}
    (h : exec i s = .next (finish d (onTwo s a b fun x y => read x >>= fun p => read y >>= fun q =>
      sum Config.natUnit p q >>= fun r => .ok (mk r.width r.value)) s))
    (ha : s.slot a = mk n u) (hb : s.slot b = mk m v) :
    if max n m + 1 ≤ 4096 then Writes i s d (mk (max n m + 1) (u + v)) else Raises i s .widthLimit := by
  have hanswer := hr.answers_two h ha hb
  rw [sum_eq, ite_bind] at hanswer
  exact answers_ite hanswer

theorem Accepts.answers_concat (hr : Accepts read mk) {n u m v : Nat}
    (h : exec i s = .next (finish d (onTwo s a b fun x y => read x >>= fun p => read y >>= fun q =>
      concat Config.natUnit p q >>= fun r => .ok (mk r.width r.value)) s))
    (ha : s.slot a = mk n u) (hb : s.slot b = mk m v) :
    if n + m ≤ 4096 then Writes i s d (mk (n + m) (u * 2 ^ m + v)) else Raises i s .widthLimit := by
  have hanswer := hr.answers_two h ha hb
  rw [concat_eq, ite_bind] at hanswer
  exact answers_ite hanswer

/-- The width is the rule's maximum of an integer and 0 (R94, R108). -/
theorem Accepts.answers_shiftRight (hr : Accepts read mk) {n v k : Nat}
    (h : exec i s = .next (finish d (onOne s a fun x =>
      read x >>= fun p => .ok (mk (shiftRight k p).width (shiftRight k p).value)) s))
    (ha : s.slot a = mk n v) : Writes i s d (mk (max ((n : Int) - k) 0).toNat (v >>> k)) := by
  have hwidth : (max ((n : Int) - k) 0).toNat = n - k := by omega
  rw [hwidth, Nat.shiftRight_eq_div_pow]
  exact hr.answers_one h ha

end Answers

end Sys2Proof.Machine

/-! The rules of the Nat and the Bits families, and of NEG.ADD and NEG.CMP, for every kind of source: the constructions,
successors, sums, differences, compares, shifts, bit size, concatenations and conversions. -/

namespace Sys2Proof.Machine

open Sys2Proof.Claim

/-- Settles O25: a construction reads no slot, so its one check is the width's. -/
theorem constructionsMaskTheImmediate : Obligations.ConstructionsMaskTheImmediate :=
  ⟨decodesTo_of_map fun _ => rfl, decodesTo_of_map fun _ => rfl, fun _ _ _ _ =>
    ⟨answers_construct rfl, answers_construct rfl⟩⟩

/-- Settles O34: nothing but the tag changes. -/
theorem conversionsKeepWidthAndValue : Obligations.ConversionsKeepWidthAndValue := by
  refine ⟨decodesTo_of_map fun _ => rfl, decodesTo_of_map fun _ => rfl, fun d a s => ⟨?_, ?_⟩⟩
  · split
    · next ha => exact raises_of_source_empty rfl ha
    · next ha => exact asNat_accepts.answers_one (f := fun p => .ok (.bits p.width p.value)) rfl ha
    · next ha hk => exact asNat_accepts.raises_kind_one rfl ha hk
  · split
    · next ha => exact raises_of_source_empty rfl ha
    · next ha => exact asBits_accepts.answers_one (f := fun p => .ok (.nat p.width p.value)) rfl ha
    · next ha hk => exact asBits_accepts.raises_kind_one rfl ha hk

/-- Settles O26: NAT.SUCC and BITS.SUCC are one operation under two tags. -/
theorem successorsWidenOnlyWhenTheTopLimbIsFull : Obligations.SuccessorsWidenOnlyWhenTheTopLimbIsFull := by
  refine ⟨decodesTo_of_map fun _ => rfl, decodesTo_of_map fun _ => rfl, fun d a s => ⟨?_, ?_⟩⟩
  · split
    · next ha => exact raises_of_source_empty rfl ha
    · next ha => exact asNat_accepts.answers_successor rfl ha
    · next ha hk => exact asNat_accepts.raises_kind_one rfl ha hk
  · split
    · next ha => exact raises_of_source_empty rfl ha
    · next ha => exact asBits_accepts.answers_successor rfl ha
    · next ha hk => exact asBits_accepts.raises_kind_one rfl ha hk

/-- Settles O27: NAT.ADD and BITS.ADD are one operation under two tags. -/
theorem sumsAreOneBitWiderThanTheWiderOperand : Obligations.SumsAreOneBitWiderThanTheWiderOperand := by
  refine ⟨decodesTo_of_map fun _ => rfl, decodesTo_of_map fun _ => rfl, fun d a b s => ⟨?_, ?_⟩⟩
  · split
    · next ha => exact raises_of_either_empty rfl (.inl ha)
    · next hb _ => exact raises_of_either_empty rfl (.inr hb)
    · next ha hb => exact asNat_accepts.answers_sum rfl ha hb
    · next ha hb hk => exact asNat_accepts.raises_kind_two rfl ha hb hk
  · split
    · next ha => exact raises_of_either_empty rfl (.inl ha)
    · next hb _ => exact raises_of_either_empty rfl (.inr hb)
    · next ha hb => exact asBits_accepts.answers_sum rfl ha hb
    · next ha hb hk => exact asBits_accepts.raises_kind_two rfl ha hb hk

/-- Settles O33: NAT.CONCAT and BITS.CONCAT are one operation under two tags. -/
theorem concatenationPutsTheFirstOperandHigh : Obligations.ConcatenationPutsTheFirstOperandHigh := by
  refine ⟨decodesTo_of_map fun _ => rfl, decodesTo_of_map fun _ => rfl, fun d a b s => ⟨?_, ?_⟩⟩
  · split
    · next ha => exact raises_of_either_empty rfl (.inl ha)
    · next hb _ => exact raises_of_either_empty rfl (.inr hb)
    · next ha hb => exact asNat_accepts.answers_concat rfl ha hb
    · next ha hb hk => exact asNat_accepts.raises_kind_two rfl ha hb hk
  · split
    · next ha => exact raises_of_either_empty rfl (.inl ha)
    · next hb _ => exact raises_of_either_empty rfl (.inr hb)
    · next ha hb => exact asBits_accepts.answers_concat rfl ha hb
    · next ha hb hk => exact asBits_accepts.raises_kind_two rfl ha hb hk

/-! ### Shifts and the bit size -/

theorem natShl_answers {s : State} {a : Slot} {n v : Nat} (ha : s.slot a = .nat n v) (d : Slot) (k : Nat) :
    if n + k ≤ 4096 then Writes (.natShl d a k) s d (.nat (n + k) (v <<< k))
    else Raises (.natShl d a k) s .widthLimit := by
  have hanswer := asNat_accepts.answers_one (i := .natShl d a k) (f := fun p =>
    require (p.width + k ≤ 4096) .widthLimit >>= fun _ => .ok (.nat (p.width + k) (p.value * 2 ^ k))) rfl ha
  rw [require_bind, ← Nat.shiftLeft_eq] at hanswer
  exact answers_ite hanswer

/-- Settles O31: NAT.SHL has the one check; NAT.SHR and BITS.SHR are one operation under two tags. -/
theorem shiftsMoveTheWidthWithTheValue : Obligations.ShiftsMoveTheWidthWithTheValue := by
  refine ⟨decodesTo_of_map fun _ => rfl, decodesTo_of_map fun _ => rfl, decodesTo_of_map fun _ => rfl,
    fun d a k s => ⟨?_, ?_, ?_⟩⟩
  · split
    · next ha => exact raises_of_source_empty rfl ha
    · next ha => exact natShl_answers ha d k
    · next ha hk => exact asNat_accepts.raises_kind_one rfl ha hk
  · split
    · next ha => exact raises_of_source_empty rfl ha
    · next ha => exact asNat_accepts.answers_shiftRight rfl ha
    · next ha hk => exact asNat_accepts.raises_kind_one rfl ha hk
  · split
    · next ha => exact raises_of_source_empty rfl ha
    · next ha => exact asBits_accepts.answers_shiftRight rfl ha
    · next ha hk => exact asBits_accepts.raises_kind_one rfl ha hk

/-- Settles O32: `bitSize` meets R12's words (`isBitSize_bitSize`). -/
theorem bitsizeCountsToTheHighestSetBit : Obligations.BitsizeCountsToTheHighestSetBit := by
  refine ⟨decodesTo_of_map fun _ => rfl, fun d a s => ?_⟩
  split
  · next ha => exact raises_of_source_empty rfl ha
  · next v ha =>
    exact ⟨bitSize v, isBitSize_bitSize v,
      asNat_accepts.answers_one (f := fun p => .ok (.nat cntw (bitSize p.value))) rfl ha⟩
  · next ha hk => exact asNat_accepts.raises_kind_one rfl ha hk

/-! ### Differences -/

/-- NAT.SUB of two NATs writes their difference (R89). -/
theorem natSub_writes {s : State} {a b : Slot} {n u m v : Nat} (ha : s.slot a = .nat n u) (hb : s.slot b = .nat m v)
    (d : Slot) : Writes (.natSub d a b) s d (difference (max n m) u v) :=
  asNat_accepts.answers_two (f := fun p q => .ok (difference (max p.width q.width) p.value q.value)) rfl ha hb

/-- NEG.ADD of a NAT and a NEG writes the difference of their magnitudes (R129). -/
theorem negAdd_writes_nat_neg {s : State} {a b : Slot} {n u m v : Nat} (ha : s.slot a = .nat n u)
    (hb : s.slot b = .neg m v) (d : Slot) : Writes (.negAdd d a b) s d (difference (max n m) u v) := by
  have hanswer : Answers (.negAdd d a b) s d (negAdd (s.slot a) (s.slot b)) :=
    answers_onTwo rfl (by rw [ha, hb]; exact not_or.mpr ⟨nofun, nofun⟩)
  rwa [ha, hb] at hanswer

theorem negAdd_writes_neg_nat {s : State} {a b : Slot} {n u m v : Nat} (ha : s.slot a = .neg m v)
    (hb : s.slot b = .nat n u) (d : Slot) : Writes (.negAdd d a b) s d (difference (max n m) u v) := by
  have hanswer : Answers (.negAdd d a b) s d (negAdd (s.slot a) (s.slot b)) :=
    answers_onTwo rfl (by rw [ha, hb]; exact not_or.mpr ⟨nofun, nofun⟩)
  rwa [ha, hb] at hanswer

theorem negAdd_kind {x y : Value} (h : ∀ n u m v, x = .nat n u → y = .neg m v → False)
    (h' : ∀ m v n u, x = .neg m v → y = .nat n u → False) : negAdd x y = .error (.error .kind) := by
  unfold negAdd
  split
  · exact (h _ _ _ _ rfl rfl).elim
  · exact (h' _ _ _ _ rfl rfl).elim
  · rfl

/-- Settles O28: both commands write `difference`, which decides between NAT and NEG by the payloads. -/
theorem differencesBecomeNegWhenNegative : Obligations.DifferencesBecomeNegWhenNegative := by
  refine ⟨decodesTo_of_map fun _ => rfl, decodesTo_of_map fun _ => rfl, fun d a b s => ⟨?_, ?_⟩⟩
  · split
    · next ha => exact raises_of_either_empty rfl (.inl ha)
    · next hb _ => exact raises_of_either_empty rfl (.inr hb)
    · next n u m v ha hb =>
      refine ⟨_, natSub_writes ha hb d, widthOf_difference _ u v, valOf_difference _ u v, ?_⟩
      split
      · next hle => exact if_pos hle
      · next hlt => exact if_neg hlt
    · next ha hb hk => exact asNat_accepts.raises_kind_two rfl ha hb hk
  · split
    · next ha => exact raises_of_either_empty rfl (.inl ha)
    · next hb _ => exact raises_of_either_empty rfl (.inr hb)
    · next ha hb => exact negAdd_writes_nat_neg ha hb d
    · next ha hb => exact negAdd_writes_neg_nat ha hb d
    · next ha hb h h' =>
      have hanswer : Answers (.negAdd d a b) s d (negAdd (s.slot a) (s.slot b)) :=
        answers_onTwo rfl (not_or.mpr ⟨ha, hb⟩)
      rwa [negAdd_kind h h'] at hanswer

/-- Settles O29: the payload's two cases are the rule's two branches. -/
theorem subtractingFromAssertedZeroIsFatalUnlessZero :
    Obligations.SubtractingFromAssertedZeroIsFatalUnlessZero := by
  refine ⟨decodesTo_of_map fun _ => rfl, fun d a s => ?_⟩
  have hanswer : s.slot a ≠ .empty → Answers (.natSubz d a) s d (natSubz (s.slot a)) := answers_onOne rfl
  split
  · next ha => exact raises_of_source_empty rfl ha
  · next ha =>
    rw [ha] at hanswer
    exact hanswer nofun
  · next ha =>
    rw [ha] at hanswer
    exact hanswer nofun
  · next ha hzero hsucc =>
    exact asNat_accepts.raises_kind_one rfl ha fun m v => v.casesOn (hzero m) (hsucc m)

/-! ### Compares -/

/-- The 2-bit code of the model is R15's. -/
theorem compareResult_eq_outcome (a b : Int) : compareResult a b = outcome a b := by
  unfold compareResult outcome ord
  split
  · rfl
  · split <;> rfl

/-- NAT.CMP and BITS.CMP are one operation under two tags (R92, R115). -/
theorem Accepts.answers_compare {i : Instr} {s : State} {d a b : Slot} {read : Value → Except Raised Sized}
    {mk : Nat → Nat → Value} (hr : Accepts read mk) {n u m v : Nat}
    (h : exec i s = .next (finish d (onTwo s a b fun x y =>
      read x >>= fun p => read y >>= fun q => .ok (compareResult p.value q.value)) s))
    (ha : s.slot a = mk n u) (hb : s.slot b = mk m v) : Writes i s d (outcome u v) := by
  rw [← compareResult_eq_outcome]
  exact hr.answers_two h ha hb

theorem asSigned_of_some {x : Value} {z : Int} (h : signedVal x = some z) : asSigned x = .ok z := by
  cases x with
  | nat w v => cases h; rfl
  | neg w m => cases h; rfl
  | _ => cases h

theorem asSigned_of_none {x : Value} (h : signedVal x = none) : asSigned x = .error (.error .kind) := by
  cases x with
  | nat w v => cases h
  | neg w m => cases h
  | _ => rfl

theorem negCmp_ok {x y : Value} {p q : Int} (hx : signedVal x = some p) (hy : signedVal y = some q) :
    negCmp x y = .ok (outcome p q) := by
  rw [negCmp, asSigned_of_some hx, asSigned_of_some hy, ← compareResult_eq_outcome]
  rfl

theorem negCmp_kind {x y : Value} (h : ∀ p q, signedVal x = some p → signedVal y = some q → False) :
    negCmp x y = .error (.error .kind) := by
  unfold negCmp
  cases hx : signedVal x with
  | none => rw [asSigned_of_none hx, error_bind]
  | some p =>
    have hy : signedVal y = none := Option.eq_none_iff_forall_ne_some.mpr fun q => h p q hx
    rw [asSigned_of_some hx, ok_bind, asSigned_of_none hy, error_bind]

/-- Settles O30: NAT.CMP and BITS.CMP read payloads, NEG.CMP the signed integer of either kind. -/
theorem comparesOrderByValue : Obligations.ComparesOrderByValue := by
  refine ⟨decodesTo_of_map fun _ => rfl, decodesTo_of_map fun _ => rfl, decodesTo_of_map fun _ => rfl,
    fun d a b s => ⟨?_, ?_, ?_⟩⟩
  · split
    · next ha => exact raises_of_either_empty rfl (.inl ha)
    · next hb _ => exact raises_of_either_empty rfl (.inr hb)
    · next ha hb => exact asNat_accepts.answers_compare rfl ha hb
    · next ha hb hk => exact asNat_accepts.raises_kind_two rfl ha hb hk
  · split
    · next ha => exact raises_of_either_empty rfl (.inl ha)
    · next hb _ => exact raises_of_either_empty rfl (.inr hb)
    · next ha hb => exact asBits_accepts.answers_compare rfl ha hb
    · next ha hb hk => exact asBits_accepts.raises_kind_two rfl ha hb hk
  · split
    · next he => exact raises_of_either_empty rfl he
    · next he =>
      have hanswer : Answers (.negCmp d a b) s d (negCmp (s.slot a) (s.slot b)) := answers_onTwo rfl he
      split
      · next hp hq => rwa [negCmp_ok hp hq] at hanswer
      · next h => rwa [negCmp_kind h] at hanswer

end Sys2Proof.Machine

/-! The laws of the Nat family (R98, R87), each from the rules of the commands it chains. -/

namespace Sys2Proof.Machine

open Sys2Proof.Claim

/-! ### What the rules say of NAT operands -/

section Rules

variable {s : State} {a b : Slot} {n u m v : Nat}

theorem natSucc_writes (ha : s.slot a = .nat n v) (hw : succWidth n ≤ 4096) (hfits : v + 1 < 2 ^ succWidth n)
    (d : Slot) : Writes (.natSucc d a) s d (.nat (succWidth n) (v + 1)) := by
  have hrule := asNat_accepts.answers_successor (i := .natSucc d a) rfl ha
  rwa [if_neg (not_lt.mpr hw), if_neg (not_le.mpr hfits)] at hrule

theorem natSucc_raises_succOverflow (ha : s.slot a = .nat n v) (hw : succWidth n ≤ 4096)
    (hover : 2 ^ succWidth n ≤ v + 1) (d : Slot) : Raises (.natSucc d a) s .succOverflow := by
  have hrule := asNat_accepts.answers_successor (i := .natSucc d a) rfl ha
  rwa [if_neg (not_lt.mpr hw), if_pos hover] at hrule

theorem natAdd_writes (ha : s.slot a = .nat n u) (hb : s.slot b = .nat m v) (hw : max n m + 1 ≤ 4096) (d : Slot) :
    Writes (.natAdd d a b) s d (.nat (max n m + 1) (u + v)) := by
  have hrule := asNat_accepts.answers_sum (i := .natAdd d a b) rfl ha hb
  rwa [if_pos hw] at hrule

theorem natConcat_writes (ha : s.slot a = .nat n u) (hb : s.slot b = .nat m v) (hw : n + m ≤ 4096) (d : Slot) :
    Writes (.natConcat d a b) s d (.nat (n + m) (u * 2 ^ m + v)) := by
  have hrule := asNat_accepts.answers_concat (i := .natConcat d a b) rfl ha hb
  rwa [if_pos hw] at hrule

theorem negNegate_writes_of_nat (ha : s.slot a = .nat n v) (d : Slot) :
    Writes (.negNegate d a) s d (.neg n v) := by
  have hanswer : Answers (.negNegate d a) s d (negNegate (s.slot a)) := answers_onOne rfl (by rw [ha]; nofun)
  rwa [ha] at hanswer

theorem negNegate_writes_of_neg (ha : s.slot a = .neg n v) (d : Slot) :
    Writes (.negNegate d a) s d (.nat n v) := by
  have hanswer : Answers (.negNegate d a) s d (negNegate (s.slot a)) := answers_onOne rfl (by rw [ha]; nofun)
  rwa [ha] at hanswer

end Rules

/-! ### The width of a successor -/

/-- The successor of a legal payload overflows its width only where the top limb is not full: a full one is given a
new bit (R84). -/
theorem succOverflow_iff {n v : Nat} (hv : v < 2 ^ n) :
    2 ^ succWidth n ≤ v + 1 ↔ v + 1 = 2 ^ n ∧ n % 64 ≠ 0 := by
  unfold succWidth
  split
  · next hfull =>
    rw [Nat.pow_succ]
    omega
  · next hpart => omega

theorem succWidth_le_of_overflow {n v : Nat} (hv : v < 2 ^ n) (h : 2 ^ succWidth n ≤ v + 1) : succWidth n = n :=
  if_neg ((succOverflow_iff hv).mp h).2

theorem succWidth_le (n : Nat) : succWidth n ≤ n + 1 := by
  unfold succWidth
  split <;> omega

/-! ### The laws -/

section Laws

variable {s : State} {a d e : Slot} {n v : Nat}

/-- `successor(a) − one` has the value of `a` (R98). -/
theorem successor_sub_one {one : Slot} (ha : s.slot a = .nat n v) (hone : s.slot one = .nat 1 1) (hd : d ≠ one)
    (hw : succWidth n ≤ 4096) (hfits : v + 1 < 2 ^ succWidth n) (e : Slot) :
    ∃ t u x, exec (.natSucc d a) s = .next t ∧ exec (.natSub e d one) t = .next u ∧ Wrote e x t u
      ∧ valOf x = some (v : Int) := by
  obtain ⟨t, hsucc, hresult, hkept, -⟩ := natSucc_writes ha hw hfits d
  obtain ⟨u, hsub, hwrote⟩ := natSub_writes hresult ((hkept one hd.symm).trans hone) e
  refine ⟨t, u, _, hsucc, hsub, hwrote, ?_⟩
  rw [valOf_difference]
  simp

/-- `a − successor(a)` is the NEG of magnitude 1 (R98). -/
theorem sub_successor (ha : s.slot a = .nat n v) (hd : d ≠ a) (hw : succWidth n ≤ 4096)
    (hfits : v + 1 < 2 ^ succWidth n) (e : Slot) :
    ∃ t u w, exec (.natSucc d a) s = .next t ∧ exec (.natSub e a d) t = .next u ∧ Wrote e (.neg w 1) t u := by
  obtain ⟨t, hsucc, hresult, hkept, -⟩ := natSucc_writes ha hw hfits d
  obtain ⟨u, hsub, hwrote⟩ := natSub_writes ((hkept a hd.symm).trans ha) hresult e
  have hneg : difference (max n (succWidth n)) v (v + 1) = .neg (max n (succWidth n)) 1 := by simp [difference]
  exact ⟨t, u, _, hsucc, hsub, hneg ▸ hwrote⟩

theorem natSub_self (ha : s.slot a = .nat n v) (d : Slot) : Writes (.natSub d a a) s d (.nat n 0) := by
  have hzero : difference (max n n) v v = .nat n 0 := by simp [difference]
  exact hzero ▸ natSub_writes ha ha d

theorem negate_negate (ha : s.slot a = .nat n v) (d e : Slot) :
    ∃ t u, exec (.negNegate d a) s = .next t ∧ exec (.negNegate e d) t = .next u ∧ Wrote e (.nat n v) t u := by
  obtain ⟨t, hneg, hresult, -⟩ := negNegate_writes_of_nat ha d
  obtain ⟨u, hback, hwrote⟩ := negNegate_writes_of_neg hresult e
  exact ⟨t, u, hneg, hback, hwrote⟩

theorem add_negate (ha : s.slot a = .nat n v) (hd : d ≠ a) (e : Slot) :
    ∃ t u, exec (.negNegate d a) s = .next t ∧ exec (.negAdd e a d) t = .next u ∧ Wrote e (.nat n 0) t u := by
  obtain ⟨t, hneg, hresult, hkept, -⟩ := negNegate_writes_of_nat ha d
  obtain ⟨u, hadd, hwrote⟩ := negAdd_writes_nat_neg ((hkept a hd.symm).trans ha) hresult e
  have hzero : difference (max n n) v v = .nat n 0 := by simp [difference]
  exact ⟨t, u, hneg, hadd, hzero ▸ hwrote⟩

/-- The zero-width Nat is the identity of concatenation on either side (R98). -/
theorem concat_zero_width (ha : s.slot a = .nat n v) (he : s.slot e = .nat 0 0) (hn : n ≤ 4096) (d : Slot) :
    Writes (.natConcat d a e) s d (.nat n v) ∧ Writes (.natConcat d e a) s d (.nat n v) := by
  constructor
  · simpa using natConcat_writes ha he hn d
  · simpa using natConcat_writes he ha (by omega) d

/-- The zero-width Nat is, one bit wider, the identity of addition on either side (R87). -/
theorem add_zero_width (ha : s.slot a = .nat n v) (he : s.slot e = .nat 0 0) (hn : n < 4096) (d : Slot) :
    Writes (.natAdd d a e) s d (.nat (n + 1) v) ∧ Writes (.natAdd d e a) s d (.nat (n + 1) v) := by
  constructor
  · simpa using natAdd_writes ha he (by omega) d
  · simpa using natAdd_writes he ha (by omega) d

end Laws

/-- Settles O45: one lemma for each law. -/
theorem natLawsHold : Obligations.NatLawsHold := by
  intro n v s a one d e ha hv hn hone hda hdone
  refine ⟨fun hlt hfits => ?_, succOverflow_iff hv, fun hover => ?_, natSub_self ha d, negate_negate ha d e,
    add_negate ha hda e, fun he => ?_⟩
  · have hw := (succWidth_le n).trans hlt
    exact ⟨successor_sub_one ha hone hdone hw hfits e, sub_successor ha hda hw hfits e⟩
  · exact natSucc_raises_succOverflow ha ((succWidth_le_of_overflow hv hover).trans_le hn) hover d
  · obtain ⟨hleft, hright⟩ := concat_zero_width ha he hn d
    exact ⟨hleft, hright, fun hlt => add_zero_width ha he hlt d⟩

end Sys2Proof.Machine

/-! The limb datapaths of the Nat family (R100 to R104): each gives the limb image (R28) of the value that its rule
names. The algorithms walk limb by limb, so their lemmas speak of the number that stands from one limb on. -/

namespace Sys2Proof.Machine

open Sys2Proof.Claim

/-! ### Limb images -/

/-- The lowest `n` limbs of a number (R28). -/
def lowLimbs (n p : Nat) : List Word := (List.range n).map fun i => BitVec.ofNat 64 (p / 2 ^ (64 * i))

theorem limbs_eq_lowLimbs (w p : Nat) : limbs w p = lowLimbs (limbCount w) p := rfl

theorem div_two_pow_add (p m n : Nat) : p / 2 ^ (m + n) = p / 2 ^ m / 2 ^ n := by
  rw [Nat.div_div_eq_div_mul, Nat.pow_add]

/-- Dropping `i + 1` limbs drops the lowest and then `i`. -/
theorem div_limb_succ (p i : Nat) : p / 2 ^ (64 * (i + 1)) = p / 2 ^ 64 / 2 ^ (64 * i) := by
  rw [← div_two_pow_add, Nat.mul_succ, Nat.add_comm]

theorem div_limb_lt {p n : Nat} (h : p < 2 ^ (64 * (n + 1))) : p / 2 ^ 64 < 2 ^ (64 * n) :=
  Nat.div_lt_of_lt_mul (by rwa [← Nat.pow_add, ← Nat.add_comm, ← Nat.mul_succ])

@[simp] theorem lowLimbs_zero (p : Nat) : lowLimbs 0 p = [] := rfl

theorem lowLimbs_succ (n p : Nat) : lowLimbs (n + 1) p = BitVec.ofNat 64 p :: lowLimbs n (p / 2 ^ 64) := by
  unfold lowLimbs
  rw [List.range_succ_eq_map, List.map_cons, List.map_map]
  simp [Function.comp_def, div_limb_succ]

theorem lowLimbs_succ_top (n p : Nat) :
    lowLimbs (n + 1) p = lowLimbs n p ++ [BitVec.ofNat 64 (p / 2 ^ (64 * n))] := by
  simp [lowLimbs, List.range_succ]

theorem lt_two_pow_limbCount {w p : Nat} (hp : p < 2 ^ w) : p < 2 ^ (64 * limbCount w) :=
  hp.trans_le (Nat.pow_le_pow_right two_pos (le_limbCount w))

/-- A limb sequence holds the number `p` from limb `i` on; absent limbs read as 0. -/
def HoldsFrom (l : List Word) (i p : Nat) : Prop := ∀ j, limbAt l (i + j) = p / 2 ^ (64 * j) % 2 ^ 64

theorem HoldsFrom.head {l : List Word} {i p : Nat} (h : HoldsFrom l i p) : limbAt l i = p % 2 ^ 64 := by
  simpa using h 0

theorem HoldsFrom.tail {l : List Word} {i p : Nat} (h : HoldsFrom l i p) : HoldsFrom l (i + 1) (p / 2 ^ 64) := by
  intro j
  rw [← div_limb_succ, ← h (j + 1), Nat.add_assoc, Nat.add_comm 1 j]

/-- The limb image of a legal payload holds it: above the top limb both are 0 (R28). -/
theorem limbs_holds {w p : Nat} (hp : p < 2 ^ w) : HoldsFrom (limbs w p) 0 p := by
  intro j
  rw [Nat.zero_add, limbAt_limbs]
  split
  · rfl
  · next hj =>
    have hle : limbCount w ≤ j := not_lt.mp hj
    have hsmall : p < 2 ^ (64 * j) :=
      (lt_two_pow_limbCount hp).trans_le (Nat.pow_le_pow_right two_pos (Nat.mul_le_mul_left 64 hle))
    rw [Nat.div_eq_of_lt hsmall, Nat.zero_mod]

/-! ### The carry-propagate adder and the borrow subtractor -/

/-- The adder from limb `i` on gives the sum of the numbers that stand there and the carry-in, when it fits (R100). -/
theorem addFrom_eq {a b : List Word} (count : Nat) {i c u v : Nat} (ha : HoldsFrom a i u) (hb : HoldsFrom b i v)
    (hc : c ≤ 1) (hfits : u + v + c < 2 ^ (64 * count)) : addFrom a b count i c = (lowLimbs count (u + v + c), 0) := by
  induction count generalizing i c u v with
  | zero =>
    have hzero : c = 0 := by simp at hfits; omega
    rw [hzero]
    rfl
  | succ count ih =>
    have hsplit : u / 2 ^ 64 + v / 2 ^ 64 + (if limbAt a i + limbAt b i + c ≥ 2 ^ 64 then 1 else 0)
        = (u + v + c) / 2 ^ 64 := by
      rw [ha.head, hb.head]
      split <;> omega
    have hlimb : BitVec.ofNat 64 ((limbAt a i + limbAt b i + c) % 2 ^ 64) = BitVec.ofNat 64 (u + v + c) := by
      rw [ha.head, hb.head]
      apply BitVec.eq_of_toNat_eq
      simp only [BitVec.toNat_ofNat]
      omega
    have htail := ih ha.tail hb.tail (by split <;> omega) (hsplit ▸ div_limb_lt hfits)
    rw [hsplit] at htail
    rw [addFrom, lowLimbs_succ, htail, hlimb]

/-- Settles O50: the sum fits its width (`add_lt_two_pow`), so no carry leaves the top. -/
theorem adderGivesTheSum : Obligations.AdderGivesTheSum := by
  intro n m u v hu hv
  have hfits : u + v < 2 ^ (64 * limbCount (max n m + 1)) := lt_two_pow_limbCount (add_lt_two_pow hu hv)
  exact addFrom_eq _ (limbs_holds hu) (limbs_holds hv) (Nat.zero_le 1) hfits

/-- A wrapped sum is below an operand exactly when it wrapped. -/
theorem wrapped_lt_iff (x y : Word) : (x + y).toNat < x.toNat ↔ 2 ^ 64 ≤ x.toNat + y.toNat := by
  have hx := x.isLt
  have hy := y.isLt
  rw [BitVec.toNat_add]
  omega

theorem carryWord_toNat (c : Bool) : (if c then 1 else 0 : Word).toNat = c.toNat := by cases c <;> rfl

/-- Two steps, each wrapping at most once, and not both (R100). -/
theorem addLimbTwoStep_exact (x y : Word) (c : Bool) :
    (addLimbTwoStep x y c).1.toNat = (x.toNat + y.toNat + c.toNat) % 2 ^ 64
    ∧ ((addLimbTwoStep x y c).2 = true ↔ 2 ^ 64 ≤ x.toNat + y.toNat + c.toNat) := by
  have hc := c.toNat_lt
  constructor
  · rw [addLimbTwoStep, BitVec.toNat_add, carryWord_toNat, BitVec.toNat_add, Nat.mod_add_mod]
  · simp only [addLimbTwoStep, Bool.or_eq_true, decide_eq_true_eq, wrapped_lt_iff]
    rw [BitVec.toNat_add, carryWord_toNat]
    omega

/-- The one-step test on the sum with its carry-in, as numbers. -/
theorem naiveCarry_iff (x y : Word) (c : Bool) :
    naiveCarry x y c = true ↔ (x.toNat + y.toNat + c.toNat) % 2 ^ 64 < x.toNat
      ∨ (x.toNat + y.toNat + c.toNat) % 2 ^ 64 < y.toNat := by
  simp only [naiveCarry, Bool.or_eq_true, decide_eq_true_eq, BitVec.toNat_add, carryWord_toNat, Nat.mod_add_mod]

/-- Settles O51. With a carry-in the one-step test fails where the sum wraps to no less than either limb, which takes
both limbs all ones. -/
theorem twoStepCarryIsExact : Obligations.TwoStepCarryIsExact := by
  refine ⟨addLimbTwoStep_exact, fun x y => ?_, fun x y => ?_⟩
  all_goals
    have hx := x.isLt
    have hy := y.isLt
    simp only [naiveCarry_iff, Bool.toNat_false, Bool.toNat_true]
    omega

/-- The subtractor from limb `i` on gives the difference of the numbers that stand there, less the borrow-in, when it
is not negative (R101). -/
theorem subFrom_eq {a b : List Word} (count : Nat) {i c p q : Nat} (ha : HoldsFrom a i p) (hb : HoldsFrom b i q)
    (hc : c ≤ 1) (hle : q + c ≤ p) (hfits : p < 2 ^ (64 * count)) :
    subFrom a b count i c = (lowLimbs count (p - q - c), 0) := by
  induction count generalizing i c p q with
  | zero =>
    have hzero : c = 0 := by simp at hfits; omega
    rw [hzero]
    rfl
  | succ count ih =>
    have hlimb : BitVec.ofInt 64 ((limbAt a i : Int) - limbAt b i - c) = BitVec.ofNat 64 (p - q - c) := by
      rw [ha.head, hb.head]
      apply BitVec.eq_of_toNat_eq
      simp only [BitVec.toNat_ofNat, BitVec.toNat_ofInt]
      omega
    have hborrow : q / 2 ^ 64 + (if (limbAt a i : Int) - limbAt b i - c < 0 then 1 else 0) ≤ p / 2 ^ 64
        ∧ p / 2 ^ 64 - q / 2 ^ 64 - (if (limbAt a i : Int) - limbAt b i - c < 0 then 1 else 0)
          = (p - q - c) / 2 ^ 64 := by
      rw [ha.head, hb.head]
      split <;> omega
    have htail := ih ha.tail hb.tail (by split <;> omega) hborrow.1 (div_limb_lt hfits)
    rw [hborrow.2] at htail
    rw [subFrom, lowLimbs_succ, htail, hlimb]

/-- Settles O52: the smaller payload is never below a borrow, so none leaves the top. -/
theorem subtractorGivesTheDifference : Obligations.SubtractorGivesTheDifference := by
  intro n m p q hp hq hle
  have hwide : p < 2 ^ max n m := hp.trans_le (Nat.pow_le_pow_right two_pos (le_max_left n m))
  exact subFrom_eq _ (limbs_holds hp) (limbs_holds hq) (Nat.zero_le 1) hle (lt_two_pow_limbCount hwide)

/-! ### The magnitude comparator -/

/-- A number's lowest `n + 1` limbs: limb `n` above the lowest `n`. -/
theorem mod_limb_succ (p n : Nat) :
    p % 2 ^ (64 * (n + 1)) = p % 2 ^ (64 * n) + 2 ^ (64 * n) * (p / 2 ^ (64 * n) % 2 ^ 64) := by
  rw [Nat.mul_succ, Nat.pow_add, Nat.mod_mul]

theorem add_mul_lt_of_lt {m r s x y : Nat} (hr : r < m) (h : x < y) : r + m * x < s + m * y :=
  calc r + m * x < m * (x + 1) := by rw [Nat.mul_succ]; omega
    _ ≤ m * y := Nat.mul_le_mul_left m h
    _ ≤ s + m * y := Nat.le_add_left _ s

/-- Comparing the lowest `n` limbs compares the numbers they make: the highest that differ decide (R102). -/
theorem compareFrom_eq {a b : List Word} {u v : Nat} (ha : HoldsFrom a 0 u) (hb : HoldsFrom b 0 v) (n : Nat) :
    compareFrom a b n = compare (u % 2 ^ (64 * n)) (v % 2 ^ (64 * n)) := by
  induction n with
  | zero => simp [compareFrom, Nat.mod_one]
  | succ n ih =>
    have hlimb := ha n
    have hlimb' := hb n
    rw [Nat.zero_add] at hlimb hlimb'
    have hu := Nat.mod_lt u (Nat.two_pow_pos (64 * n))
    have hv := Nat.mod_lt v (Nat.two_pow_pos (64 * n))
    rw [compareFrom, ih, mod_limb_succ u, mod_limb_succ v, ← hlimb, ← hlimb']
    split
    · next hlt => exact (Nat.compare_eq_lt.mpr (add_mul_lt_of_lt hu hlt)).symm
    · split
      · next hgt => exact (Nat.compare_eq_gt.mpr (add_mul_lt_of_lt hv hgt)).symm
      · next hle hge =>
        have heq : limbAt a n = limbAt b n := by omega
        rw [heq]
        simp [compare, compareOfLessAndEq]

theorem compareLimbs_limbs {n m u v : Nat} (hu : u < 2 ^ n) (hv : v < 2 ^ m) :
    compareLimbs (limbs n u) (limbs m v) = compare u v := by
  have hfit : ∀ {w p}, p < 2 ^ w → limbCount w ≤ max (limbCount n) (limbCount m) →
      p % 2 ^ (64 * max (limbCount n) (limbCount m)) = p := fun hp hle =>
    Nat.mod_eq_of_lt ((lt_two_pow_limbCount hp).trans_le
      (Nat.pow_le_pow_right two_pos (Nat.mul_le_mul_left 64 hle)))
  rw [compareLimbs, compareFrom_eq (limbs_holds hu) (limbs_holds hv), limbs_length, limbs_length,
    hfit hu (le_max_left _ _), hfit hv (le_max_right _ _)]

/-- Settles O53: the comparator is the comparison of the payloads. -/
theorem comparatorOrdersTheValues : Obligations.ComparatorOrdersTheValues := by
  intro n m u v hu hv
  rw [compareLimbs_limbs hu hv]
  exact ⟨Nat.compare_eq_lt, Nat.compare_eq_eq, Nat.compare_eq_gt⟩

/-! ### The shift pipelines -/

theorem limbAt_buildLimbs (n : Nat) (f : Nat → Nat) (i : Nat) :
    limbAt (buildLimbs n f) i = if i < n then f i % 2 ^ 64 else 0 := by
  unfold limbAt buildLimbs
  by_cases h : i < n
  · simp [h]
  · simp [h]

/-- Building the limbs of a number one by one gives its image (R28). -/
theorem buildLimbs_eq_limbs {w p : Nat} {f : Nat → Nat}
    (h : ∀ i, i < limbCount w → f i % 2 ^ 64 = p / 2 ^ (64 * i) % 2 ^ 64) : buildLimbs (limbCount w) f = limbs w p := by
  refine List.map_congr_left fun i hi => BitVec.eq_of_toNat_eq ?_
  simpa using h i (List.mem_range.mp hi)

/-- The bits of a limb that lie below the width are the limb of the number below it. -/
theorem limb_mod_width (w p i : Nat) :
    p / 2 ^ (64 * i) % 2 ^ 64 % 2 ^ min 64 (w - 64 * i) = p % 2 ^ w / 2 ^ (64 * i) % 2 ^ 64 := by
  apply Nat.eq_of_testBit_eq
  intro j
  have hbelow : j < min 64 (w - 64 * i) ↔ j < 64 ∧ j + 64 * i < w := by omega
  simp only [Nat.testBit_mod_two_pow, Nat.testBit_div_two_pow, hbelow, Bool.decide_and]
  cases decide (j < 64) <;> simp

/-- Cutting to width `w` keeps the lowest `w` bits (R28, R103, R123). -/
theorem cutLimbs_eq {w p : Nat} {l : List Word}
    (h : ∀ i, i < limbCount w → limbAt l i = p / 2 ^ (64 * i) % 2 ^ 64) : cutLimbs w l = limbs w (p % 2 ^ w) := by
  refine buildLimbs_eq_limbs fun i hi => ?_
  rw [h i hi, limb_mod_width, Nat.mod_mod]

/-- A pipeline that builds the limbs of a number within the width, and cuts, gives its image (R103). -/
theorem cutLimbs_buildLimbs {w p : Nat} (hp : p < 2 ^ w) {f : Nat → Nat}
    (h : ∀ i, i < limbCount w → f i = p / 2 ^ (64 * i) % 2 ^ 64) :
    cutLimbs w (buildLimbs (limbCount w) f) = limbs w p := by
  rw [cutLimbs_eq (p := p), Nat.mod_eq_of_lt hp]
  intro i hi
  rw [limbAt_buildLimbs, if_pos hi, h i hi, Nat.mod_mod]

/-- The stitch: the limb of a number at a bit offset, `64 = r + d`, is the upper part of one limb below the lower part
of the next (R103). -/
theorem limb_stitch {r d : Nat} (h : d + r = 64) (p : Nat) :
    p / 2 ^ d % 2 ^ 64 = p / 2 ^ 64 % 2 ^ 64 * 2 ^ r % 2 ^ 64 + p % 2 ^ 64 / 2 ^ d := by
  have hsplit : 2 ^ 64 = 2 ^ d * 2 ^ r := by rw [← Nat.pow_add, h]
  calc p / 2 ^ d % 2 ^ 64
      = p / 2 ^ d % 2 ^ r + 2 ^ r * (p / 2 ^ d / 2 ^ r % 2 ^ d) := by
        rw [hsplit, Nat.mul_comm (2 ^ d), Nat.mod_mul]
    _ = p % 2 ^ 64 / 2 ^ d + 2 ^ r * (p / 2 ^ 64) % 2 ^ 64 := by
        rw [Nat.div_div_eq_div_mul, ← hsplit, ← Nat.mul_mod_mul_left, Nat.mul_comm (2 ^ r) (2 ^ d), ← hsplit,
          hsplit, Nat.mod_mul_right_div_self]
    _ = p / 2 ^ 64 % 2 ^ 64 * 2 ^ r % 2 ^ 64 + p % 2 ^ 64 / 2 ^ d := by
        rw [Nat.add_comm, Nat.mod_mul_mod, Nat.mul_comm (2 ^ r)]

/-- Moving whole limbs left multiplies by a power of `2^64`. -/
theorem movedLeft_eq {l : List Word} {p : Nat} (h : HoldsFrom l 0 p) (q i : Nat) :
    movedLeft l q i = p * 2 ^ (64 * q) / 2 ^ (64 * i) % 2 ^ 64 := by
  unfold movedLeft
  split
  · next hlow =>
    obtain ⟨j, rfl⟩ : ∃ j, q = i + (j + 1) := ⟨q - i - 1, by omega⟩
    have hpow : p * 2 ^ (64 * (i + (j + 1))) = 2 ^ (64 * i) * (2 ^ 64 * (p * 2 ^ (64 * j))) := by ring
    rw [hpow, Nat.mul_div_cancel_left _ (Nat.two_pow_pos _), Nat.mul_mod_right]
  · next hhigh =>
    obtain ⟨j, rfl⟩ : ∃ j, i = q + j := ⟨i - q, by omega⟩
    have hlimb := h j
    rw [Nat.zero_add] at hlimb
    rw [Nat.add_sub_cancel_left, hlimb, Nat.mul_comm p, Nat.mul_add, Nat.pow_add,
      Nat.mul_div_mul_left _ _ (Nat.two_pow_pos _)]

/-- Limb `i` of the left shift is limb `i` of `p * 2^k`: the moved limbs are those of `v = p * 2^(64 (k div 64))`, and
limb `j + 1` of `v * 2^(k mod 64)` stands `64 - k mod 64` bits above limb `j` of `v` (R103). -/
theorem shiftLeftLimb_eq {l : List Word} {p : Nat} (h : HoldsFrom l 0 p) (k i : Nat) :
    shiftLeftLimb l k i = p * 2 ^ k / 2 ^ (64 * i) % 2 ^ 64 := by
  have hk : p * 2 ^ k = p * 2 ^ (64 * (k / 64)) * 2 ^ (k % 64) := by
    rw [Nat.mul_assoc, ← Nat.pow_add, Nat.div_add_mod]
  have hmoved := movedLeft_eq h (k / 64)
  rw [shiftLeftLimb, hk]
  generalize p * 2 ^ (64 * (k / 64)) = v at hmoved ⊢
  split
  · next hr => rw [hr, Nat.pow_zero, Nat.mul_one, hmoved]
  · cases i with
    | zero => simp [hmoved, Nat.mod_mul_mod]
    | succ j =>
      have hr : 64 - k % 64 + k % 64 = 64 := by omega
      have hoffset : v * 2 ^ (k % 64) / 2 ^ (64 * (j + 1)) = v / 2 ^ (64 * j) / 2 ^ (64 - k % 64) := by
        rw [← div_two_pow_add, ← Nat.mul_div_mul_right v _ (Nat.two_pow_pos (k % 64)), ← Nat.pow_add, Nat.add_assoc, hr,
          Nat.mul_succ]
      rw [if_neg j.succ_ne_zero, hoffset, limb_stitch hr, Nat.add_sub_cancel, hmoved, hmoved, Nat.mul_succ,
        div_two_pow_add]

/-- Limb `i` of the right shift is limb `i` of `p div 2^k`, which stands `k mod 64` bits above limb `i + k div 64` of
`p` (R103). -/
theorem shiftRightLimb_eq {l : List Word} {p : Nat} (h : HoldsFrom l 0 p) (k i : Nat) :
    shiftRightLimb l k i = p / 2 ^ k / 2 ^ (64 * i) % 2 ^ 64 := by
  have hlimb := h (i + k / 64)
  have hnext := h (i + k / 64 + 1)
  have hplace : k + 64 * i = 64 * (i + k / 64) + k % 64 := by omega
  rw [Nat.zero_add] at hlimb hnext
  rw [Nat.mul_succ, div_two_pow_add] at hnext
  rw [shiftRightLimb, Nat.add_right_comm i 1, hlimb, hnext, ← div_two_pow_add p k, hplace, div_two_pow_add p]
  split
  · next hr => rw [hr, Nat.pow_zero, Nat.div_one]
  · next hr =>
    have hstitch : k % 64 + (64 - k % 64) = 64 := by omega
    rw [limb_stitch hstitch, Nat.add_comm]

/-- Settles O54: limb by limb, each pipeline's result is the shifted value, which fits the width it is cut to. -/
theorem shiftPipelinesGiveTheShiftedValues : Obligations.ShiftPipelinesGiveTheShiftedValues := by
  intro n k v hv
  have hleft : v * 2 ^ k < 2 ^ (n + k) := by
    rw [Nat.pow_add]
    exact Nat.mul_lt_mul_of_pos_right hv (Nat.two_pow_pos k)
  exact ⟨cutLimbs_buildLimbs hleft fun i _ => shiftLeftLimb_eq (limbs_holds hv) k i,
    cutLimbs_buildLimbs (div_lt_two_pow_sub hv) fun i _ => shiftRightLimb_eq (limbs_holds hv) k i⟩

/-! ### The leading-zero count -/

/-- The highest part that is not 0 decides the bit size (R12). -/
theorem bitSize_add_mul {k r d : Nat} (hr : r < 2 ^ k) (hd : d ≠ 0) : bitSize (r + 2 ^ k * d) = k + bitSize d := by
  obtain ⟨hone, htop⟩ := two_pow_le_of_pos d (Nat.pos_of_ne_zero hd)
  apply le_antisymm
  · have hlt := concatVal_lt (lt_two_pow_bitSize d) hr
    rw [bitSize_le_iff, Nat.add_comm k]
    rwa [concatVal, Nat.mul_comm, Nat.add_comm] at hlt
  · have hlow : 2 ^ (k + (bitSize d - 1)) < 2 ^ bitSize (r + 2 ^ k * d) :=
      calc 2 ^ (k + (bitSize d - 1)) = 2 ^ k * 2 ^ (bitSize d - 1) := Nat.pow_add ..
        _ ≤ r + 2 ^ k * d := (Nat.mul_le_mul_left _ htop).trans (Nat.le_add_left _ r)
        _ < 2 ^ bitSize (r + 2 ^ k * d) := lt_two_pow_bitSize _
    have := (Nat.pow_lt_pow_iff_right (by decide : 1 < 2)).mp hlow
    omega

/-- Leading zeros and bit size make up the bits counted (R104). -/
theorem leadingZeros_add_bitSize (x : Word) (n : Nat) : leadingZeros x n + bitSize (x.toNat % 2 ^ n) = n := by
  induction n with
  | zero => simp [leadingZeros, Nat.mod_one, bitSize]
  | succ n ih =>
    have hsplit : x.toNat % 2 ^ (n + 1) = x.toNat % 2 ^ n + 2 ^ n * (x.getLsbD n).toNat := by
      rw [Nat.pow_succ, Nat.mod_mul, ← BitVec.testBit_toNat, Nat.toNat_testBit]
    rw [leadingZeros, hsplit]
    split
    · next hbit =>
      have hone : bitSize true.toNat = 1 := by decide
      rw [hbit, bitSize_add_mul (Nat.mod_lt _ (Nat.two_pow_pos n)) (by decide), hone, Nat.zero_add]
    · next hbit =>
      simp only [hbit]
      simp
      omega

theorem clz64_eq (x : Word) : 64 - clz64 x = bitSize x.toNat := by
  have h := leadingZeros_add_bitSize x 64
  rw [Nat.mod_eq_of_lt x.isLt] at h
  unfold clz64
  omega

/-- The count over the lowest `n` limbs is the bit size of the number they make (R104). -/
theorem bitSizeFrom_eq {l : List Word} {p : Nat} (h : HoldsFrom l 0 p) (n : Nat) :
    bitSizeFrom l n = bitSize (p % 2 ^ (64 * n)) := by
  induction n with
  | zero => simp [bitSizeFrom, Nat.mod_one, bitSize]
  | succ n ih =>
    have hlimb := h n
    rw [Nat.zero_add] at hlimb
    rw [bitSizeFrom, mod_limb_succ, ← hlimb]
    split
    · next hne =>
      rw [bitSize_add_mul (Nat.mod_lt _ (Nat.two_pow_pos _)) hne, clz64_eq]
      rfl
    · next hzero => rw [not_not.mp hzero, ih, Nat.mul_zero, Nat.add_zero]

theorem bitSizeLimbs_limbs {w p : Nat} (hp : p < 2 ^ w) : bitSizeLimbs (limbs w p) = bitSize p := by
  rw [bitSizeLimbs, limbs_length, bitSizeFrom_eq (limbs_holds hp), Nat.mod_eq_of_lt (lt_two_pow_limbCount hp)]

/-! ### The cascading increment -/

/-- The increment gives the limbs of the number plus 1; the carry leaves the top exactly when those are all 0 (R104). -/
theorem incrementLimbs_lowLimbs (n : Nat) {p : Nat} (hp : p < 2 ^ (64 * n)) :
    incrementLimbs (lowLimbs n p) = (lowLimbs n (p + 1), decide (p + 1 = 2 ^ (64 * n))) := by
  induction n generalizing p with
  | zero =>
    obtain rfl : p = 0 := by simpa using hp
    rfl
  | succ n ih =>
    have hpow : 2 ^ (64 * (n + 1)) = 2 ^ 64 * 2 ^ (64 * n) := by rw [Nat.mul_succ, Nat.pow_add, Nat.mul_comm]
    rw [lowLimbs_succ, lowLimbs_succ, incrementLimbs, BitVec.toNat_ofNat, hpow]
    split
    · next hwrap =>
      have hrest : (p + 1) / 2 ^ 64 = p / 2 ^ 64 + 1 := by omega
      have hzero : BitVec.ofNat 64 (p + 1) = 0 := BitVec.eq_of_toNat_eq (by simp; omega)
      have hcarry : p / 2 ^ 64 + 1 = 2 ^ (64 * n) ↔ p + 1 = 2 ^ 64 * 2 ^ (64 * n) := by omega
      simp only [ih (div_limb_lt hp), hrest, hzero, hcarry]
    · next hstop =>
      have hrest : (p + 1) / 2 ^ 64 = p / 2 ^ 64 := by omega
      have hnone : p + 1 ≠ 2 ^ 64 * 2 ^ (64 * n) := by omega
      rw [hrest, decide_eq_false hnone, BitVec.ofNat_add]
      rfl

/-- Where the top limb is full, the carry out is the new limb (R84, R104). -/
theorem successorLimbs_limbs {n v : Nat} (hv : v < 2 ^ n) :
    successorLimbs n (limbs n v) = limbs (succWidth n) (v + 1) := by
  have hinc := incrementLimbs_lowLimbs (limbCount n) (lt_two_pow_limbCount hv)
  unfold successorLimbs succWidth
  rw [limbs_eq_lowLimbs, hinc]
  split
  · next hfull =>
    have hcount : limbCount (n + 1) = limbCount n + 1 := by unfold limbCount; omega
    have hbits : 64 * limbCount n = n := by unfold limbCount; omega
    have htop : BitVec.ofNat 64 ((v + 1) / 2 ^ n) = if decide (v + 1 = 2 ^ n) = true then 1 else 0 := by
      rcases Nat.lt_or_eq_of_le (show v + 1 ≤ 2 ^ n from hv) with hlt | heq
      · rw [Nat.div_eq_of_lt hlt, decide_eq_false hlt.ne]
        rfl
      · rw [heq, Nat.div_self (Nat.two_pow_pos n), decide_eq_true rfl]
        rfl
    rw [limbs_eq_lowLimbs, hcount, lowLimbs_succ_top, hbits, htop]
  · rfl

/-- Settles O55: the count is `bitSize`, and the increment needs no more than the payload's own width. -/
theorem leadingZeroCountAndIncrementAreExact : Obligations.LeadingZeroCountAndIncrementAreExact := by
  intro n v hv
  rw [bitSizeLimbs_limbs hv]
  exact ⟨isBitSize_bitSize v, fun _ => successorLimbs_limbs hv⟩

end Sys2Proof.Machine

/-! The arithmetic of the Bits family by bits (R9 to R13, R116): the rules write it with powers of 2, and the claims and
the limb datapaths read the bits. -/

namespace Sys2Proof.Machine

/-- The sign bit is the top bit, and 0 where there is none (R11). -/
theorem signBit_eq (n v : Nat) : signBit n v = if 1 ≤ n ∧ v.testBit (n - 1) = true then 1 else 0 := by
  unfold signBit
  by_cases hn : 1 ≤ n
  · rw [if_pos hn, ← Nat.toNat_testBit]
    cases v.testBit (n - 1) <;> simp [hn]
  · simp [hn]

theorem signExtend_eq (t n v : Nat) :
    signExtend t n v = if 1 ≤ n ∧ v.testBit (n - 1) = true then v + (2 ^ t - 2 ^ n) else v := by
  simp [signExtend, signBit_eq]

/-- The bits that a set sign adds: those from `n` up to the new width (R13). -/
theorem testBit_signFill {n t : Nat} (h : n ≤ t) (j : Nat) :
    (2 ^ t - 2 ^ n).testBit j = (decide (n ≤ j) && decide (j < t)) := by
  have hpow : 2 ^ n - 1 < 2 ^ t :=
    (Nat.sub_lt (Nat.two_pow_pos n) one_pos).trans_le (Nat.pow_le_pow_right two_pos h)
  have hsucc : 2 ^ n - 1 + 1 = 2 ^ n := Nat.sub_add_cancel (Nat.two_pow_pos n)
  have hbits := Nat.testBit_two_pow_sub_succ hpow j
  rw [hsucc] at hbits
  rw [hbits, Nat.testBit_two_pow_sub_one, Bool.and_comm]
  by_cases hj : j < n
  · simp [hj]
  · simp [hj, not_lt.mp hj]

/-- The payload and the bits a set sign adds do not meet, so their sum is their OR (R13, R123). -/
theorem add_signFill_eq_or {n t v : Nat} (hv : v < 2 ^ n) (h : n ≤ t) : v + (2 ^ t - 2 ^ n) = v ||| (2 ^ t - 2 ^ n) := by
  have hfill : 2 ^ t - 2 ^ n = 2 ^ n * (2 ^ (t - n) - 1) := by
    rw [Nat.mul_sub_one, ← Nat.pow_add, Nat.add_sub_cancel' h]
  rw [hfill, Nat.add_comm, Nat.or_comm, Nat.two_pow_add_eq_or_of_lt hv]

/-- Sign extension keeps the sign (R120): the new top bit is a filled one, or the old one where no bit is new. -/
theorem signBit_signExtend {n t v : Nat} (hv : v < 2 ^ n) (hn : 1 ≤ n) (h : n ≤ t) :
    signBit t (signExtend t n v) = signBit n v := by
  have htop : (signExtend t n v).testBit (t - 1) = v.testBit (n - 1) := by
    rw [signExtend_eq]
    rcases Nat.eq_or_lt_of_le h with rfl | hlt
    · simp
    · split
      · next hset =>
        have hfilled : n ≤ t - 1 ∧ t - 1 < t := by omega
        rw [add_signFill_eq_or hv h, Nat.testBit_or, testBit_signFill h, hset.2]
        simp [hfilled]
      · next hclear =>
        have hzero : v.testBit (t - 1) = false :=
          Nat.testBit_lt_two_pow (hv.trans_le (Nat.pow_le_pow_right two_pos (by omega)))
        simpa [hn, hzero] using hclear
  rw [signBit_eq, signBit_eq, htop]
  simp [hn, hn.trans h]

/-- Inverting bit `f` is an exclusive-or with `2^f` (R116): the quotient by `2^f` changes its lowest bit, and the
remainder stays. -/
theorem flipBit_eq_xor (f v : Nat) : flipBit f v = v ^^^ 2 ^ f := by
  have hquot : (v ^^^ 2 ^ f) / 2 ^ f = v / 2 ^ f ^^^ 1 := by
    rw [Nat.xor_div_two_pow, Nat.div_self (Nat.two_pow_pos f)]
  have hrem : (v ^^^ 2 ^ f) % 2 ^ f = v % 2 ^ f := by rw [Nat.xor_mod_two_pow, Nat.mod_self, Nat.xor_zero]
  have hv := Nat.div_add_mod v (2 ^ f)
  rw [← Nat.div_add_mod (v ^^^ 2 ^ f) (2 ^ f), hquot, hrem, flipBit]
  split
  · next hset =>
    have hodd : Odd (v / 2 ^ f) := Nat.odd_iff.mpr hset
    have hle : 2 ^ f ≤ 2 ^ f * (v / 2 ^ f) := Nat.le_mul_of_pos_right _ hodd.pos
    rw [Nat.xor_one_of_odd hodd, Nat.mul_sub_one]
    omega
  · next hclear =>
    rw [Nat.xor_one_of_even (Nat.even_iff.mpr (Nat.mod_two_ne_one.mp hclear)), Nat.mul_succ]
    omega

/-- The first operand of a concatenation is its high part (R10). -/
theorem concat_high {m n u v : Nat} (hu : u < 2 ^ m) (hv : v < 2 ^ n) : (u * 2 ^ n + v) / 2 ^ n % 2 ^ m = u := by
  rw [Nat.add_comm, Nat.add_mul_div_right _ _ (Nat.two_pow_pos n), Nat.div_eq_of_lt hv, Nat.zero_add,
    Nat.mod_eq_of_lt hu]

/-- The second operand of a concatenation is its low part (R10). -/
theorem concat_low {n v : Nat} (u : Nat) (hv : v < 2 ^ n) : (u * 2 ^ n + v) % 2 ^ n = v := by
  rw [Nat.mul_add_mod_self_right, Nat.mod_eq_of_lt hv]

end Sys2Proof.Machine

/-! The rules of the remaining Bits commands (R109 to R113, R116, R118) for every kind of source, and the laws of the
family (R120), each from the rules of the commands it chains. -/

namespace Sys2Proof.Machine

open Sys2Proof.Claim

/-! ### What each command answers for a BITS source -/

section Rules

variable {s : State} {a b : Slot} {n m u v : Nat}

theorem bitsExtract_answers (ha : s.slot a = .bits n v) (d : Slot) (high low : Nat) :
    if low ≤ high ∧ high < n then
      Writes (.bitsExtract d a high low) s d (.bits (high - low + 1) (v / 2 ^ low % 2 ^ (high - low + 1)))
    else Raises (.bitsExtract d a high low) s .widthContract := by
  have hanswer := asBits_accepts.answers_one (i := .bitsExtract d a high low) (f := fun p =>
    require (low ≤ high ∧ high < p.width) .widthContract >>= fun _ =>
      .ok (.bits (high - low + 1) (slice high low p.value))) rfl ha
  rw [require_bind] at hanswer
  exact answers_ite hanswer

theorem bitsTrim_answers (ha : s.slot a = .bits n v) (d : Slot) (w : Nat) :
    if w ≤ n then Writes (.bitsTrim d a w) s d (.bits w (v % 2 ^ w)) else Raises (.bitsTrim d a w) s .widthContract := by
  have hanswer := asBits_accepts.answers_one (i := .bitsTrim d a w) (f := fun p =>
    require (w ≤ p.width) .widthContract >>= fun _ => .ok (.bits w (truncate w p.value))) rfl ha
  rw [require_bind] at hanswer
  exact answers_ite hanswer

/-- BITS.ZEXT and BITS.SEXT are one command but for the extended value: the contract is checked before the limit
(R111, R112). -/
theorem answers_extension {i : Instr} {d : Slot} {w : Nat} (extended : Sized → Nat)
    (h : exec i s = .next (finish d (onOne s a fun x => asBits x >>= fun p =>
      require (w ≥ p.width) .widthContract >>= fun _ => require (w ≤ 4096) .widthLimit >>= fun _ =>
        .ok (.bits w (extended p))) s))
    (ha : s.slot a = .bits n v) :
    if w < n then Raises i s .widthContract
    else if 4096 < w then Raises i s .widthLimit
    else Writes i s d (.bits w (extended ⟨n, v⟩)) := by
  have hanswer := asBits_accepts.answers_one h ha
  simp only [require_bind, ← not_lt, ite_not] at hanswer
  have houter := answers_ite hanswer
  split
  · next hnarrow => rwa [if_pos hnarrow] at houter
  · next hwide =>
    rw [if_neg hwide] at houter
    exact answers_ite houter

theorem bitsZext_answers (ha : s.slot a = .bits n v) (d : Slot) (w : Nat) :
    if w < n then Raises (.bitsZext d a w) s .widthContract
    else if 4096 < w then Raises (.bitsZext d a w) s .widthLimit
    else Writes (.bitsZext d a w) s d (.bits w v) :=
  answers_extension (fun p => p.value) rfl ha

theorem bitsSext_answers (ha : s.slot a = .bits n v) (d : Slot) (w : Nat) :
    if w < n then Raises (.bitsSext d a w) s .widthContract
    else if 4096 < w then Raises (.bitsSext d a w) s .widthLimit
    else Writes (.bitsSext d a w) s d (.bits w (signExtend w n v)) :=
  answers_extension (fun p => signExtend w p.width p.value) rfl ha

theorem bitsNot_writes (ha : s.slot a = .bits n v) (d : Slot) :
    Writes (.bitsNot d a) s d (.bits n (2 ^ n - 1 - v)) :=
  asBits_accepts.answers_one (f := fun p => .ok (.bits p.width (2 ^ p.width - 1 - p.value))) rfl ha

theorem bitsSign_writes (ha : s.slot a = .bits n v) (d : Slot) :
    Writes (.bitsSign d a) s d (.bits 1 (signBit n v)) :=
  asBits_accepts.answers_one (f := fun p => .ok (.bits 1 (signBit p.width p.value))) rfl ha

theorem bitsFlip_answers (ha : s.slot a = .bits n v) (d : Slot) (f : Nat) :
    if max n (f + 1) ≤ 4096 then Writes (.bitsFlip d a f) s d (.bits (max n (f + 1)) (v ^^^ 2 ^ f))
    else Raises (.bitsFlip d a f) s .widthLimit := by
  have hanswer := asBits_accepts.answers_one (i := .bitsFlip d a f) (f := fun p =>
    require (max p.width (f + 1) ≤ 4096) .widthLimit >>= fun _ =>
      .ok (.bits (max p.width (f + 1)) (flipBit f p.value))) rfl ha
  rw [require_bind, flipBit_eq_xor] at hanswer
  exact answers_ite hanswer

/-! ### The same where no check fails -/

theorem bitsConcat_writes (ha : s.slot a = .bits m u) (hb : s.slot b = .bits n v) (hw : m + n ≤ 4096) (d : Slot) :
    Writes (.bitsConcat d a b) s d (.bits (m + n) (u * 2 ^ n + v)) := by
  have hrule := asBits_accepts.answers_concat (i := .bitsConcat d a b) rfl ha hb
  rwa [if_pos hw] at hrule

theorem bitsExtract_writes {high low : Nat} (ha : s.slot a = .bits n v) (hfield : low ≤ high ∧ high < n) (d : Slot) :
    Writes (.bitsExtract d a high low) s d (.bits (high - low + 1) (v / 2 ^ low % 2 ^ (high - low + 1))) := by
  have hrule := bitsExtract_answers ha d high low
  rwa [if_pos hfield] at hrule

theorem bitsTrim_writes {w : Nat} (ha : s.slot a = .bits n v) (hw : w ≤ n) (d : Slot) :
    Writes (.bitsTrim d a w) s d (.bits w (v % 2 ^ w)) := by
  have hrule := bitsTrim_answers ha d w
  rwa [if_pos hw] at hrule

theorem bitsZext_writes {w : Nat} (ha : s.slot a = .bits n v) (hn : n ≤ w) (hw : w ≤ 4096) (d : Slot) :
    Writes (.bitsZext d a w) s d (.bits w v) := by
  have hrule := bitsZext_answers ha d w
  rwa [if_neg (not_lt.mpr hn), if_neg (not_lt.mpr hw)] at hrule

theorem bitsSext_writes {w : Nat} (ha : s.slot a = .bits n v) (hn : n ≤ w) (hw : w ≤ 4096) (d : Slot) :
    Writes (.bitsSext d a w) s d (.bits w (signExtend w n v)) := by
  have hrule := bitsSext_answers ha d w
  rwa [if_neg (not_lt.mpr hn), if_neg (not_lt.mpr hw)] at hrule

end Rules

/-! ### The rules for every kind of source -/

/-- Settles O35: the field's place in its source is the one check after EMPTY and the kind. -/
theorem extractGivesTheFieldInsideItsSource : Obligations.ExtractGivesTheFieldInsideItsSource := by
  refine ⟨decodesTo_of_map fun _ => rfl, fun d a high low s => ?_⟩
  split
  · next ha => exact raises_of_source_empty rfl ha
  · next ha => exact bitsExtract_answers ha d high low
  · next ha hk => exact asBits_accepts.raises_kind_one rfl ha hk

/-- Settles O36: the two extensions share their checks (`answers_extension`). -/
theorem trimAndExtensionsKeepTheirWidthContracts : Obligations.TrimAndExtensionsKeepTheirWidthContracts := by
  refine ⟨decodesTo_of_map fun _ => rfl, decodesTo_of_map fun _ => rfl, decodesTo_of_map fun _ => rfl,
    fun d a w s => ⟨?_, ?_, ?_⟩⟩
  · split
    · next ha => exact raises_of_source_empty rfl ha
    · next ha => exact bitsTrim_answers ha d w
    · next ha hk => exact asBits_accepts.raises_kind_one rfl ha hk
  · split
    · next ha => exact raises_of_source_empty rfl ha
    · next ha => exact bitsZext_answers ha d w
    · next ha hk => exact asBits_accepts.raises_kind_one rfl ha hk
  · split
    · next ha => exact raises_of_source_empty rfl ha
    · next ha =>
      rw [← signExtend_eq]
      exact bitsSext_answers ha d w
    · next ha hk => exact asBits_accepts.raises_kind_one rfl ha hk

/-- Settles O37: neither command has a check beyond EMPTY and the kind. -/
theorem complementAndSignReadEveryWidth : Obligations.ComplementAndSignReadEveryWidth := by
  refine ⟨decodesTo_of_map fun _ => rfl, decodesTo_of_map fun _ => rfl, fun d a s => ⟨?_, ?_⟩⟩
  · split
    · next ha => exact raises_of_source_empty rfl ha
    · next ha => exact bitsNot_writes ha d
    · next ha hk => exact asBits_accepts.raises_kind_one rfl ha hk
  · split
    · next ha => exact raises_of_source_empty rfl ha
    · next ha =>
      rw [← signBit_eq]
      exact bitsSign_writes ha d
    · next ha hk => exact asBits_accepts.raises_kind_one rfl ha hk

/-- Settles O38: the model's formula inverts the one bit (`flipBit_eq_xor`). -/
theorem flipInvertsOneBitAndGrowsToIt : Obligations.FlipInvertsOneBitAndGrowsToIt := by
  refine ⟨decodesTo_of_map fun _ => rfl, fun d a f s => ?_⟩
  split
  · next ha => exact raises_of_source_empty rfl ha
  · next ha => exact bitsFlip_answers ha d f
  · next ha hk => exact asBits_accepts.raises_kind_one rfl ha hk

/-! ### The laws -/

section Laws

variable {s : State} {a b c x : Slot} {n m u v w : Nat}

/-- Extracting the upper `m` bits of a concatenation gives its first operand. -/
theorem bitsExtract_high_writes (hc : s.slot c = .bits (m + n) (u * 2 ^ n + v)) (hu : u < 2 ^ m) (hv : v < 2 ^ n)
    (hm : 1 ≤ m) (d : Slot) : Writes (.bitsExtract d c (m + n - 1) n) s d (.bits m u) := by
  have hwidth : m + n - 1 - n + 1 = m := by omega
  have hrule := bitsExtract_writes (high := m + n - 1) (low := n) hc (by omega) d
  rwa [hwidth, concat_high hu hv] at hrule

/-- Extracting the lower `n` bits of a concatenation gives its second operand. -/
theorem bitsExtract_low_writes (hc : s.slot c = .bits (m + n) (u * 2 ^ n + v)) (hv : v < 2 ^ n) (hn : 1 ≤ n)
    (d : Slot) : Writes (.bitsExtract d c (n - 1) 0) s d (.bits n v) := by
  have hwidth : n - 1 - 0 + 1 = n := by omega
  have hrule := bitsExtract_writes (high := n - 1) (low := 0) hc (by omega) d
  rwa [hwidth, Nat.pow_zero, Nat.div_one, concat_low u hv] at hrule

/-- A concatenation taken apart into its two halves and put together again is the same. -/
theorem concat_of_halves (ha : s.slot a = .bits m u) (hb : s.slot b = .bits n v) (hu : u < 2 ^ m) (hv : v < 2 ^ n)
    (hw : m + n ≤ 4096) (hm : 1 ≤ m) (hn : 1 ≤ n) {y : Slot} (hxc : x ≠ c) (hyx : y ≠ x) (z : Slot) :
    ∃ s₁ s₂ s₃ s₄, exec (.bitsConcat c a b) s = .next s₁ ∧ exec (.bitsExtract x c (m + n - 1) n) s₁ = .next s₂
      ∧ exec (.bitsExtract y c (n - 1) 0) s₂ = .next s₃ ∧ exec (.bitsConcat z x y) s₃ = .next s₄
      ∧ widthOf (s₁.slot c) = m + n ∧ s₄.slot z = s₁.slot c ∧ s₂.slot x = .bits m u ∧ s₃.slot y = .bits n v
      ∧ s₄.status = s.status := by
  obtain ⟨s₁, hconcat, hc, -, hstatus₁, -⟩ := bitsConcat_writes ha hb hw c
  obtain ⟨s₂, hhigh, hx, hkept₂, hstatus₂, -⟩ := bitsExtract_high_writes hc hu hv hm x
  obtain ⟨s₃, hlow, hy, hkept₃, hstatus₃, -⟩ := bitsExtract_low_writes ((hkept₂ c hxc.symm).trans hc) hv hn y
  obtain ⟨s₄, hagain, hz, -, hstatus₄, -⟩ := bitsConcat_writes ((hkept₃ x hyx.symm).trans hx) hy hw z
  exact ⟨s₁, s₂, s₃, s₄, hconcat, hhigh, hlow, hagain, by rw [hc, widthOf], hz.trans hc.symm, hx, hy,
    hstatus₄.trans (hstatus₃.trans (hstatus₂.trans hstatus₁))⟩

theorem trim_of_zext (ha : s.slot a = .bits n v) (hv : v < 2 ^ n) (hn : n ≤ w) (hw : w ≤ 4096) (x y : Slot) :
    ∃ s₁ s₂, exec (.bitsZext x a w) s = .next s₁ ∧ exec (.bitsTrim y x n) s₁ = .next s₂
      ∧ s₂.slot y = .bits n v ∧ s₂.status = s.status := by
  obtain ⟨s₁, hzext, hx, -, hstatus₁, -⟩ := bitsZext_writes ha hn hw x
  obtain ⟨s₂, htrim, hy, -, hstatus₂, -⟩ := bitsTrim_writes hx hn y
  rw [Nat.mod_eq_of_lt hv] at hy
  exact ⟨s₁, s₂, hzext, htrim, hy, hstatus₂.trans hstatus₁⟩

theorem sign_of_sext (ha : s.slot a = .bits n v) (hv : v < 2 ^ n) (hone : 1 ≤ n) (hn : n ≤ w) (hw : w ≤ 4096)
    {y : Slot} (hxa : x ≠ a) (hyx : y ≠ x) (z : Slot) :
    ∃ s₁ s₂ s₃, exec (.bitsSext x a w) s = .next s₁ ∧ exec (.bitsSign y a) s₁ = .next s₂
      ∧ exec (.bitsSign z x) s₂ = .next s₃ ∧ s₃.slot z = s₂.slot y ∧ s₃.status = s.status := by
  obtain ⟨s₁, hsext, hx, hkept₁, hstatus₁, -⟩ := bitsSext_writes ha hn hw x
  obtain ⟨s₂, hsign, hy, hkept₂, hstatus₂, -⟩ := bitsSign_writes ((hkept₁ a hxa.symm).trans ha) y
  obtain ⟨s₃, hsign', hz, -, hstatus₃, -⟩ := bitsSign_writes ((hkept₂ x hyx.symm).trans hx) z
  rw [signBit_signExtend hv hone hn] at hz
  exact ⟨s₁, s₂, s₃, hsext, hsign, hsign', hz.trans hy.symm, hstatus₃.trans (hstatus₂.trans hstatus₁)⟩

end Laws

/-- Settles O47: one lemma for each law; the two width laws are the rules of the two commands. -/
theorem bitsLawsHold : Obligations.BitsLawsHold := by
  refine ⟨fun m n u v s a b c ha hb hw => ?_, fun n v high low s a c ha hle hlt => ?_,
    fun m n u v s a b c x y z ha hb hu hv hw hm hn hxc hyx => concat_of_halves ha hb hu hv hw hm hn hxc hyx z,
    fun n v w s a x y ha hv hn hw => trim_of_zext ha hv hn hw x y,
    fun n v w s a x y z ha hv hone hn hw hxa hyx => sign_of_sext ha hv hone hn hw hxa hyx z⟩
  · obtain ⟨t, hexec, hc, -, hstatus, -⟩ := bitsConcat_writes ha hb hw c
    exact ⟨t, hexec, by rw [hc, widthOf], hstatus⟩
  · obtain ⟨t, hexec, hc, -, hstatus, -⟩ := bitsExtract_writes ha ⟨hle, hlt⟩ c
    exact ⟨t, hexec, by rw [hc, widthOf], hstatus⟩

end Sys2Proof.Machine

/-! The limb datapaths of the Bits family (R121 to R124): each gives the limb image (R28) of the value that its rule
names. -/

namespace Sys2Proof.Machine

open Sys2Proof.Claim

/-! ### The extract pipeline -/

/-- The right-shift pipeline, cut to any width, gives the low bits of the shifted number (R103). -/
theorem shiftRightLimbs_eq {l : List Word} {p : Nat} (h : HoldsFrom l 0 p) (w k : Nat) :
    shiftRightLimbs w k l = limbs w (p / 2 ^ k % 2 ^ w) := by
  refine cutLimbs_eq fun i hi => ?_
  rw [limbAt_buildLimbs, if_pos hi, shiftRightLimb_eq h, Nat.mod_mod]

/-- Skipping whole limbs leaves the bits from `low` up where the rest of the shift finds them (R121). -/
theorem skipLimbs_holds {l : List Word} {p : Nat} (h : HoldsFrom l 0 p) (low : Nat) :
    ∃ q, HoldsFrom (skipLimbs l low).1 0 q ∧ q / 2 ^ (skipLimbs l low).2 = p / 2 ^ low := by
  induction l generalizing p low with
  | nil => exact ⟨p, h, rfl⟩
  | cons x rest ih =>
    rw [skipLimbs]
    split
    · next hskip =>
      have hrest : HoldsFrom rest 0 (p / 2 ^ 64) := fun j => by
        rw [← h.tail j, Nat.zero_add, Nat.zero_add, Nat.add_comm 1 j]
        rfl
      obtain ⟨q, hq, hshift⟩ := ih hrest (low - 64)
      exact ⟨q, hq, by rw [hshift, ← div_two_pow_add, Nat.add_sub_cancel' hskip]⟩
    · exact ⟨p, h, rfl⟩

/-- Settles O56: what the skipping leaves is shifted by the rest of `low` and cut to the width of the field. -/
theorem extractPipelineGivesTheField : Obligations.ExtractPipelineGivesTheField := by
  intro n v high low hv _ _
  obtain ⟨q, hq, hshift⟩ := skipLimbs_holds (limbs_holds hv) low
  rw [extractLimbs, shiftRightLimbs_eq hq, hshift]

/-! ### The limb-by-limb OR, and the concat pipeline -/

/-- An OR limb by limb gives the image of the OR of two numbers (R122, R123). -/
theorem orLimbs_eq {w p q : Nat} {f g : Nat → Word} (hf : ∀ i, (f i).toNat = p / 2 ^ (64 * i) % 2 ^ 64)
    (hg : ∀ i, (g i).toNat = q / 2 ^ (64 * i) % 2 ^ 64) :
    ((List.range (limbCount w)).map fun i => f i ||| g i) = limbs w (p ||| q) := by
  refine List.map_congr_left fun i _ => BitVec.eq_of_toNat_eq ?_
  rw [BitVec.toNat_or, hf, hg, BitVec.toNat_ofNat, Nat.or_div_two_pow, Nat.or_mod_two_pow]

theorem HoldsFrom.toNat_getD {l : List Word} {p : Nat} (h : HoldsFrom l 0 p) (i : Nat) :
    (l.getD i 0).toNat = p / 2 ^ (64 * i) % 2 ^ 64 := by
  simpa [limbAt] using h i

/-- Settles O57: the shifted operand and the other do not meet, so their OR is the sum of the rule. -/
theorem concatPipelineGivesTheConcatenation : Obligations.ConcatPipelineGivesTheConcatenation := by
  intro m n u v hu hv
  have hshifted : shiftLeftLimbs (m + n) n (limbs m u) = limbs (m + n) (u * 2 ^ n) :=
    (shiftPipelinesGiveTheShiftedValues m n u hu).1
  have hlt : u * 2 ^ n < 2 ^ (m + n) := concatVal_lt hu (Nat.two_pow_pos n)
  have hor : u * 2 ^ n + v = u * 2 ^ n ||| v := by rw [Nat.mul_comm, Nat.two_pow_add_eq_or_of_lt hv]
  rw [concatLimbs, hshifted, hor]
  exact orLimbs_eq (limbs_holds hlt).toNat_getD (limbs_holds hv).toNat_getD

/-! ### Padding, the extensions and the trim -/

theorem limbCount_mono {n t : Nat} (h : n ≤ t) : limbCount n ≤ limbCount t := by
  unfold limbCount
  omega

/-- Zero limbs above the image of a legal payload are limbs of the same payload (R123, R124). -/
theorem limbs_append_zeros {n v : Nat} (hv : v < 2 ^ n) (k : Nat) :
    limbs n v ++ List.replicate k 0 = lowLimbs (limbCount n + k) v := by
  induction k with
  | zero => exact List.append_nil _
  | succ k ih =>
    have hsmall : v < 2 ^ (64 * (limbCount n + k)) :=
      (lt_two_pow_limbCount hv).trans_le (Nat.pow_le_pow_right two_pos (by omega))
    rw [List.replicate_succ', ← List.append_assoc, ih, ← Nat.add_assoc, lowLimbs_succ_top, Nat.div_eq_of_lt hsmall]
    rfl

/-- Zero extension gives the same payload at the new width (R123). -/
theorem zeroExtendLimbs_limbs {n t v : Nat} (hv : v < 2 ^ n) (h : n ≤ t) :
    zeroExtendLimbs n t (limbs n v) = limbs t v := by
  rw [zeroExtendLimbs, limbs_append_zeros hv, Nat.add_sub_cancel' (limbCount_mono h), limbs_eq_lowLimbs]

/-- Bit `i` stands in limb `i div 64` at `i mod 64` (R28). -/
theorem HoldsFrom.getLsbD_limb {l : List Word} {p : Nat} (h : HoldsFrom l 0 p) (i : Nat) :
    (l.getD (i / 64) 0).getLsbD (i % 64) = p.testBit i := by
  have hplace : i % 64 + 64 * (i / 64) = i := Nat.mod_add_div i 64
  rw [← BitVec.testBit_toNat, h.toNat_getD, Nat.testBit_mod_two_pow, Nat.testBit_div_two_pow, hplace]
  simp [Nat.mod_lt]

/-- The filled bits of limb `i` are limb `i` of the number that a set sign adds (R13, R123). -/
theorem fillLimb_toNat {n t : Nat} (h : n ≤ t) (i : Nat) :
    (fillLimb n t i).toNat = (2 ^ t - 2 ^ n) / 2 ^ (64 * i) % 2 ^ 64 := by
  have hle : min 64 (n - 64 * i) ≤ min 64 (t - 64 * i) := by omega
  rw [fillLimb, BitVec.toNat_ofNat]
  apply Nat.eq_of_testBit_eq
  intro j
  rw [Nat.testBit_mod_two_pow, Nat.testBit_mod_two_pow, Nat.testBit_div_two_pow, testBit_signFill hle,
    testBit_signFill h, Bool.eq_iff_iff]
  simp only [Bool.and_eq_true, decide_eq_true_eq]
  omega

/-- Sign extension copies the sign bit upwards: the padded payload OR the filled bits (R123). -/
theorem signExtendLimbs_limbs {n t v : Nat} (hv : v < 2 ^ n) (h : n ≤ t) :
    signExtendLimbs n t (limbs n v)
      = limbs t (if 1 ≤ n ∧ v.testBit (n - 1) = true then v + (2 ^ t - 2 ^ n) else v) := by
  have hwide : v < 2 ^ t := hv.trans_le (Nat.pow_le_pow_right two_pos h)
  rw [signExtendLimbs, (limbs_holds hv).getLsbD_limb, zeroExtendLimbs_limbs hv h]
  split
  · rw [add_signFill_eq_or hv h]
    exact orLimbs_eq (limbs_holds hwide).toNat_getD (fillLimb_toNat h)
  · rfl

/-- Settles O58: padding, padding with the fill, and the cut. -/
theorem extensionAndTrimDatapathsAreExact : Obligations.ExtensionAndTrimDatapathsAreExact := by
  intro n t v hv
  refine ⟨zeroExtendLimbs_limbs hv, signExtendLimbs_limbs hv, fun _ => cutLimbs_eq fun i _ => ?_⟩
  exact (limbs_holds hv).toNat_getD i

/-! ### The flip -/

/-- A limb of an exclusive-or is the exclusive-or of the limbs. -/
theorem ofNat_xor_div_limb (p q i : Nat) :
    BitVec.ofNat 64 ((p ^^^ q) / 2 ^ (64 * i))
      = BitVec.ofNat 64 (p / 2 ^ (64 * i)) ^^^ BitVec.ofNat 64 (q / 2 ^ (64 * i)) := by
  rw [Nat.xor_div_two_pow, BitVec.ofNat_xor]

/-- Limb `i` of `2^f` has its one bit where bit `f` stands in limb `i`, and none elsewhere. -/
theorem ofNat_two_pow_div_limb (f i : Nat) :
    BitVec.ofNat 64 (2 ^ f / 2 ^ (64 * i)) = if f / 64 = i then BitVec.ofNat 64 (2 ^ (f % 64)) else 0 := by
  apply BitVec.eq_of_getLsbD_eq
  intro j hj
  rw [BitVec.getLsbD_ofNat, Nat.testBit_div_two_pow, Nat.testBit_two_pow]
  split
  · rw [BitVec.getLsbD_ofNat, Nat.testBit_two_pow, Bool.eq_iff_iff]
    simp only [Bool.and_eq_true, decide_eq_true_eq]
    omega
  · have hother : f ≠ j + 64 * i := by omega
    simp [hother]

/-- Inverting a bit of one limb inverts that bit of the number (R124). -/
theorem set_lowLimbs_xor {c f : Nat} (hf : f / 64 < c) (p : Nat) :
    (lowLimbs c p).set (f / 64) ((lowLimbs c p).getD (f / 64) 0 ^^^ BitVec.ofNat 64 (2 ^ (f % 64)))
      = lowLimbs c (p ^^^ 2 ^ f) := by
  refine List.ext_getElem (by simp [lowLimbs]) fun i _ _ => ?_
  rw [List.getElem_set]
  split
  · next hlimb =>
    subst hlimb
    simp [lowLimbs, hf, ofNat_xor_div_limb, ofNat_two_pow_div_limb]
  · next hother => simp [lowLimbs, ofNat_xor_div_limb, ofNat_two_pow_div_limb, hother]

/-- Settles O59: the padded image has the limbs of the new width, and the bit inverted there is bit `f`. -/
theorem flipDatapathInvertsTheBit : Obligations.FlipDatapathInvertsTheBit := by
  intro n f v hv
  have hcount : limbCount n + (f / 64 + 1 - limbCount n) = limbCount (max n (f + 1)) := by
    unfold limbCount
    omega
  have hinside : f / 64 < limbCount (max n (f + 1)) := by
    unfold limbCount
    omega
  rw [flipLimbs, limbs_append_zeros hv, hcount, limbs_eq_lowLimbs]
  exact set_lowLimbs_xor hinside v

end Sys2Proof.Machine

/-! The rules of NEG.NEGATE and NEG.ABS (R126, R127) for every kind of source, and the laws of the Neg family (R130),
each from the rules of the commands it names. -/

namespace Sys2Proof.Machine

open Sys2Proof.Claim

/-! ### What each command answers -/

section Rules

variable {s : State} {a b : Slot} {w m : Nat}

/-- NEG.ABS writes the NAT of the magnitude, whichever sign the source has (R127). -/
theorem negAbs_writes (ha : s.slot a = .nat w m ∨ s.slot a = .neg w m) (d : Slot) :
    Writes (.negAbs d a) s d (.nat w m) := by
  have hanswer : s.slot a ≠ .empty → Answers (.negAbs d a) s d (negAbs (s.slot a)) := answers_onOne rfl
  rcases ha with ha | ha
  · rw [ha] at hanswer
    exact hanswer nofun
  · rw [ha] at hanswer
    exact hanswer nofun

/-- A one-source operation that refuses the kind of its source raises E_KIND, once the source is read (R154). -/
theorem raises_kind_of_onOne {i : Instr} {d : Slot} {op : Value → Except Raised Value}
    (h : exec i s = .next (finish d (onOne s a op) s)) (ha : s.slot a ≠ .empty)
    (hkind : op (s.slot a) = .error (.error .kind)) : Raises i s .kind :=
  raises_of_finish h (by rw [onOne_eq, if_neg ha, hkind])

/-- NEG.NEGATE and NEG.ABS refuse every kind but NAT and NEG (R126, R127). -/
theorem negNegate_negAbs_kind {x : Value} (hnat : ∀ w v, x ≠ .nat w v) (hneg : ∀ w m, x ≠ .neg w m) :
    negNegate x = .error (.error .kind) ∧ negAbs x = .error (.error .kind) := by
  cases x with
  | nat w v => exact absurd rfl (hnat w v)
  | neg w m => exact absurd rfl (hneg w m)
  | _ => exact ⟨rfl, rfl⟩

theorem ne_empty_of_signedVal {x : Value} {z : Int} (h : signedVal x = some z) : x ≠ .empty := by
  rintro rfl
  cases h

/-- NEG.CMP of two signed integer operands writes the outcome of comparing their integers (R128). -/
theorem negCmp_writes {p q : Int} (ha : signedVal (s.slot a) = some p) (hb : signedVal (s.slot b) = some q)
    (d : Slot) : Writes (.negCmp d a b) s d (outcome p q) := by
  have hanswer : Answers (.negCmp d a b) s d (negCmp (s.slot a) (s.slot b)) :=
    answers_onTwo rfl (not_or.mpr ⟨ne_empty_of_signedVal ha, ne_empty_of_signedVal hb⟩)
  rwa [negCmp_ok ha hb] at hanswer

end Rules

/-! ### The rules for every kind of source -/

/-- Settles O39: neither command has a check beyond EMPTY and the kind, and both keep width and magnitude. -/
theorem negateAndAbsKeepTheMagnitude : Obligations.NegateAndAbsKeepTheMagnitude := by
  refine ⟨decodesTo_of_map fun _ => rfl, decodesTo_of_map fun _ => rfl, fun d a s => ?_⟩
  split
  · next ha => exact ⟨raises_of_source_empty rfl ha, raises_of_source_empty rfl ha⟩
  · next ha => exact ⟨negNegate_writes_of_nat ha d, negAbs_writes (.inl ha) d⟩
  · next ha => exact ⟨negNegate_writes_of_neg ha d, negAbs_writes (.inr ha) d⟩
  · next ha hnat hneg =>
    obtain ⟨hnegate, habs⟩ := negNegate_negAbs_kind hnat hneg
    exact ⟨raises_kind_of_onOne rfl ha hnegate, raises_kind_of_onOne rfl ha habs⟩

/-! ### The laws -/

/-- The negation of a magnitude is below every natural number, but for zero against zero (R130). -/
theorem outcome_neg_nat (m v : Nat) :
    outcome (-(m : Int)) v = .bits 2 (if m = 0 ∧ v = 0 then 0b00 else 0b11) := by
  by_cases hzero : m = 0 ∧ v = 0
  · obtain ⟨rfl, rfl⟩ := hzero
    rfl
  · have hlt : -(m : Int) < v := by omega
    rw [outcome, if_pos hlt, if_neg hzero]

/-- Settles O46: the laws of a Nat and its negation are those of R98; the compare is R128's on the two integers. -/
theorem negLawsHold : Obligations.NegLawsHold := by
  refine ⟨fun n v s a d e ha hd => ⟨negate_negate ha d e, ?_⟩, fun w m n v s a b d ha hb => ?_⟩
  · obtain ⟨t, u, hneg, hadd, hwrote⟩ := add_negate ha hd e
    exact ⟨t, u, .nat n 0, hneg, hadd, hwrote, rfl⟩
  · rw [← outcome_neg_nat]
    exact negCmp_writes (by rw [ha]; rfl) (by rw [hb]; rfl) d

end Sys2Proof.Machine

/-! The rules of the RangedInt family (R133 to R137) for every kind of source: construction, addition and the three
reads. -/

namespace Sys2Proof.Machine

open Sys2Proof.Claim

/-! ### Three sources, and sources that are RANGED -/

section Answers

variable {i : Instr} {s : State} {d a b c : Slot}

theorem raises_of_any_empty {op : Value → Value → Value → Except Raised Value}
    (h : exec i s = .next (finish d (onThree s a b c op) s))
    (he : s.slot a = .empty ∨ s.slot b = .empty ∨ s.slot c = .empty) : Raises i s .emptySlot :=
  raises_of_finish h (by rw [onThree_eq, if_pos he])

theorem answers_onThree {op : Value → Value → Value → Except Raised Value}
    (h : exec i s = .next (finish d (onThree s a b c op) s))
    (he : ¬(s.slot a = .empty ∨ s.slot b = .empty ∨ s.slot c = .empty)) :
    Answers i s d (op (s.slot a) (s.slot b) (s.slot c)) := by
  rw [onThree_eq, if_neg he] at h
  exact answers_of_finish h

theorem asRanged_kind {x : Value} (hx : ∀ lo hi p, x ≠ .ranged lo hi p) :
    asRanged x = .error (.error .kind) := by
  cases x with
  | ranged lo hi p => exact absurd rfl (hx lo hi p)
  | _ => rfl

theorem answers_ranged {f : RangedParts → Except Raised Value} {lo hi : Int} {p : Nat}
    (h : exec i s = .next (finish d (onOne s a fun x => asRanged x >>= f) s)) (ha : s.slot a = .ranged lo hi p) :
    Answers i s d (f ⟨lo, hi, p⟩) := by
  have hanswer := answers_onOne h (by rw [ha]; nofun)
  rwa [ha] at hanswer

theorem raises_kind_of_not_ranged {f : RangedParts → Except Raised Value}
    (h : exec i s = .next (finish d (onOne s a fun x => asRanged x >>= f) s)) (ha : s.slot a ≠ .empty)
    (hk : ∀ lo hi p, s.slot a ≠ .ranged lo hi p) : Raises i s .kind :=
  raises_kind_of_onOne h ha (by rw [asRanged_kind hk, error_bind])

end Answers

/-! ### The limit on a width, as a limit on the number (R12) -/

theorem natUnit_wmax : Config.natUnit.wmax = wmax := by
  rw [wmax]
  rfl

theorem magWidth_le_wmax_iff (z : Int) : magWidth z ≤ Config.natUnit.wmax ↔ z.natAbs < 2 ^ wmax := by
  rw [natUnit_wmax, magWidth_le_iff]

theorem rangedWidth_le_wmax_iff (lo hi : Int) :
    rangedWidth lo hi ≤ Config.natUnit.wmax ↔ hi - lo + 1 < 2 ^ wmax := by
  rw [natUnit_wmax, rangedWidth, bitSize_le_iff, Int.toNat_lt' (Nat.two_pow_pos _), Nat.cast_pow]
  rfl

/-! ### Construction -/

/-- What a construction from three signed integers is on this hardware, its checks in the order of the rule (R133). -/
theorem riNew_natUnit {x mn mx : Value} {v lo hi : Int} (hx : signedVal x = some v) (hmn : signedVal mn = some lo)
    (hmx : signedVal mx = some hi) :
    riNew Config.natUnit x mn mx =
      if hi < lo then .error (.error .bounds)
      else if 2 ^ wmax ≤ hi - lo + 1 then .error (.error .widthLimit)
      else if v < lo ∨ hi < v then .error (.error .range)
      else .ok (.ranged lo hi (v - lo).toNat) := by
  simp only [riNew, asSigned_of_some hx, asSigned_of_some hmn, asSigned_of_some hmx, ok_bind, require_bind,
    rangedWidth_le_wmax_iff]
  simp only [← not_lt, ← not_or, ite_not]
  rfl

theorem riNew_kind {cfg : Config} {x mn mx : Value}
    (h : ∀ v lo hi, signedVal x = some v → signedVal mn = some lo → signedVal mx = some hi → False) :
    riNew cfg x mn mx = .error (.error .kind) := by
  unfold riNew
  cases hx : signedVal x with
  | none => rw [asSigned_of_none hx, error_bind]
  | some v =>
    rw [asSigned_of_some hx, ok_bind]
    cases hmn : signedVal mn with
    | none => rw [asSigned_of_none hmn, error_bind]
    | some lo =>
      have hmx : signedVal mx = none := Option.eq_none_iff_forall_ne_some.mpr fun hi => h v lo hi hx hmn
      rw [asSigned_of_some hmn, ok_bind, asSigned_of_none hmx, error_bind]

/-- Settles O40: once no source is EMPTY, the command ends as `riNew` does. -/
theorem rangedConstructionChecksAndBiases : Obligations.RangedConstructionChecksAndBiases := by
  refine ⟨decodesTo_of_map fun _ => rfl, fun d a b c s => ?_⟩
  split
  · next he => exact raises_of_any_empty rfl he
  · next he =>
    have hanswer : Answers (.riNew d a b c) s d (riNew Config.natUnit (s.slot a) (s.slot b) (s.slot c)) :=
      answers_onThree rfl he
    split
    · next hv hlo hhi =>
      simp only [riNew_natUnit hv hlo hhi, apply_ite (Answers (.riNew d a b c) s d)] at hanswer
      exact hanswer
    · next h => rwa [riNew_kind h] at hanswer

/-! ### Addition -/

/-- What the sum of two RANGED values is on this hardware (R134). -/
theorem riAdd_natUnit (lo hi lo' hi' : Int) (x y : Nat) :
    riAdd Config.natUnit (.ranged lo hi x) (.ranged lo' hi' y) =
      if (lo + lo').natAbs < 2 ^ wmax ∧ (hi + hi').natAbs < 2 ^ wmax ∧ hi + hi' - (lo + lo') + 1 < 2 ^ wmax then
        .ok (.ranged (lo + lo') (hi + hi') (x + y))
      else .error (.error .widthLimit) := by
  simp only [riAdd, asRanged, ok_bind, require_bind, magWidth_le_wmax_iff, rangedWidth_le_wmax_iff]
  rfl

theorem riAdd_kind {cfg : Config} {x y : Value}
    (h : ∀ lo hi p lo' hi' q, x = .ranged lo hi p → y = .ranged lo' hi' q → False) :
    riAdd cfg x y = .error (.error .kind) := by
  unfold riAdd
  cases x with
  | ranged lo hi p => rw [asRanged, ok_bind, asRanged_kind fun lo' hi' q => h lo hi p lo' hi' q rfl, error_bind]
  | _ => rfl

/-- The sums of the bounds and of the storages stand for the sum of the two values (R134). -/
theorem valOf_ranged_add (lo hi lo' hi' : Int) (x y : Nat) :
    valOf (.ranged (lo + lo') (hi + hi') (x + y)) = some ((lo + x) + (lo' + y)) := by
  rw [valOf, Nat.cast_add, add_add_add_comm]

/-- Settles O41: once neither source is EMPTY, the command ends as `riAdd` does. -/
theorem rangedAdditionSumsBoundsAndStorages : Obligations.RangedAdditionSumsBoundsAndStorages := by
  refine ⟨decodesTo_of_map fun _ => rfl, fun d a b s => ?_⟩
  have hanswer : ¬(s.slot a = .empty ∨ s.slot b = .empty) →
      Answers (.riAdd d a b) s d (riAdd Config.natUnit (s.slot a) (s.slot b)) := answers_onTwo rfl
  split
  · next ha => exact raises_of_either_empty rfl (.inl ha)
  · next hb _ => exact raises_of_either_empty rfl (.inr hb)
  · next ha hb =>
    rw [ha, hb, riAdd_natUnit] at hanswer
    have hsum := answers_ite (hanswer (not_or.mpr ⟨nofun, nofun⟩))
    split
    · next hfits =>
      rw [if_pos hfits] at hsum
      exact ⟨hsum, valOf_ranged_add ..⟩
    · next hwide => rwa [if_neg hwide] at hsum
  · next ha hb hk =>
    rw [riAdd_kind hk] at hanswer
    exact hanswer (not_or.mpr ⟨ha, hb⟩)

/-! ### The reads -/

/-- RI.VALUE gives the value by its sign and its magnitude (R135). -/
theorem riValue_ranged (lo hi : Int) (x : Nat) :
    riValue (.ranged lo hi x) = .ok
      (if 0 ≤ lo + x then .nat (max (magWidth lo) (magWidth hi)) (lo + x).natAbs
        else .neg (max (magWidth lo) (magWidth hi)) (lo + x).natAbs) := by
  refine congrArg Except.ok (ite_congr rfl (fun hnonneg => ?_) fun hneg => ?_)
  · exact congrArg (Value.nat _) (by dsimp only; omega)
  · exact congrArg (Value.neg _) (by dsimp only; omega)

section Reads

variable {s : State} {a : Slot} {lo hi : Int} {x : Nat}

theorem riValue_writes (ha : s.slot a = .ranged lo hi x) (d : Slot) :
    Writes (.riValue d a) s d
      (if 0 ≤ lo + x then .nat (max (magWidth lo) (magWidth hi)) (lo + x).natAbs
        else .neg (max (magWidth lo) (magWidth hi)) (lo + x).natAbs) := by
  have hanswer := answers_onOne (i := .riValue d a) rfl (by rw [ha]; nofun)
  rwa [ha, riValue_ranged] at hanswer

theorem riBias_writes (ha : s.slot a = .ranged lo hi x) (d : Slot) :
    Writes (.riBias d a) s d (.nat (rangedWidth lo hi) x) :=
  answers_ranged (f := fun p => .ok (.nat (rangedWidth p.lo p.hi) p.s)) rfl ha

theorem riWidth_writes (ha : s.slot a = .ranged lo hi x) (d : Slot) :
    Writes (.riWidth d a) s d (.nat 16 (rangedWidth lo hi)) :=
  answers_ranged (f := fun p => .ok (.nat cntw (rangedWidth p.lo p.hi))) rfl ha

end Reads

/-- Settles O42: the widths that the three reads give are bit sizes by R12's words (`isBitSize_bitSize`). -/
theorem rangedReadsGiveValueBiasAndWidth : Obligations.RangedReadsGiveValueBiasAndWidth := by
  refine ⟨decodesTo_of_map fun _ => rfl, decodesTo_of_map fun _ => rfl, decodesTo_of_map fun _ => rfl,
    fun d a s => ?_⟩
  split
  · next ha =>
    exact ⟨raises_of_source_empty rfl ha, raises_of_source_empty rfl ha, raises_of_source_empty rfl ha⟩
  · next lo hi x ha =>
    exact ⟨magWidth lo, magWidth hi, rangedWidth lo hi, isBitSize_bitSize _, isBitSize_bitSize _, isBitSize_bitSize _,
      riValue_writes ha d, riBias_writes ha d, riWidth_writes ha d⟩
  · next ha hk =>
    exact ⟨raises_kind_of_not_ranged rfl ha hk, raises_kind_of_not_ranged rfl ha hk,
      raises_kind_of_not_ranged rfl ha hk⟩

end Sys2Proof.Machine

/-! The storage datapath of RI.ADD (R139): the adder's result, cut to the width of the new interval, is the limb image
(R28) of the summed storage. -/

namespace Sys2Proof.Machine

open Sys2Proof.Claim

section Intervals

variable {lo hi lo' hi' : Int}

/-- An interval at least as large has a storage width at least as large (R29). -/
theorem rangedWidth_mono (h : hi - lo ≤ hi' - lo') : rangedWidth lo hi ≤ rangedWidth lo' hi' :=
  bitSize_mono _ _ (by omega)

/-- The summed interval is at least as large as either operand's (R139). -/
theorem max_rangedWidth_le_add (h : lo ≤ hi) (h' : lo' ≤ hi') :
    max (rangedWidth lo hi) (rangedWidth lo' hi') ≤ rangedWidth (lo + lo') (hi + hi') :=
  max_le (rangedWidth_mono (by omega)) (rangedWidth_mono (by omega))

/-- The size of the summed interval is below the sum of the two sizes, which needs at most one bit more than the
wider (R139). -/
theorem rangedWidth_add_le (h : lo ≤ hi) (h' : lo' ≤ hi') :
    rangedWidth (lo + lo') (hi + hi') ≤ max (rangedWidth lo hi) (rangedWidth lo' hi') + 1 := by
  have hsizes : (hi - lo + 1).toNat + (hi' - lo' + 1).toNat
      < 2 ^ (max (rangedWidth lo hi) (rangedWidth lo' hi') + 1) :=
    add_lt_two_pow (lt_two_pow_bitSize _) (lt_two_pow_bitSize _)
  refine (bitSize_le_iff _ _).mpr (lt_of_le_of_lt ?_ hsizes)
  omega

end Intervals

/-- The adder's limbs, cut to a width that the sum fits, are its image at that width (R100, R139). -/
theorem rangedAddLimbs_limbs {m n w u v : Nat} (hu : u < 2 ^ m) (hv : v < 2 ^ n) (hsum : u + v < 2 ^ w) :
    rangedAddLimbs m n w (limbs m u) (limbs n v) = limbs w (u + v) := by
  have hholds := limbs_holds (add_lt_two_pow hu hv)
  rw [rangedAddLimbs, adderGivesTheSum m n u v hu hv, cutLimbs_eq fun i _ => ?_, Nat.mod_eq_of_lt hsum]
  simpa using hholds i

/-- Settles O60: the summed storage is within the summed interval, so it fits the width it is cut to. -/
theorem rangedAdditionDatapathIsExact : Obligations.RangedAdditionDatapathIsExact := by
  intro lo hi lo' hi' x y h h' hx hy
  have hsum : x + y < 2 ^ rangedWidth (lo + lo') (hi + hi') := storage_lt _ _ _ (by omega)
  refine ⟨rangedAddLimbs_limbs (storage_lt _ _ _ hx) (storage_lt _ _ _ hy) hsum, ?_⟩
  have hlower := max_rangedWidth_le_add h h'
  have hupper := rangedWidth_add_le h h'
  omega

end Sys2Proof.Machine

/-! The rules of the MaskedBits family (R141 to R144) for every kind of source: construction, extraction, the test for
a full mask and the two paths of equality. -/

namespace Sys2Proof.Machine

open Sys2Proof.Claim

/-! ### Sources of the wrong kind -/

theorem asBits_kind {x : Value} (hx : ¬IsBits x) : asBits x = .error (.error .kind) :=
  asBits_accepts.kind x fun w v e => hx ⟨w, v, e⟩

theorem asMasked_kind {x : Value} (hx : ¬IsMasked x) : asMasked x = .error (.error .kind) := by
  cases x with
  | masked w mask val rt => exact absurd ⟨w, mask, val, rt, rfl⟩ hx
  | _ => rfl

theorem asNatural_kind {x : Value} (hx : ¬(IsNat x ∨ IsBits x)) : asNatural x = .error (.error .kind) := by
  cases x with
  | nat w v => exact absurd (.inl ⟨w, v, rfl⟩) hx
  | bits w v => exact absurd (.inr ⟨w, v, rfl⟩) hx
  | _ => rfl

theorem ne_empty_of_asNatural {x : Value} {c : Nat} (h : asNatural x = .ok c) : x ≠ .empty := by
  rintro rfl
  cases h

theorem mbNew_kind {x y z : Value} (h : ¬(IsBits x ∧ IsBits y ∧ IsBits z)) :
    mbNew x y z = .error (.error .kind) := by
  unfold mbNew
  by_cases hx : IsBits x
  · obtain ⟨n, u, rfl⟩ := hx
    rw [asBits, ok_bind]
    by_cases hy : IsBits y
    · obtain ⟨m, v, rfl⟩ := hy
      rw [asBits, ok_bind, asBits_kind fun hz => h ⟨⟨n, u, rfl⟩, ⟨m, v, rfl⟩, hz⟩, error_bind]
    · rw [asBits_kind hy, error_bind]
  · rw [asBits_kind hx, error_bind]

theorem mbEq_kind {x y : Value} (h : ¬(IsMasked x ∧ (IsNat y ∨ IsBits y))) :
    mbEq x y = .error (.error .kind) := by
  unfold mbEq
  by_cases hx : IsMasked x
  · obtain ⟨w, mask, val, rt, rfl⟩ := hx
    rw [asMasked, ok_bind, asNatural_kind fun hy => h ⟨⟨w, mask, val, rt, rfl⟩, hy⟩, error_bind]
  · rw [asMasked_kind hx, error_bind]

/-! ### What the operations give -/

/-- The one check after the kinds is that the three widths agree (R141). -/
theorem mbNew_bits (n x m y k z : Nat) :
    mbNew (.bits n x) (.bits m y) (.bits k z) =
      if m = n ∧ k = n then .ok (.masked n y z x) else .error (.error .widthContract) := by
  simp only [mbNew, asBits, ok_bind, require_bind]
  rfl

/-- The one check after the kind is the field's place in its source (R142). -/
theorem mbExtract_masked (high low w mask val rt : Nat) :
    mbExtract high low (.masked w mask val rt) =
      if low ≤ high ∧ high < w then
        .ok (.masked (high - low + 1) (slice high low mask) (slice high low val) (slice high low rt))
      else .error (.error .widthContract) := by
  simp only [mbExtract, asMasked, ok_bind, require_bind]
  rfl

theorem mbFixed_masked (w mask val rt : Nat) :
    mbFixed (.masked w mask val rt) = .ok (.bits 1 (if mask = 2 ^ w - 1 then 1 else 0)) := by
  simp only [mbFixed, asMasked, ok_bind, isFixed, Bool.toNat, Bool.cond_decide]
  rfl

/-- The known value answers for a full mask, the runtime bits for any other (R144). -/
theorem mbEq_natural {w mask val rt c : Nat} {y : Value} (hy : asNatural y = .ok c) :
    mbEq (.masked w mask val rt) y =
      .ok (.bits 1 (if (if mask = 2 ^ w - 1 then val = c else rt = c) then 1 else 0)) := by
  simp only [mbEq, asMasked, hy, ok_bind, isFixed, decide_eq_true_eq, apply_ite (· = c), Bool.toNat,
    Bool.cond_decide]
  rfl

/-! ### The commands at their sources -/

section Rules

variable {i : Instr} {s : State} {d a b c : Slot} {w mask val rt : Nat}

theorem raises_kind_of_not_masked {f : MaskedParts → Except Raised Value}
    (h : exec i s = .next (finish d (onOne s a fun x => asMasked x >>= f) s)) (ha : s.slot a ≠ .empty)
    (hk : ¬IsMasked (s.slot a)) : Raises i s .kind :=
  raises_kind_of_onOne h ha (by rw [asMasked_kind hk, error_bind])

theorem mbNew_answers {n x m y k z : Nat} (ha : s.slot a = .bits n x) (hb : s.slot b = .bits m y)
    (hc : s.slot c = .bits k z) (d : Slot) :
    if m = n ∧ k = n then Writes (.mbNew d a b c) s d (.masked n y z x)
    else Raises (.mbNew d a b c) s .widthContract := by
  have hanswer : Answers (.mbNew d a b c) s d (mbNew (s.slot a) (s.slot b) (s.slot c)) :=
    answers_onThree rfl (by rw [ha, hb, hc]; nofun)
  rw [ha, hb, hc, mbNew_bits] at hanswer
  exact answers_ite hanswer

theorem mbExtract_answers (ha : s.slot a = .masked w mask val rt) (d : Slot) (high low : Nat) :
    if low ≤ high ∧ high < w then
      Writes (.mbExtract d a high low) s d
        (.masked (high - low + 1) (slice high low mask) (slice high low val) (slice high low rt))
    else Raises (.mbExtract d a high low) s .widthContract := by
  have hanswer : Answers (.mbExtract d a high low) s d (mbExtract high low (s.slot a)) :=
    answers_onOne rfl (by rw [ha]; nofun)
  rw [ha, mbExtract_masked] at hanswer
  exact answers_ite hanswer

theorem mbFixed_writes (ha : s.slot a = .masked w mask val rt) (d : Slot) :
    Writes (.mbFixed d a) s d (.bits 1 (if mask = 2 ^ w - 1 then 1 else 0)) := by
  have hanswer : Answers (.mbFixed d a) s d (mbFixed (s.slot a)) := answers_onOne rfl (by rw [ha]; nofun)
  rwa [ha, mbFixed_masked] at hanswer

theorem mbEq_writes {v : Nat} (ha : s.slot a = .masked w mask val rt) (hb : asNatural (s.slot b) = .ok v) (d : Slot) :
    Writes (.mbEq d a b) s d (.bits 1 (if (if mask = 2 ^ w - 1 then val = v else rt = v) then 1 else 0)) := by
  have hanswer : Answers (.mbEq d a b) s d (mbEq (s.slot a) (s.slot b)) :=
    answers_onTwo rfl (not_or.mpr ⟨by rw [ha]; nofun, ne_empty_of_asNatural hb⟩)
  rwa [ha, mbEq_natural hb] at hanswer

end Rules

/-! ### The rules for every kind of source -/

/-- Settles O43: once no source is EMPTY, MB.NEW ends as `mbNew` does, and MB.EXTRACT has one check after the kind. -/
theorem maskedConstructionAndExtractKeepThePartsTogether :
    Obligations.MaskedConstructionAndExtractKeepThePartsTogether := by
  refine ⟨decodesTo_of_map fun _ => rfl, decodesTo_of_map fun _ => rfl, fun d a b c s => ?_, fun d a high low s => ?_⟩
  · split
    · next ha => exact raises_of_any_empty rfl (.inl ha)
    · next hb _ => exact raises_of_any_empty rfl (.inr (.inl hb))
    · next hc _ _ => exact raises_of_any_empty rfl (.inr (.inr hc))
    · next ha hb hc => exact mbNew_answers ha hb hc d
    · next ha hb hc hk =>
      have hanswer : Answers (.mbNew d a b c) s d (mbNew (s.slot a) (s.slot b) (s.slot c)) :=
        answers_onThree rfl (not_or.mpr ⟨ha, not_or.mpr ⟨hb, hc⟩⟩)
      rwa [mbNew_kind fun ⟨⟨_, _, hx⟩, ⟨_, _, hy⟩, ⟨_, _, hz⟩⟩ => hk _ _ _ _ _ _ hx hy hz] at hanswer
  · split
    · next ha => exact raises_of_source_empty rfl ha
    · next ha => exact mbExtract_answers ha d high low
    · next ha hk => exact raises_kind_of_not_masked rfl ha fun ⟨_, _, _, _, hx⟩ => hk _ _ _ _ hx

/-- Settles O44: a NAT and a BITS comparand are read alike, as the natural number they hold. -/
theorem maskedEqualityTakesOneOfTwoPaths : Obligations.MaskedEqualityTakesOneOfTwoPaths := by
  refine ⟨decodesTo_of_map fun _ => rfl, decodesTo_of_map fun _ => rfl, fun d a s => ?_, fun d a b s => ?_⟩
  · split
    · next ha => exact raises_of_source_empty rfl ha
    · next ha => exact mbFixed_writes ha d
    · next ha hk => exact raises_kind_of_not_masked rfl ha fun ⟨_, _, _, _, hx⟩ => hk _ _ _ _ hx
  · split
    · next ha => exact raises_of_either_empty rfl (.inl ha)
    · next hb _ => exact raises_of_either_empty rfl (.inr hb)
    · next ha hb => exact mbEq_writes ha (by rw [hb, asNatural]) d
    · next ha hb => exact mbEq_writes ha (by rw [hb, asNatural]) d
    · next ha hb hnat hbits =>
      have hanswer : Answers (.mbEq d a b) s d (mbEq (s.slot a) (s.slot b)) :=
        answers_onTwo rfl (not_or.mpr ⟨ha, hb⟩)
      rwa [mbEq_kind] at hanswer
      rintro ⟨⟨w, mask, val, rt, hx⟩, ⟨n, c, hy⟩ | ⟨n, c, hy⟩⟩
      · exact hnat _ _ _ _ _ _ hx hy
      · exact hbits _ _ _ _ _ _ hx hy

end Sys2Proof.Machine

/-! What is not known of a MASKED value decides nothing (R146, R147): value bits outside the mask, and the runtime bits
where the mask is full. -/

namespace Sys2Proof.Machine

open Sys2Proof.Claim

section Values

variable {w mask val val' : Nat}

/-- Under a full mask, values that agree in their known bits are equal. -/
theorem val_eq_of_known_eq (hval : val < 2 ^ w) (hval' : val' < 2 ^ w) (hfull : mask = 2 ^ w - 1)
    (hknown : val &&& mask = val' &&& mask) : val = val' := by
  rwa [hfull, Nat.and_two_pow_sub_one_of_lt_two_pow hval, Nat.and_two_pow_sub_one_of_lt_two_pow hval'] at hknown

/-- A slice of known bits is the known bits of the slices (R9). -/
theorem slice_and (high low u v : Nat) : slice high low (u &&& v) = slice high low u &&& slice high low v := by
  rw [slice, Nat.and_div_two_pow, Nat.and_mod_two_pow, slice, slice]

/-- MB.FIXED reads the width and the mask alone (R143). -/
theorem mbFixed_val (w mask val val' rt : Nat) :
    mbFixed (.masked w mask val rt) = mbFixed (.masked w mask val' rt) := by
  rw [mbFixed_masked, mbFixed_masked]

/-- MB.EQ reads the known value under a full mask only, where all of it is known (R144, R146). -/
theorem mbEq_of_known_eq (hval : val < 2 ^ w) (hval' : val' < 2 ^ w) (hknown : val &&& mask = val' &&& mask)
    (rt : Nat) (c : Value) : mbEq (.masked w mask val rt) c = mbEq (.masked w mask val' rt) c := by
  by_cases hfull : mask = 2 ^ w - 1
  · rw [val_eq_of_known_eq hval hval' hfull hknown]
  · simp only [mbEq, asMasked, ok_bind, isFixed, hfull, decide_false, Bool.false_eq_true, if_false]

end Values

section Program

variable {s : State} {x1 x2 x3 x4 x5 : Slot} {r : Nat}

/-- Bit 31 of the pattern of R147 is a fixed MASKED of one bit, and so compares by its known value. -/
theorem bit31_equals_one (h1 : s.slot x1 = .bits 32 r) (h2 : s.slot x2 = .bits 32 0x80000000)
    (h5 : s.slot x5 = .nat 1 1) (h35 : x3 ≠ x5) (h45 : x4 ≠ x5) (x6 : Slot) :
    ∃ s₁ s₂ s₃, exec (.mbNew x3 x1 x2 x2) s = .next s₁ ∧ exec (.mbExtract x4 x3 31 31) s₁ = .next s₂
      ∧ exec (.mbEq x6 x4 x5) s₂ = .next s₃ ∧ Wrote x6 (.bits 1 1) s₂ s₃ := by
  have hnew := mbNew_answers h1 h2 h2 x3
  rw [if_pos ⟨rfl, rfl⟩] at hnew
  obtain ⟨s₁, hnew, h3, hkept₁, -⟩ := hnew
  have hextract := mbExtract_answers h3 x4 31 31
  rw [if_pos (by decide)] at hextract
  obtain ⟨s₂, hextract, h4, hkept₂, -⟩ := hextract
  have hbit : slice 31 31 0x80000000 = 1 := by decide
  rw [hbit] at h4
  have hfive : asNatural (s₂.slot x5) = .ok 1 := by
    rw [hkept₂ x5 h45.symm, hkept₁ x5 h35.symm, h5, asNatural]
  obtain ⟨s₃, hequal, hwrote⟩ := mbEq_writes h4 hfive x6
  exact ⟨s₁, s₂, s₃, hnew, hextract, hequal, by simpa using hwrote⟩

end Program

/-- Settles O48: the two values differ only where no answer looks, and their slices differ only there again. -/
theorem maskedResultsIgnoreWhatIsNotKnown : Obligations.MaskedResultsIgnoreWhatIsNotKnown := by
  refine ⟨fun w mask val val' rt high low c _ hval hval' hknown =>
    ⟨mbFixed_val w mask val val' rt, mbEq_of_known_eq hval hval' hknown rt c, fun hle hlt => ?_⟩,
    fun r s x1 x2 x3 x4 x5 x6 h1 h2 h5 h35 h45 => bit31_equals_one h1 h2 h5 h35 h45 x6⟩
  have hextract := fun k => (mbExtract_masked high low w mask k rt).trans (if_pos ⟨hle, hlt⟩)
  refine ⟨_, _, _, _, _, hextract val, hextract val', ?_⟩
  rw [← slice_and, ← slice_and, hknown]

end Sys2Proof.Machine

/-! What an operation can raise, and in which order: the sources are read first, then their kinds are checked, then the
parameters (R154); so each instruction raises only the causes that R149 lists for it. -/

namespace Sys2Proof.Machine

open Sys2Proof.Claim

/-! ### Rules for the events of a computation -/

/-- A computation gives a result, or raises one of the events `es`. -/
def RaisesOnly {α : Type} (es : List Raised) : Except Raised α → Prop
  | .ok _ => True
  | .error e => e ∈ es

/-- A computation whose check of kinds is whether `K` holds: without it E_KIND is raised, with it only the events `es`
of the checks after it (R154). -/
def Checks {α : Type} (K : Prop) (es : List Raised) (x : Except Raised α) : Prop :=
  (K ∧ RaisesOnly es x) ∨ (¬K ∧ x = .error (.error .kind))

section Rules

variable {α β : Type} {es : List Raised} {K L : Prop} {x : Except Raised α} {f : α → Except Raised β}

theorem RaisesOnly.bind (h : RaisesOnly es x) (hf : ∀ a, RaisesOnly es (f a)) : RaisesOnly es (x >>= f) := by
  cases x with
  | ok a => exact hf a
  | error e => exact h

theorem require_raisesOnly {p : Prop} [Decidable p] (c : Cause) (h : .error c ∈ es := by simp) :
    RaisesOnly es (require p c) := by
  unfold require
  split
  · trivial
  · exact h

/-- A check of kinds that raises nothing else, then a computation with a further check of kinds. -/
theorem Checks.bind (h : Checks K [] x) (hf : ∀ a, Checks L es (f a)) : Checks (K ∧ L) es (x >>= f) := by
  rcases h with ⟨hK, honly⟩ | ⟨hK, rfl⟩
  · cases x with
    | ok a =>
      rcases hf a with ⟨hL, hrest⟩ | ⟨hL, hkind⟩
      · exact .inl ⟨⟨hK, hL⟩, hrest⟩
      · exact .inr ⟨fun h => hL h.2, hkind⟩
    | error e => cases honly
  · exact .inr ⟨fun h => hK h.1, rfl⟩

/-- The last check of kinds, then the rest of the computation. -/
theorem Checks.rest (h : Checks K [] x) (hf : ∀ a, RaisesOnly es (f a)) : Checks K es (x >>= f) := by
  rcases h with ⟨hK, honly⟩ | ⟨hK, rfl⟩
  · cases x with
    | ok a => exact .inl ⟨hK, hf a⟩
    | error e => cases honly
  · exact .inr ⟨hK, rfl⟩

end Rules

/-! ### The checks of kinds, and the operations that the families share -/

section Operands

variable {cfg : Config} {es : List Raised} {x : Value}

theorem asNat_checks : Checks (IsNat x) [] (asNat x) := by
  cases x with
  | nat w v => exact .inl ⟨⟨w, v, rfl⟩, trivial⟩
  | _ => exact .inr ⟨nofun, rfl⟩

theorem asBits_checks : Checks (IsBits x) [] (asBits x) := by
  cases x with
  | bits w v => exact .inl ⟨⟨w, v, rfl⟩, trivial⟩
  | _ => exact .inr ⟨nofun, rfl⟩

theorem asRanged_checks : Checks (IsRanged x) [] (asRanged x) := by
  cases x with
  | ranged lo hi p => exact .inl ⟨⟨lo, hi, p, rfl⟩, trivial⟩
  | _ => exact .inr ⟨nofun, rfl⟩

theorem asMasked_checks : Checks (IsMasked x) [] (asMasked x) := by
  cases x with
  | masked w mask val rt => exact .inl ⟨⟨w, mask, val, rt, rfl⟩, trivial⟩
  | _ => exact .inr ⟨nofun, rfl⟩

theorem asSigned_checks : Checks (IsSigned x) [] (asSigned x) := by
  cases x with
  | nat w v => exact .inl ⟨.inl ⟨w, v, rfl⟩, trivial⟩
  | neg w m => exact .inl ⟨.inr ⟨w, m, rfl⟩, trivial⟩
  | _ => exact .inr ⟨not_or.mpr ⟨nofun, nofun⟩, rfl⟩

theorem asNatural_checks : Checks (IsNat x ∨ IsBits x) [] (asNatural x) := by
  cases x with
  | nat w v => exact .inl ⟨.inl ⟨w, v, rfl⟩, trivial⟩
  | bits w v => exact .inl ⟨.inr ⟨w, v, rfl⟩, trivial⟩
  | _ => exact .inr ⟨not_or.mpr ⟨nofun, nofun⟩, rfl⟩

theorem successor_raisesOnly (a : Sized) :
    RaisesOnly [.error .widthLimit, .error .succOverflow] (successor cfg a) :=
  (require_raisesOnly .widthLimit).bind fun _ => (require_raisesOnly .succOverflow).bind fun _ => trivial

theorem sum_raisesOnly (a b : Sized) : RaisesOnly [.error .widthLimit] (sum cfg a b) :=
  (require_raisesOnly .widthLimit).bind fun _ => trivial

theorem concat_raisesOnly (a b : Sized) : RaisesOnly [.error .widthLimit] (concat cfg a b) :=
  (require_raisesOnly .widthLimit).bind fun _ => trivial

theorem construct_raisesOnly (w imm : Nat) : RaisesOnly [.error .widthLimit] (construct cfg w imm) :=
  (require_raisesOnly .widthLimit).bind fun _ => trivial

end Operands

/-! ### Every operation -/

section Operations

variable {cfg : Config} {x y z : Value}

theorem natLi_raisesOnly (w imm : Nat) : RaisesOnly [.error .widthLimit] (natLi cfg w imm) :=
  (construct_raisesOnly w imm).bind fun _ => trivial

theorem natSucc_checks : Checks (IsNat x) [.error .widthLimit, .error .succOverflow] (natSucc cfg x) :=
  asNat_checks.rest fun a => (successor_raisesOnly a).bind fun _ => trivial

theorem natAdd_checks : Checks (IsNat x ∧ IsNat y) [.error .widthLimit] (natAdd cfg x y) :=
  asNat_checks.bind fun a => asNat_checks.rest fun b => (sum_raisesOnly a b).bind fun _ => trivial

theorem natSub_checks : Checks (IsNat x ∧ IsNat y) [] (natSub x y) :=
  asNat_checks.bind fun _ => asNat_checks.rest fun _ => trivial

theorem natSubz_checks : Checks (IsNat x) [.fatal .zeroInvariant] (natSubz x) :=
  asNat_checks.rest fun b => by
    split
    · exact List.mem_singleton_self _
    · trivial

theorem natCmp_checks : Checks (IsNat x ∧ IsNat y) [] (natCmp x y) :=
  asNat_checks.bind fun _ => asNat_checks.rest fun _ => trivial

theorem natShl_checks (k : Nat) : Checks (IsNat x) [.error .widthLimit] (natShl cfg k x) :=
  asNat_checks.rest fun _ => (require_raisesOnly .widthLimit).bind fun _ => trivial

theorem natShr_checks (k : Nat) : Checks (IsNat x) [] (natShr k x) := asNat_checks.rest fun _ => trivial

theorem natBitsize_checks : Checks (IsNat x) [] (natBitsize x) := asNat_checks.rest fun _ => trivial

theorem natConcat_checks : Checks (IsNat x ∧ IsNat y) [.error .widthLimit] (natConcat cfg x y) :=
  asNat_checks.bind fun a => asNat_checks.rest fun b => (concat_raisesOnly a b).bind fun _ => trivial

theorem natTobits_checks : Checks (IsNat x) [] (natTobits x) := asNat_checks.rest fun _ => trivial

theorem bitsLi_raisesOnly (w imm : Nat) : RaisesOnly [.error .widthLimit] (bitsLi cfg w imm) :=
  (construct_raisesOnly w imm).bind fun _ => trivial

theorem bitsConcat_checks : Checks (IsBits x ∧ IsBits y) [.error .widthLimit] (bitsConcat cfg x y) :=
  asBits_checks.bind fun a => asBits_checks.rest fun b => (concat_raisesOnly a b).bind fun _ => trivial

theorem bitsShr_checks (k : Nat) : Checks (IsBits x) [] (bitsShr k x) := asBits_checks.rest fun _ => trivial

theorem bitsExtract_checks (high low : Nat) : Checks (IsBits x) [.error .widthContract] (bitsExtract high low x) :=
  asBits_checks.rest fun _ => (require_raisesOnly .widthContract).bind fun _ => trivial

theorem bitsTrim_checks (t : Nat) : Checks (IsBits x) [.error .widthContract] (bitsTrim t x) :=
  asBits_checks.rest fun _ => (require_raisesOnly .widthContract).bind fun _ => trivial

theorem bitsZext_checks (t : Nat) :
    Checks (IsBits x) [.error .widthContract, .error .widthLimit] (bitsZext cfg t x) :=
  asBits_checks.rest fun _ => (require_raisesOnly .widthContract).bind fun _ =>
    (require_raisesOnly .widthLimit).bind fun _ => trivial

theorem bitsSext_checks (t : Nat) :
    Checks (IsBits x) [.error .widthContract, .error .widthLimit] (bitsSext cfg t x) :=
  asBits_checks.rest fun _ => (require_raisesOnly .widthContract).bind fun _ =>
    (require_raisesOnly .widthLimit).bind fun _ => trivial

theorem bitsNot_checks : Checks (IsBits x) [] (bitsNot x) := asBits_checks.rest fun _ => trivial

theorem bitsSucc_checks : Checks (IsBits x) [.error .widthLimit, .error .succOverflow] (bitsSucc cfg x) :=
  asBits_checks.rest fun a => (successor_raisesOnly a).bind fun _ => trivial

theorem bitsCmp_checks : Checks (IsBits x ∧ IsBits y) [] (bitsCmp x y) :=
  asBits_checks.bind fun _ => asBits_checks.rest fun _ => trivial

theorem bitsFlip_checks (f : Nat) : Checks (IsBits x) [.error .widthLimit] (bitsFlip cfg f x) :=
  asBits_checks.rest fun _ => (require_raisesOnly .widthLimit).bind fun _ => trivial

theorem bitsAdd_checks : Checks (IsBits x ∧ IsBits y) [.error .widthLimit] (bitsAdd cfg x y) :=
  asBits_checks.bind fun a => asBits_checks.rest fun b => (sum_raisesOnly a b).bind fun _ => trivial

theorem bitsSign_checks : Checks (IsBits x) [] (bitsSign x) := asBits_checks.rest fun _ => trivial

theorem bitsTonat_checks : Checks (IsBits x) [] (bitsTonat x) := asBits_checks.rest fun _ => trivial

theorem negNegate_checks : Checks (IsSigned x) [] (negNegate x) := by
  cases x with
  | nat w v => exact .inl ⟨.inl ⟨w, v, rfl⟩, trivial⟩
  | neg w m => exact .inl ⟨.inr ⟨w, m, rfl⟩, trivial⟩
  | _ => exact .inr ⟨not_or.mpr ⟨nofun, nofun⟩, rfl⟩

theorem negAbs_checks : Checks (IsSigned x) [] (negAbs x) := by
  cases x with
  | nat w v => exact .inl ⟨.inl ⟨w, v, rfl⟩, trivial⟩
  | neg w m => exact .inl ⟨.inr ⟨w, m, rfl⟩, trivial⟩
  | _ => exact .inr ⟨not_or.mpr ⟨nofun, nofun⟩, rfl⟩

theorem negCmp_checks : Checks (IsSigned x ∧ IsSigned y) [] (negCmp x y) :=
  asSigned_checks.bind fun _ => asSigned_checks.rest fun _ => trivial

theorem negAdd_checks : Checks ((IsNat x ∧ IsNeg y) ∨ (IsNeg x ∧ IsNat y)) [] (negAdd x y) := by
  by_cases h : (IsNat x ∧ IsNeg y) ∨ (IsNeg x ∧ IsNat y)
  · refine .inl ⟨h, ?_⟩
    rcases h with ⟨⟨n, u, rfl⟩, m, v, rfl⟩ | ⟨⟨m, v, rfl⟩, n, u, rfl⟩ <;> trivial
  · exact .inr ⟨h, negAdd_kind (fun _ _ _ _ hx hy => h (.inl ⟨⟨_, _, hx⟩, _, _, hy⟩))
      fun _ _ _ _ hx hy => h (.inr ⟨⟨_, _, hx⟩, _, _, hy⟩)⟩

theorem riNew_checks : Checks (IsSigned x ∧ IsSigned y ∧ IsSigned z)
    [.error .bounds, .error .widthLimit, rangeRaised cfg] (riNew cfg x y z) :=
  asSigned_checks.bind fun _ => asSigned_checks.bind fun _ => asSigned_checks.rest fun _ =>
    (require_raisesOnly .bounds).bind fun _ => (require_raisesOnly .widthLimit).bind fun _ => by
      split
      · trivial
      · simp [RaisesOnly]

theorem riAdd_checks : Checks (IsRanged x ∧ IsRanged y) [.error .widthLimit] (riAdd cfg x y) :=
  asRanged_checks.bind fun _ => asRanged_checks.rest fun _ => (require_raisesOnly .widthLimit).bind fun _ => trivial

theorem riValue_checks : Checks (IsRanged x) [] (riValue x) := asRanged_checks.rest fun _ => trivial

theorem riBias_checks : Checks (IsRanged x) [] (riBias x) := asRanged_checks.rest fun _ => trivial

theorem riWidth_checks : Checks (IsRanged x) [] (riWidth x) := asRanged_checks.rest fun _ => trivial

theorem mbNew_checks : Checks (IsBits x ∧ IsBits y ∧ IsBits z) [.error .widthContract] (mbNew x y z) :=
  asBits_checks.bind fun _ => asBits_checks.bind fun _ => asBits_checks.rest fun _ =>
    (require_raisesOnly .widthContract).bind fun _ => trivial

theorem mbExtract_checks (high low : Nat) :
    Checks (IsMasked x) [.error .widthContract] (mbExtract high low x) :=
  asMasked_checks.rest fun _ => (require_raisesOnly .widthContract).bind fun _ => trivial

theorem mbFixed_checks : Checks (IsMasked x) [] (mbFixed x) := asMasked_checks.rest fun _ => trivial

theorem mbEq_checks : Checks (IsMasked x ∧ (IsNat y ∨ IsBits y)) [] (mbEq x y) :=
  asMasked_checks.bind fun _ => asNatural_checks.rest fun _ => trivial

end Operations

/-! ### Every instruction -/

/-- The events that an instruction may raise once its sources are of the kinds it takes (R149, R154 step (5)). -/
def parameterEvents : Instr → List Raised
  | .natLi _ _ _ | .natAdd _ _ _ | .natShl _ _ _ | .natConcat _ _ _ | .bitsLi _ _ _ | .bitsConcat _ _ _
  | .bitsFlip _ _ _ | .bitsAdd _ _ _ | .riAdd _ _ _ => [.error .widthLimit]
  | .natSucc _ _ | .bitsSucc _ _ => [.error .widthLimit, .error .succOverflow]
  | .bitsExtract _ _ _ _ | .bitsTrim _ _ _ | .mbNew _ _ _ _ | .mbExtract _ _ _ _ => [.error .widthContract]
  | .bitsZext _ _ _ | .bitsSext _ _ _ => [.error .widthContract, .error .widthLimit]
  | .natSubz _ _ => [.fatal .zeroInvariant]
  | .riNew _ _ _ _ => [.error .bounds, .error .widthLimit, .error .range]
  | .nop | .halt | .mov _ _ | .clr _ | .natSub _ _ _ | .natCmp _ _ _ | .natShr _ _ _ | .natBitsize _ _
  | .natTobits _ _ | .bitsShr _ _ _ | .bitsNot _ _ | .bitsCmp _ _ _ | .bitsSign _ _ | .bitsTonat _ _
  | .negNegate _ _ | .negAbs _ _ | .negCmp _ _ _ | .negAdd _ _ _ | .riValue _ _ | .riBias _ _ | .riWidth _ _
  | .mbFixed _ _ | .mbEq _ _ _ => []

/-- A result for which the slots `rs` are read first (R154, step (3)), and then the kinds are checked. -/
def ReadsFirst (rs : List Slot) (s : State) (K : Prop) (es : List Raised) (r : Except Raised Value) : Prop :=
  ((∃ a ∈ rs, s.slot a = .empty) → r = .error (.error .emptySlot)) ∧ ((¬∃ a ∈ rs, s.slot a = .empty) → Checks K es r)

section Sources

variable {s : State} {a b c : Slot} {K : Prop} {es : List Raised}

theorem noSource_readsFirst {r : Except Raised Value} (h : RaisesOnly es r) : ReadsFirst [] s True es r :=
  ⟨by simp, fun _ => .inl ⟨trivial, h⟩⟩

theorem onOne_readsFirst {op : Value → Except Raised Value} (h : Checks K es (op (s.slot a))) :
    ReadsFirst [a] s K es (onOne s a op) := by
  rw [ReadsFirst, onOne_eq]
  simp only [List.mem_singleton, exists_eq_left]
  exact ⟨fun he => if_pos he, fun he => by rwa [if_neg he]⟩

theorem onTwo_readsFirst {op : Value → Value → Except Raised Value} (h : Checks K es (op (s.slot a) (s.slot b))) :
    ReadsFirst [a, b] s K es (onTwo s a b op) := by
  rw [ReadsFirst, onTwo_eq]
  simp only [List.mem_cons, List.not_mem_nil, or_false, exists_eq_or_imp, exists_eq_left]
  exact ⟨fun he => if_pos he, fun he => by rwa [if_neg he]⟩

theorem onThree_readsFirst {op : Value → Value → Value → Except Raised Value}
    (h : Checks K es (op (s.slot a) (s.slot b) (s.slot c))) : ReadsFirst [a, b, c] s K es (onThree s a b c op) := by
  rw [ReadsFirst, onThree_eq]
  simp only [List.mem_cons, List.not_mem_nil, or_false, exists_eq_or_imp, exists_eq_left]
  exact ⟨fun he => if_pos he, fun he => by rwa [if_neg he]⟩

end Sources

/-- An instruction with a destination reads its sources, then checks their kinds, then its parameters (R154). -/
theorem exec_finishes_checked (s : State) {d : Slot} : ∀ i : Instr, i.dest = some d →
    ∃ r, exec i s = .next (finish d r s) ∧ ReadsFirst i.sources s (KindsTaken i s) (parameterEvents i) r
  | .mov _ _, rfl => ⟨_, rfl, onOne_readsFirst (.inl ⟨trivial, trivial⟩)⟩
  | .clr _, rfl => ⟨_, rfl, noSource_readsFirst trivial⟩
  | .natLi _ w n, rfl => ⟨_, rfl, noSource_readsFirst (natLi_raisesOnly w n)⟩
  | .natSucc _ _, rfl => ⟨_, rfl, onOne_readsFirst natSucc_checks⟩
  | .natAdd _ _ _, rfl => ⟨_, rfl, onTwo_readsFirst natAdd_checks⟩
  | .natSub _ _ _, rfl => ⟨_, rfl, onTwo_readsFirst natSub_checks⟩
  | .natSubz _ _, rfl => ⟨_, rfl, onOne_readsFirst natSubz_checks⟩
  | .natCmp _ _ _, rfl => ⟨_, rfl, onTwo_readsFirst natCmp_checks⟩
  | .natShl _ _ k, rfl => ⟨_, rfl, onOne_readsFirst (natShl_checks k)⟩
  | .natShr _ _ k, rfl => ⟨_, rfl, onOne_readsFirst (natShr_checks k)⟩
  | .natBitsize _ _, rfl => ⟨_, rfl, onOne_readsFirst natBitsize_checks⟩
  | .natConcat _ _ _, rfl => ⟨_, rfl, onTwo_readsFirst natConcat_checks⟩
  | .natTobits _ _, rfl => ⟨_, rfl, onOne_readsFirst natTobits_checks⟩
  | .bitsLi _ w n, rfl => ⟨_, rfl, noSource_readsFirst (bitsLi_raisesOnly w n)⟩
  | .bitsConcat _ _ _, rfl => ⟨_, rfl, onTwo_readsFirst bitsConcat_checks⟩
  | .bitsShr _ _ k, rfl => ⟨_, rfl, onOne_readsFirst (bitsShr_checks k)⟩
  | .bitsExtract _ _ high low, rfl => ⟨_, rfl, onOne_readsFirst (bitsExtract_checks high low)⟩
  | .bitsTrim _ _ t, rfl => ⟨_, rfl, onOne_readsFirst (bitsTrim_checks t)⟩
  | .bitsZext _ _ t, rfl => ⟨_, rfl, onOne_readsFirst (bitsZext_checks t)⟩
  | .bitsSext _ _ t, rfl => ⟨_, rfl, onOne_readsFirst (bitsSext_checks t)⟩
  | .bitsNot _ _, rfl => ⟨_, rfl, onOne_readsFirst bitsNot_checks⟩
  | .bitsSucc _ _, rfl => ⟨_, rfl, onOne_readsFirst bitsSucc_checks⟩
  | .bitsCmp _ _ _, rfl => ⟨_, rfl, onTwo_readsFirst bitsCmp_checks⟩
  | .bitsFlip _ _ f, rfl => ⟨_, rfl, onOne_readsFirst (bitsFlip_checks f)⟩
  | .bitsAdd _ _ _, rfl => ⟨_, rfl, onTwo_readsFirst bitsAdd_checks⟩
  | .bitsSign _ _, rfl => ⟨_, rfl, onOne_readsFirst bitsSign_checks⟩
  | .bitsTonat _ _, rfl => ⟨_, rfl, onOne_readsFirst bitsTonat_checks⟩
  | .negNegate _ _, rfl => ⟨_, rfl, onOne_readsFirst negNegate_checks⟩
  | .negAbs _ _, rfl => ⟨_, rfl, onOne_readsFirst negAbs_checks⟩
  | .negCmp _ _ _, rfl => ⟨_, rfl, onTwo_readsFirst negCmp_checks⟩
  | .negAdd _ _ _, rfl => ⟨_, rfl, onTwo_readsFirst negAdd_checks⟩
  | .riNew _ _ _ _, rfl => ⟨_, rfl, onThree_readsFirst riNew_checks⟩
  | .riAdd _ _ _, rfl => ⟨_, rfl, onTwo_readsFirst riAdd_checks⟩
  | .riValue _ _, rfl => ⟨_, rfl, onOne_readsFirst riValue_checks⟩
  | .riBias _ _, rfl => ⟨_, rfl, onOne_readsFirst riBias_checks⟩
  | .riWidth _ _, rfl => ⟨_, rfl, onOne_readsFirst riWidth_checks⟩
  | .mbNew _ _ _ _, rfl => ⟨_, rfl, onThree_readsFirst mbNew_checks⟩
  | .mbExtract _ _ high low, rfl => ⟨_, rfl, onOne_readsFirst (mbExtract_checks high low)⟩
  | .mbFixed _ _, rfl => ⟨_, rfl, onOne_readsFirst mbFixed_checks⟩
  | .mbEq _ _ _, rfl => ⟨_, rfl, onTwo_readsFirst mbEq_checks⟩

/-- Settles O11: NOP and HALT have no source, and every other instruction reads and checks its sources first. -/
theorem sourcesAreCheckedFirst : Obligations.SourcesAreCheckedFirst := by
  intro i s
  rcases exec_cases i with ⟨rfl, -⟩ | ⟨rfl, -⟩ | ⟨d, -, hd, -⟩
  · exact ⟨nofun, fun _ hk => absurd trivial hk⟩
  · exact ⟨nofun, fun _ hk => absurd trivial hk⟩
  · obtain ⟨r, hfinish, hempty, hchecks⟩ := exec_finishes_checked s i hd
    refine ⟨fun he => raises_of_finish hfinish (hempty he), fun he hk => ?_⟩
    obtain ⟨-, hkind⟩ := (hchecks he).resolve_left fun h => hk h.1
    exact raises_of_finish hfinish hkind

/-! ### The listed causes -/

/-- The cause that an event records (R148). -/
def Raised.cause : Raised → Cause
  | .error c => c
  | .fatal c => c

/-- An event that R149 lists for the instruction, fatal exactly for the one fatal cause of this hardware (R150). -/
def Listed (i : Instr) (e : Raised) : Prop := MayRaise i e.cause ∧ e.Legal Config.natUnit

theorem listed_of_parameterEvents {i : Instr} : ∀ e ∈ parameterEvents i, Listed i e := by
  cases i <;> simp [parameterEvents, Listed, MayRaise, Raised.cause, Raised.Legal]

theorem kindsTaken_of_no_source (s : State) : ∀ i : Instr, i.sources = [] → KindsTaken i s
  | .nop, _ | .halt, _ | .clr _, _ | .natLi _ _ _, _ | .bitsLi _ _ _, _ => trivial

/-- R149 lists E_KIND for every instruction that checks a kind: MOV and the instructions without a source check none. -/
theorem mayRaise_kind {i : Instr} {s : State} (h : ¬KindsTaken i s) : MayRaise i .kind := by
  refine ⟨fun hnone => h (kindsTaken_of_no_source s i hnone), ?_⟩
  rintro d a rfl
  exact h trivial

/-- An instruction with a destination finishes with a value or an event that R149 lists for it. -/
theorem exec_finishes_listed (s : State) {i : Instr} {d : Slot} (hd : i.dest = some d) :
    ∃ r, exec i s = .next (finish d r s) ∧ ∀ e, r = .error e → Listed i e := by
  obtain ⟨r, hfinish, hempty, hchecks⟩ := exec_finishes_checked s i hd
  refine ⟨r, hfinish, ?_⟩
  rintro e rfl
  by_cases he : ∃ a ∈ i.sources, s.slot a = .empty
  · cases hempty he
    obtain ⟨a, ha, -⟩ := he
    exact ⟨List.ne_nil_of_mem ha, nofun⟩
  · rcases hchecks he with ⟨-, hmem⟩ | ⟨hk, hkind⟩
    · exact listed_of_parameterEvents e hmem
    · cases hkind
      exact ⟨mayRaise_kind hk, nofun⟩

/-- Settles O10: ERR = 1 is left by an event only, whose code is recorded because ERR was 0. -/
theorem instructionsRaiseOnlyTheirListedCauses : Obligations.InstructionsRaiseOnlyTheirListedCauses := by
  refine ⟨by decide, fun i s t herr hfatal hexec ht => ?_⟩
  rcases exec_cases i with ⟨-, hnop⟩ | ⟨-, hhalt⟩ | ⟨d, -, hd, -⟩
  · cases (hnop s).symm.trans hexec
    cases herr.symm.trans ht
  · cases (hhalt s).symm.trans hexec
    cases herr.symm.trans ht
  · obtain ⟨r, hfinish, hlisted⟩ := exec_finishes_listed s hd
    cases hfinish.symm.trans hexec
    rcases r with (c | c) | v
    · obtain ⟨hmay, hlegal⟩ := hlisted _ rfl
      obtain ⟨-, ⟨-, -, hnew, -⟩, -, hkept, -⟩ := finish_error_erred d c s
      refine ⟨c, hmay, (hnew (.inl herr)).1, ?_⟩
      rw [hkept, hfatal]
      exact ⟨nofun, fun hc => absurd hc hlegal⟩
    · obtain ⟨hmay, hlegal⟩ := hlisted _ rfl
      obtain ⟨-, ⟨-, -, hnew, -⟩, -, hset, -⟩ := finish_fatal_erred d c s
      exact ⟨c, hmay, (hnew (.inl herr)).1, fun _ => hlegal.resolve_left nofun, fun _ => hset⟩
    · cases herr.symm.trans ht

end Sys2Proof.Machine

/-! What an instruction and a step leave alone: every slot but the destination (R159), and what STATUS has recorded
(R152). -/

namespace Sys2Proof.Machine

open Sys2Proof.Claim

/-- Settles O8, by the three forms of `exec_cases` and the frame of `finish`. -/
theorem commandsChangeOnlyDestinationAndStatus : Obligations.CommandsChangeOnlyDestinationAndStatus := by
  intro i s
  rcases exec_cases i with ⟨-, hnop⟩ | ⟨-, hhalt⟩ | ⟨d, r, hd, hfinish, -⟩
  · exact ⟨_, hnop s, fun _ _ => rfl, rfl, rfl⟩
  · exact ⟨_, hhalt s, fun _ _ => rfl, rfl, rfl⟩
  · obtain ⟨hslots, hqueue, hseq⟩ := finish_frame d (r s) s
    refine ⟨_, hfinish s, fun a ha => hslots a ?_, hqueue, hseq⟩
    rintro rfl
    exact ha hd

/-! ### What STATUS keeps -/

/-- From one STATUS to a later one, what R152 keeps: the sticky bits, the count, and the first error's record unless a
fatal error stands; and a fatal error that is new has halted the unit (R151). -/
structure KeepsErrors (before after : Status) : Prop where
  err : before.err = true → after.err = true
  fatal : before.fatal = true → after.fatal = true
  record : before.err = true → after.fatal = false → after.cause = before.cause ∧ after.errSeq = before.errSeq
  count : before.errCnt.toNat ≤ after.errCnt.toNat
  halts : before.fatal = false → after.fatal = true → after.halted = true

section Outcomes

variable {c : Cause} {s t : State}

/-- HALTED is no part of an error's record. -/
theorem keepsErrors_withHalted (st : Status) (h : Bool) : KeepsErrors st { st with halted := h } where
  err := id
  fatal := id
  record _ _ := ⟨rfl, rfl⟩
  count := le_rfl
  halts hno hyes := by cases hno.symm.trans hyes

theorem keepsErrors_refl (st : Status) : KeepsErrors st st := keepsErrors_withHalted st st.halted

theorem Recorded.count_le {fatal : Bool} {seq : BitVec 32} {before after : Status}
    (h : Recorded c fatal seq before after) : before.errCnt.toNat ≤ after.errCnt.toNat := by
  obtain ⟨-, hcount, -, -⟩ := h
  have := before.errCnt.isLt
  omega

theorem Erred.keepsErrors (h : Erred c s t) : KeepsErrors s.status t.status := by
  obtain ⟨-, hrec, -, hfatal, -, -⟩ := h
  have ⟨herr, _, _, hkept⟩ := hrec
  exact {
    err := fun _ => herr
    fatal := hfatal.trans
    record := fun h _ => hkept h rfl
    count := hrec.count_le
    halts := fun hno hyes => by cases (hfatal.trans hno).symm.trans hyes }

theorem ErredFatally.keepsErrors (h : ErredFatally c s t) : KeepsErrors s.status t.status := by
  obtain ⟨-, hrec, hhalted, hfatal, -, -⟩ := h
  exact {
    err := fun _ => hrec.1
    fatal := fun _ => hfatal
    record := fun _ hno => by cases hfatal.symm.trans hno
    count := hrec.count_le
    halts := fun _ _ => hhalted }

/-- The step waited, or took a command with one of the outcomes of R38. -/
theorem step_keepsErrors (h : step s = .next t) : KeepsErrors s.status t.status := by
  obtain ⟨hh, ⟨-, rfl⟩ | ⟨c, rest, hq, -⟩⟩ := step_next_cases h
  · exact keepsErrors_refl t.status
  · obtain ⟨u, hu, -, -, houtcome⟩ := everyCommandHasOneOutcome s c rest hh hq
    cases hu.symm.trans h
    split at houtcome
    · exact houtcome.keepsErrors
    · exact houtcome.keepsErrors
    · rcases houtcome with ⟨d, v, -, -, -, hstatus, -⟩ | ⟨e, herred⟩ | ⟨e, hfatal⟩ | ⟨-, rfl⟩ | ⟨-, rfl⟩
      · rw [hstatus]
        exact keepsErrors_refl s.status
      · exact herred.keepsErrors
      · exact hfatal.keepsErrors
      · exact keepsErrors_withHalted s.status true
      · exact keepsErrors_refl s.status

end Outcomes

/-- Settles O13: taking an error records it, every step keeps what is recorded, and a unit that a fatal error halted
has no step. -/
theorem errorsAreRecordedAndSticky : Obligations.ErrorsAreRecordedAndSticky := by
  refine ⟨fun c s => ⟨recordError_recorded c false _ _, recordError_recorded c true _ _⟩, fun s t hstep => ?_, ?_⟩
  · obtain ⟨herr, hfatal, hrecord, hcount, hhalts⟩ := step_keepsErrors hstep
    refine ⟨herr, hfatal, hrecord, hcount, fun hno hyes u hu => ?_⟩
    obtain ⟨hrun, -⟩ := step_next_cases hu
    cases (hhalts hno hyes).symm.trans hrun
  · intro m s t hmove hreset
    cases m with
    | push c =>
      obtain ⟨-, rfl⟩ := hostPush_eq_some_iff.mp hmove
      rfl
    | reset => exact absurd rfl hreset
    | readSlot r => cases hmove; rfl
    | readStatus => cases hmove; rfl

end Sys2Proof.Machine

/-! DEBUG_ABORT (R153): the two builds differ in RI.NEW alone, and there only in whether E_RANGE is fatal. -/

namespace Sys2Proof.Machine

open Sys2Proof.Claim

theorem rangedWidth_le_iff (lo hi : Int) (n : Nat) : rangedWidth lo hi ≤ n ↔ hi - lo + 1 < 2 ^ n := by
  rw [rangedWidth, bitSize_le_iff, Int.toNat_lt' (Nat.two_pow_pos _), Nat.cast_pow]
  rfl

/-- A construction from three signed integers, its checks in the order of the rule, in any build (R133). -/
theorem riNew_signed (cfg : Config) {x mn mx : Value} {v lo hi : Int} (hx : signedVal x = some v)
    (hmn : signedVal mn = some lo) (hmx : signedVal mx = some hi) :
    riNew cfg x mn mx =
      if lo ≤ hi then
        if rangedWidth lo hi ≤ cfg.wmax then
          if lo ≤ v ∧ v ≤ hi then .ok (.ranged lo hi (v - lo).toNat) else .error (rangeRaised cfg)
        else .error (.error .widthLimit)
      else .error (.error .bounds) := by
  simp only [riNew, asSigned_of_some hx, asSigned_of_some hmn, asSigned_of_some hmx, ok_bind, require_bind]
  rfl

/-- The two builds of a WMAX: E_RANGE in both, fatal in one only, or one result in both that is no E_RANGE. -/
theorem riNew_builds (w depth : Nat) (x mn mx : Value) :
    (riNew ⟨w, depth, false⟩ x mn mx = .error (.error .range) ∧ riNew ⟨w, depth, true⟩ x mn mx = .error (.fatal .range))
    ∨ (riNew ⟨w, depth, true⟩ x mn mx = riNew ⟨w, depth, false⟩ x mn mx
      ∧ ∀ e, riNew ⟨w, depth, false⟩ x mn mx = .error e → e.cause ≠ .range) := by
  by_cases h : ∃ v lo hi, signedVal x = some v ∧ signedVal mn = some lo ∧ signedVal mx = some hi
  · obtain ⟨v, lo, hi, hx, hmn, hmx⟩ := h
    simp only [riNew_signed _ hx hmn hmx]
    split
    · split
      · split
        · exact .inr ⟨rfl, nofun⟩
        · exact .inl ⟨rfl, rfl⟩
      · exact .inr ⟨rfl, fun e he => by cases he; decide⟩
    · exact .inr ⟨rfl, fun e he => by cases he; decide⟩
  · have hkind : ∀ cfg, riNew cfg x mn mx = .error (.error .kind) := fun cfg =>
      riNew_kind fun v lo hi hx hmn hmx => h ⟨v, lo, hi, hx, hmn, hmx⟩
    rw [hkind, hkind]
    exact .inr ⟨rfl, fun e he => by cases he; decide⟩

theorem execIn_debugAbort (w depth : Nat) (debug : Bool) {i : Instr} (h : ∀ d a b c, i ≠ .riNew d a b c)
    (s : State) : execIn ⟨w, depth, debug⟩ i s = execIn ⟨w, depth, false⟩ i s := by
  cases i with
  | riNew d a b c => exact absurd rfl (h d a b c)
  | _ => rfl

/-- RI.NEW of an integer outside legal bounds takes the E_RANGE of the build (R133, R153). -/
theorem execIn_riNew_out_of_range (cfg : Config) {s : State} {a b c : Slot} {v lo hi : Int}
    (ha : signedVal (s.slot a) = some v) (hb : signedVal (s.slot b) = some lo) (hc : signedVal (s.slot c) = some hi)
    (hle : lo ≤ hi) (hw : hi - lo + 1 < 2 ^ cfg.wmax) (hout : v < lo ∨ hi < v) (d : Slot) :
    execIn cfg (.riNew d a b c) s = .next (finish d (.error (rangeRaised cfg)) s) := by
  have hread : onThree s a b c (riNew cfg) = .error (rangeRaised cfg) := by
    rw [onThree_eq, if_neg (by simp [ne_empty_of_signedVal ha, ne_empty_of_signedVal hb, ne_empty_of_signedVal hc]),
      riNew_signed cfg ha hb hc, if_pos hle, if_pos ((rangedWidth_le_iff lo hi _).mpr hw), if_neg (by omega)]
  rw [← hread]
  rfl

/-- Settles O49: no rule but RI.NEW's reads DEBUG_ABORT, and RI.NEW reads it in `rangeRaised` alone. -/
theorem debugAbortMakesOnlyRangeFatal : Obligations.DebugAbortMakesOnlyRangeFatal := by
  refine ⟨rfl, fun w depth k imm x y mn mx debug =>
    ⟨⟨rfl, rfl, rfl, rfl, rfl, rfl, rfl, rfl, rfl, rfl, rfl, rfl, rfl⟩, ?_, ?_,
      fun i s h => execIn_debugAbort w depth debug h s, ?_⟩⟩
  · rcases riNew_builds w depth x mn mx with ⟨hrange, hfatal⟩ | ⟨hsame, hother⟩
    · exact ⟨fun _ => hfatal, fun _ => hrange⟩
    · rw [hsame]
      exact ⟨fun h => absurd rfl (hother _ h), fun h => absurd rfl (hother _ h)⟩
  · intro hne
    obtain ⟨hsame, -⟩ := (riNew_builds w depth x mn mx).resolve_left fun h => hne h.1
    exact hsame
  · intro d a b c s v lo hi ha hb hc hle hw hout
    have hexec := fun debug => execIn_riNew_out_of_range ⟨w, depth, debug⟩ ha hb hc hle hw hout d
    exact ⟨⟨_, hexec true, finish_fatal_erred d .range s⟩, ⟨_, hexec false, finish_error_erred d .range s⟩⟩

end Sys2Proof.Machine
